-- ==== Sys2Proof/Word.lean ====
section
/-! DEFINITION. The words of the block: the fixed widths of rule R10 and of the request word of rule R70. -/

namespace Sys2Proof

/-- Bus data is one byte (R10). -/
abbrev Byte := BitVec 8

/-- A CPU memory address, or a port address of which only the low byte is decoded (R10, R46). -/
abbrev Addr := BitVec 16

/-- A request word (R70). -/
abbrev Request := BitVec 48

end Sys2Proof
end

