-- ==== Sys2Proof/Syntax.lean ====
section
/-! DEFINITION. The 18 transactions of the block, one constructor per row of spec/opcode_table.json (R75),
with the operands of R74 as the request word carries them. -/

namespace Sys2Proof

/-- A transaction. Each operand has exactly the width of its field in the request word (R71), so every
term of this type is well formed: there is no operand value that an encoding cannot hold. -/
inductive Instr where
  /-- MEM_RD, `readMemByte(addr, isFetch)` (R81). -/
  | memRd (isFetch : Bool) (dt : Byte) (addr : Addr)
  /-- MEM_WR, `writeMemByte(addr, val)` (R82). -/
  | memWr (dt : Byte) (addr : Addr) (data : Byte)
  /-- MEM_PEEK, `getMemByte(addr, isFetch)` (R83). -/
  | memPeek (isFetch : Bool) (addr : Addr)
  /-- IO_RD, `readIOByte(port)` (R86). The upper byte of `portAddr` is carried and not decoded (R46). -/
  | ioRd (dt : Byte) (portAddr : Addr)
  /-- IO_WR, `writeIOByte(port, val)` (R87). -/
  | ioWr (dt : Byte) (portAddr : Addr) (data : Byte)
  /-- TICK, `onClockTicks(n)` (R104). -/
  | tick (n : BitVec 32)
  /-- INT_QUERY, `isInterruptRequested()` (R112). -/
  | intQuery
  /-- INT_ACK, `interruptAccept()` (R113). -/
  | intAck
  /-- INT_FIN, `interruptFinish()` (R114). -/
  | intFin
  /-- RESET.POWERON (R118). -/
  | resetPowerOn
  /-- RESET.COLD (R119). -/
  | resetCold
  /-- RESET.WARM (R120). -/
  | resetWarm
  /-- SPEED (R103). -/
  | speed (khz : BitVec 32)
  /-- VID_PIX, `getColorIndex(x, y)` (R109). -/
  | vidPix (x y : BitVec 16)
  /-- VID_BORDER, `getBorderColorAtLine(line)` (R110). The field holds the line in two's complement. -/
  | vidBorder (line : BitVec 32)
  /-- KEY_SET (R115). -/
  | keySet (row : BitVec 16) (mask : Byte)
  /-- KEY_RELEASE (R116). -/
  | keyRelease
  /-- JOY_SET (R117). -/
  | joySet (mask : Byte)
deriving DecidableEq, Repr

/-- Why a word is no request (R76), by the names of R123. -/
inductive DecodeError where
  /-- `OP` is 0x0 or 0xF. -/
  | reservedOp
  /-- A `SUB` value that the format of the `OP` does not list. -/
  | reservedSub
  /-- A must-be-zero field that is not zero. -/
  | nonZeroField
  /-- RESET with `SUB` 3 to 15. -/
  | invalidResetLevel
deriving DecidableEq, Repr

end Sys2Proof
end

