-- ==== Sys2Proof/Decode.lean ====
section
/-! DEFINITION. The request word of R70 and R71: its decoder, total and rejecting by name (R76), its encoder, and
the opcode table's match and mask of each row. -/

namespace Sys2Proof

/-- Bits 47:44 of a request word (R70). -/
def opOf (w : Request) : BitVec 4 := w.extractLsb' 44 4

/-- Bits 43:40 of a request word (R70). -/
def subOf (w : Request) : BitVec 4 := w.extractLsb' 40 4

/-- Bits 39:32 of a request word (R70). -/
def dtOf (w : Request) : Byte := w.extractLsb' 32 8

/-- Bits 31:16 of a request word (R70). -/
def aOf (w : Request) : BitVec 16 := w.extractLsb' 16 16

/-- Bits 15:0 of a request word (R70). -/
def dOf (w : Request) : BitVec 16 := w.extractLsb' 0 16

/-- The five fields of R70 laid out in a request word. -/
def pack (op sub : BitVec 4) (dt : Byte) (a d : BitVec 16) : Request :=
  (op ++ sub ++ dt ++ a ++ d : BitVec (4 + 4 + 8 + 16 + 16))

/-- `N`, bits 31:0 of a request word, which overlays `A` and `D` (R70). -/
def nOf (a d : BitVec 16) : BitVec 32 := (a ++ d : BitVec (16 + 16))

/-- Bits 31:16 of a 32-bit value: the `A` field of formats N and B (R70). -/
def nHigh (n : BitVec 32) : BitVec 16 := n.extractLsb' 16 16

/-- Bits 15:0 of a 32-bit value: the `D` field of formats N and B (R70). -/
def nLow (n : BitVec 32) : BitVec 16 := n.extractLsb' 0 16

/-- `D[7:0]` (R74). -/
def dataOf (d : BitVec 16) : Byte := d.extractLsb' 0 8

/-- `D[15:8]`, must-be-zero in formats W, Q and K (R71). -/
def dataHigh (d : BitVec 16) : Byte := d.extractLsb' 8 8

/-- R76: a `SUB` the format does not list is refused, and then a must-be-zero field that is not zero
(the order is assumption 11). -/
def checked (subOk fieldsZero : Bool) (i : Instr) : Except DecodeError Instr :=
  if subOk then if fieldsZero then .ok i else .error .nonZeroField else .error .reservedSub

/-- R75, R76: the transaction of the five fields of a request word, or the reason why they are none. -/
def decodeFields (op sub : BitVec 4) (dt : Byte) (a d : BitVec 16) : Except DecodeError Instr :=
  let isFetch : Bool := decide (sub = 1)
  let sub0 : Bool := decide (sub = 0)
  let dt0 : Bool := decide (dt = 0)
  let a0 : Bool := decide (a = 0)
  let d0 : Bool := decide (d = 0)
  let dHigh0 : Bool := decide (dataHigh d = 0)
  if op = 0x1 then checked (sub0 || isFetch) d0 (.memRd isFetch dt a)
  else if op = 0x2 then checked sub0 dHigh0 (.memWr dt a (dataOf d))
  else if op = 0x3 then checked (sub0 || isFetch) (dt0 && d0) (.memPeek isFetch a)
  else if op = 0x4 then checked sub0 d0 (.ioRd dt a)
  else if op = 0x5 then checked sub0 dHigh0 (.ioWr dt a (dataOf d))
  else if op = 0x6 then checked sub0 dt0 (.tick (nOf a d))
  else if op = 0x7 then checked sub0 (dt0 && a0 && d0) .intQuery
  else if op = 0x8 then checked sub0 (dt0 && a0 && d0) .intAck
  else if op = 0x9 then checked sub0 (dt0 && a0 && d0) .intFin
  else if op = 0xA then
    if sub = 0 then checked true (dt0 && a0 && d0) .resetPowerOn
    else if sub = 1 then checked true (dt0 && a0 && d0) .resetCold
    else if sub = 2 then checked true (dt0 && a0 && d0) .resetWarm
    else .error .invalidResetLevel
  else if op = 0xB then checked sub0 dt0 (.speed (nOf a d))
  else if op = 0xC then checked sub0 dt0 (.vidPix a d)
  else if op = 0xD then checked sub0 dt0 (.vidBorder (nOf a d))
  else if op = 0xE then
    if sub = 0 then checked true (dt0 && dHigh0) (.keySet a (dataOf d))
    else if sub = 1 then checked true (dt0 && a0 && d0) .keyRelease
    else if sub = 2 then checked true (dt0 && a0 && dHigh0) (.joySet (dataOf d))
    else .error .reservedSub
  else .error .reservedOp

/-- R75, R76: the transaction of a request word, or the reason why it is none. -/
def decode (w : Request) : Except DecodeError Instr := decodeFields (opOf w) (subOf w) (dtOf w) (aOf w) (dOf w)

/-- `SUB` of format M: bit 0 is `isFetch` (R71). -/
def fetchSub (isFetch : Bool) : BitVec 4 := if isFetch then 1 else 0

/-- R71: the request word of a transaction. -/
def encode : Instr → Request
  | .memRd isFetch dt addr => pack 0x1 (fetchSub isFetch) dt addr 0
  | .memWr dt addr data => pack 0x2 0 dt addr (data.setWidth 16)
  | .memPeek isFetch addr => pack 0x3 (fetchSub isFetch) 0 addr 0
  | .ioRd dt portAddr => pack 0x4 0 dt portAddr 0
  | .ioWr dt portAddr data => pack 0x5 0 dt portAddr (data.setWidth 16)
  | .tick n => pack 0x6 0 0 (nHigh n) (nLow n)
  | .intQuery => pack 0x7 0 0 0 0
  | .intAck => pack 0x8 0 0 0 0
  | .intFin => pack 0x9 0 0 0 0
  | .resetPowerOn => pack 0xA 0 0 0 0
  | .resetCold => pack 0xA 1 0 0 0
  | .resetWarm => pack 0xA 2 0 0 0
  | .speed khz => pack 0xB 0 0 (nHigh khz) (nLow khz)
  | .vidPix x y => pack 0xC 0 0 x y
  | .vidBorder line => pack 0xD 0 0 (nHigh line) (nLow line)
  | .keySet row mask => pack 0xE 0 0 row (mask.setWidth 16)
  | .keyRelease => pack 0xE 1 0 0 0
  | .joySet mask => pack 0xE 2 0 0 (mask.setWidth 16)

/-- The `match` entry of a transaction's row in spec/opcode_table.json. -/
def tableMatch : Instr → Request
  | .memRd _ _ _ => 0x100000000000
  | .memWr _ _ _ => 0x200000000000
  | .memPeek _ _ => 0x300000000000
  | .ioRd _ _ => 0x400000000000
  | .ioWr _ _ _ => 0x500000000000
  | .tick _ => 0x600000000000
  | .intQuery => 0x700000000000
  | .intAck => 0x800000000000
  | .intFin => 0x900000000000
  | .resetPowerOn => 0xA00000000000
  | .resetCold => 0xA10000000000
  | .resetWarm => 0xA20000000000
  | .speed _ => 0xB00000000000
  | .vidPix _ _ => 0xC00000000000
  | .vidBorder _ => 0xD00000000000
  | .keySet _ _ => 0xE00000000000
  | .keyRelease => 0xE10000000000
  | .joySet _ => 0xE20000000000

/-- The `mask` entry of a transaction's row in spec/opcode_table.json. -/
def tableMask : Instr → Request
  | .memRd _ _ _ => 0xFE000000FFFF
  | .memWr _ _ _ => 0xFF000000FF00
  | .memPeek _ _ => 0xFEFF0000FFFF
  | .ioRd _ _ => 0xFF000000FFFF
  | .ioWr _ _ _ => 0xFF000000FF00
  | .tick _ => 0xFFFF00000000
  | .intQuery => 0xFFFFFFFFFFFF
  | .intAck => 0xFFFFFFFFFFFF
  | .intFin => 0xFFFFFFFFFFFF
  | .resetPowerOn => 0xFFFFFFFFFFFF
  | .resetCold => 0xFFFFFFFFFFFF
  | .resetWarm => 0xFFFFFFFFFFFF
  | .speed _ => 0xFFFF00000000
  | .vidPix _ _ => 0xFFFF00000000
  | .vidBorder _ => 0xFFFF00000000
  | .keySet _ _ => 0xFFFF0000FF00
  | .keyRelease => 0xFFFFFFFFFFFF
  | .joySet _ => 0xFFFFFFFFFF00

/-- One transaction of each row of the opcode table, all operands zero, in the table's order. -/
def tableRows : List Instr :=
  [.memRd false 0 0, .memWr 0 0 0, .memPeek false 0, .ioRd 0 0, .ioWr 0 0 0, .tick 0, .intQuery, .intAck,
   .intFin, .resetPowerOn, .resetCold, .resetWarm, .speed 0, .vidPix 0 0, .vidBorder 0, .keySet 0 0,
   .keyRelease, .joySet 0]

/-- Whether a word is an instance of a row of the opcode table: its masked bits are the row's match. -/
def inTable (w : Request) : Bool := tableRows.any fun i => decide (w &&& tableMask i = tableMatch i)

/-- What the decoder reads from a word given by the low `nbits` bits of `w`, every bit above them zero. A request
is one 48-bit word, so nothing of it may lie above bit 47. -/
def decodeTableWord (nbits w : Nat) : Option Instr :=
  if w % 2 ^ nbits < 2 ^ 48 then
    match decode (BitVec.ofNat 48 (w % 2 ^ nbits)) with
    | .ok i => some i
    | .error _ => none
  else none

end Sys2Proof
end

