-- ==== Sys2Proof/Config.lean ====
section
/-! DEFINITION. The configuration record `Cfg` of R8 as plain data, the types its fields range over, and the
free values: the opaque constants that stand for the spec's draws (R13) and for the opaque peripheral chips (R127).

R8's function-valued fields stand here as data with an evaluator (Machine/ConfigOps.lean): `BitExpr` gives every
Boolean function of finitely many bits, `NatExpr` every function of `(y, xb)` on a finite grid, and a list of
pairs every function of a port, so no configuration of R8 is shut out (assumption 10). -/

namespace Sys2Proof

/-- The name of a peripheral chip (R8 `CHIPS`). -/
abbrev ChipId := Nat

/-- A ROM or disk image: its bytes from offset 0 (R38, R39). -/
abbrev Image := List Byte

/-- What the loader and the host supply at one PowerOn: an image or none for each ROM region in order, and the disk
image or none (R38, R39). A region that the list does not reach is supplied none. -/
structure Supply where
  roms : List (Option Image)
  disk : Option Image
deriving DecidableEq, Repr

/-- The state of one peripheral chip (R42). The block sees of it only whether it is pending (R125); `inner`
stands for all the rest, which the source calls opaque (assumption 6). -/
structure ChipState where
  pending : Bool
  inner   : Nat
deriving DecidableEq, Repr, Inhabited

/-- The three reset levels (R118, R119, R120). -/
inductive ResetLevel where
  | powerOn
  | cold
  | warm
deriving DecidableEq, Repr

/-- BankState: the five fields of R18 to R22. -/
structure Bank where
  lowerRam : Bool
  overlay  : Bool
  extWin   : Bool
  negA15   : Bool
  page     : BitVec 4
deriving DecidableEq, Repr

/-- The regions an address resolves to (R13, R49 to R53). `openBus` is the spec's `OPEN`. -/
inductive Region where
  | ext
  | disk
  | rom (i : Nat)
  | vram
  | ram
  | openBus
deriving DecidableEq, Repr

/-- An interrupt source (R124). -/
inductive Source where
  | video
  | chip (c : ChipId)
deriving DecidableEq, Repr

/-- What a port is decoded to (R85). -/
inductive Handler where
  | periph (c : ChipId) (k : Nat)
  | bankctl (j : Nat)
  | border
  | joystick
  | keyboard (k : Nat)
  | unmapped
deriving DecidableEq, Repr

/-- A Boolean function of the bits named by `α`. -/
inductive BitExpr (α : Type) where
  | lit (b : Bool)
  | atom (a : α)
  | not (e : BitExpr α)
  | and (e f : BitExpr α)
  | or (e f : BitExpr α)
  | xor (e f : BitExpr α)
deriving DecidableEq, Repr

/-- A natural-number function of the visible row `y` and the byte column `xb`. -/
inductive NatExpr where
  | lit (n : Nat)
  | y
  | xb
  | add (a b : NatExpr)
  | mul (a b : NatExpr)
  | div (a b : NatExpr)
  | mod (a b : NatExpr)
  | ifLt (a b t e : NatExpr)
deriving DecidableEq, Repr

/-- The bits a bank-control decode may read: bit `i` of the value written, and the flags as they are (R88). -/
inductive BankAtom where
  | value (i : Nat)
  | oldLowerRam
  | oldOverlay
  | oldExtWin
  | oldNegA15
  | oldPage (i : Nat)
deriving DecidableEq, Repr

/-- What one bank-control register's write makes of each flag (R88); `page` is least significant bit first. -/
structure BankLayout where
  lowerRam : BitExpr BankAtom
  overlay  : BitExpr BankAtom
  extWin   : BitExpr BankAtom
  negA15   : BitExpr BankAtom
  page     : List (BitExpr BankAtom)
deriving DecidableEq, Repr

/-- What `CONT_MEM(addr, region, isFetch)` may read (R8). -/
inductive MemAtom where
  | isFetch
  | inRegion (r : Region)
  | addrBit (i : Nat)
  | addrBelow (n : Nat)
deriving DecidableEq, Repr

/-- A bit of the input matrix: column bit `i` of row `r` (R40). -/
structure KbdAtom where
  row : Nat
  bit : Nat
deriving DecidableEq, Repr

/-- How the negate-A15 flag combines with address bit 15 (R8 `A15_OP`, R55). -/
inductive A15Op where
  | xor
  | or
deriving DecidableEq, Repr

/-- What a blink boundary is (R8 `BLINK_UNIT`). -/
inductive BlinkUnit where
  | line
  | frame
deriving DecidableEq, Repr

/-- Which store the raster reads (R8 `VIDEO_SOURCE`, R107). -/
inductive VideoSource where
  | vram
  | ram (base : Addr)
deriving DecidableEq, Repr

/-- A ROM region (R8 `RomCfg`). -/
structure RomCfg where
  name       : String
  base       : Nat
  len        : Nat
  lowerGated : Bool
  defaultImg : Option Image
deriving DecidableEq, Repr

/-- The configuration record of R8. `lineRateNum / lineRateDen` is `LINE_RATE_KHZ`. A port that `portMap` does
not list is UNMAPPED, the first entry of a port is its handler, a bank-control register that `bankctl` does not list leaves the bank as it is (R88), a port
in `contPort` is contended and any other is not. Bit lists are least significant bit first. -/
structure Cfg where
  ramBase : Nat
  ramLen : Nat
  vramBase : Nat
  vramLen : Nat
  roms : List RomCfg
  diskBase : Nat
  diskLen : Nat
  diskWritable : Bool
  extBase : Nat
  extLen : Nat
  extSize : Nat
  a15Op : A15Op
  portMap : List (Byte × Handler)
  bankctl : List (Nat × BankLayout)
  kbdRows : Nat
  kbdRead : List (Nat × List (BitExpr KbdAtom))
  contMem : BitExpr MemAtom
  contPort : List Byte
  lwc : Nat
  winStart : Nat
  winEnd : Nat
  period : Nat
  contOffset : Nat
  lineRateNum : Nat
  lineRateDen : Nat
  clockKHzInit : Nat
  totalLines : Nat
  firstVisible : Nat
  fbW : Nat
  fbH : Nat
  blinkPeriod : Nat
  blinkUnit : BlinkUnit
  videoSource : VideoSource
  pixAddr : NatExpr
  attrAddr : NatExpr
  attrFg : List (BitExpr Nat)
  attrBg : List (BitExpr Nat)
  attrBlink : BitExpr Nat
  chips : List ChipId
  sourceOrder : List Source
  videoIrqByte : Byte
deriving DecidableEq, Repr

/-- What a draw is for. One free constant applied to the place and to a counter gives every draw of the spec. -/
inductive DrawSite where
  /-- `S.bank.negA15` after a reset (R21). -/
  | negA15
  /-- `S.bank.page` after a reset (R22). -/
  | page
  /-- `S.border` after a reset (R24). -/
  | border
  /-- An entry of the frame buffer after PowerOn or ColdReset (R34). -/
  | fb (y x : Nat)
  /-- A byte of the primary RAM after PowerOn (R35). -/
  | ram (a : Nat)
  /-- A byte of the video RAM after PowerOn (R36). -/
  | vram (k : Nat)
  /-- A byte of the extended RAM after PowerOn (R37). -/
  | ext (k : Nat)
  /-- A read of a bank-control or border port (R89). -/
  | readBack (port : Byte)
deriving DecidableEq, Repr

/-- FREE VALUE: the value of the `n`-th draw for a place (R13 `draw()`). Nothing constrains it (assumption 5). -/
opaque Config.draw : DrawSite → Nat → Byte

/-- FREE VALUE: a chip's constructed state (R144). -/
opaque Config.chipInit : ChipId → ChipState

/-- FREE VALUE: the byte of `chipRead(c, k)` (R127). The `Option` is the matrix snapshot that this byte may depend on
where the configuration reads the keyboard through a chip (R92, assumption 14). -/
opaque Config.chipReadByte : ChipId → Nat → Option (List Byte) → ChipState → Byte

/-- FREE VALUE: the chip's state after `chipRead(c, k)`. By law (a) of R127 it depends on the chip's state alone. -/
opaque Config.chipReadNext : ChipId → Nat → ChipState → ChipState

/-- FREE VALUE: `chipWrite(c, k, v)` (R127). -/
opaque Config.chipWrite : ChipId → Nat → Byte → ChipState → ChipState

/-- FREE VALUE: `chipTick(c, n)` for `n > 0` (R127). -/
opaque Config.chipTick : ChipId → Nat → ChipState → ChipState

/-- FREE VALUE: `chipReset(c, level)` (R127). -/
opaque Config.chipReset : ChipId → ResetLevel → ChipState → ChipState

/-- FREE VALUE: `AcceptSrc(c)` of a chip (R125, R127). -/
opaque Config.chipAccept : ChipId → ChipState → Byte × ChipState

/-- FREE VALUE: `FinishSrc(c)` of a chip (R125, R127). -/
opaque Config.chipFinish : ChipId → ChipState → ChipState

end Sys2Proof
end

