-- ==== Sys2Proof/Machine/ConfigOps.lean ====
section
/-! DEFINITION. What a configuration's fields mean: the evaluators of its data, the exact rounding of R14, the
clocks-per-line of R102, and the values that a reset puts into the bank and the image slots. -/

namespace Sys2Proof

/-- R14: exact `round(n/d)`, half up. -/
def roundDiv (n d : Nat) : Nat := (2 * n + d) / (2 * d)

/-- The value of a Boolean expression under an assignment of its atoms. -/
def BitExpr.eval {α : Type} (ρ : α → Bool) : BitExpr α → Bool
  | .lit b => b
  | .atom a => ρ a
  | .not e => !(e.eval ρ)
  | .and e f => e.eval ρ && f.eval ρ
  | .or e f => e.eval ρ || f.eval ρ
  | .xor e f => (e.eval ρ).xor (f.eval ρ)

/-- The number whose bits, least significant first, are the values of the expressions. -/
def evalBits {α : Type} (ρ : α → Bool) : List (BitExpr α) → Nat
  | [] => 0
  | e :: es => (if e.eval ρ then 1 else 0) + 2 * evalBits ρ es

/-- The value of an address expression at row `y` and byte column `xb`. -/
def NatExpr.eval (y xb : Nat) : NatExpr → Nat
  | .lit n => n
  | .y => y
  | .xb => xb
  | .add a b => a.eval y xb + b.eval y xb
  | .mul a b => a.eval y xb * b.eval y xb
  | .div a b => a.eval y xb / b.eval y xb
  | .mod a b => a.eval y xb % b.eval y xb
  | .ifLt a b t e => if a.eval y xb < b.eval y xb then t.eval y xb else e.eval y xb

/-- The entry of a list of pairs at a key: the first that has it. -/
def findKey {α β : Type} [DecidableEq α] : List (α × β) → α → Option β
  | [], _ => none
  | (k, v) :: rest, a => if k = a then some v else findKey rest a

/-- Whether `base <= a < base + len`. -/
def inRange (base len a : Nat) : Bool := decide (base ≤ a) && decide (a < base + len)

namespace Cfg

/-- R85: the handler of a port. -/
def handler (cfg : Cfg) (port : Byte) : Handler := (findKey cfg.portMap port).getD .unmapped

/-- The value of a bank atom for a value written and the bank as it is. -/
def bankAtom (v : Byte) (b : Bank) : BankAtom → Bool
  | .value i => v.getLsbD i
  | .oldLowerRam => b.lowerRam
  | .oldOverlay => b.overlay
  | .oldExtWin => b.extWin
  | .oldNegA15 => b.negA15
  | .oldPage i => b.page.getLsbD i

/-- R88: `BANKCTL_DECODE(j, v, b)`. It is a function of its three arguments and the configuration only. -/
def bankctlDecode (cfg : Cfg) (j : Nat) (v : Byte) (b : Bank) : Bank :=
  match findKey cfg.bankctl j with
  | none => b
  | some l =>
    { lowerRam := l.lowerRam.eval (bankAtom v b)
      overlay := l.overlay.eval (bankAtom v b)
      extWin := l.extWin.eval (bankAtom v b)
      negA15 := l.negA15.eval (bankAtom v b)
      page := BitVec.ofNat 4 (evalBits (bankAtom v b) l.page) }

/-- R92: `KBD_READ(k, matrix)`. A `k` the configuration does not list reads `0xFF` (assumption 10). -/
def readKeyboard (cfg : Cfg) (k : Nat) (matrix : List Byte) : Byte :=
  match findKey cfg.kbdRead k with
  | none => 0xFF
  | some bits => BitVec.ofNat 8 (evalBits (fun a => (matrix.getD a.row 0).getLsbD a.bit) bits)

/-- R8: `CONT_MEM(addr, region, isFetch)`. -/
def contendedMem (cfg : Cfg) (addr : Addr) (r : Region) (isFetch : Bool) : Bool :=
  cfg.contMem.eval fun
    | .isFetch => isFetch
    | .inRegion q => decide (r = q)
    | .addrBit i => addr.getLsbD i
    | .addrBelow n => decide (addr.toNat < n)

/-- R8: `CONT_PORT(port)`. -/
def contendedPort (cfg : Cfg) (port : Byte) : Bool := decide (port ∈ cfg.contPort)

/-- R108: `ATTR_FG`. -/
def fgColour (cfg : Cfg) (attr : Byte) : Byte := BitVec.ofNat 8 (evalBits (fun i => attr.getLsbD i) cfg.attrFg)

/-- R108: `ATTR_BG`. -/
def bgColour (cfg : Cfg) (attr : Byte) : Byte := BitVec.ofNat 8 (evalBits (fun i => attr.getLsbD i) cfg.attrBg)

/-- R108: `ATTR_BLINK`. -/
def blinkAttr (cfg : Cfg) (attr : Byte) : Bool := cfg.attrBlink.eval fun i => attr.getLsbD i

/-- R102: clocks-per-line of a clock of `k` kHz. -/
def cplOf (cfg : Cfg) (k : Nat) : Nat := roundDiv (k * cfg.lineRateDen) cfg.lineRateNum

/-- R96, R33: whether a line is in the visible band. -/
def inBand (cfg : Cfg) (line : Nat) : Bool := inRange cfg.firstVisible cfg.fbH line

/-- Whether some port's handler is KEYBOARD (R85, R92). Only a listed port can have one; an entry that an earlier one of
the same port hides is no port's handler. -/
def mapsKeyboard (cfg : Cfg) : Bool :=
  cfg.portMap.any fun e => match cfg.handler e.1 with
    | .keyboard _ => true
    | _ => false

/-- How many bytes the video store has (R9, R107). -/
def videoSize (cfg : Cfg) : Nat :=
  match cfg.videoSource with
  | .vram => cfg.vramLen
  | .ram _ => 65536

end Cfg

/-- R38: `LoadRom(i)` for every ROM region: the loader's image, else the region's built-in default, else none. -/
def loadRoms : List RomCfg → List (Option Image) → List (Option Image)
  | [], _ => []
  | r :: rs, [] => r.defaultImg :: loadRoms rs []
  | _ :: rs, some img :: ls => some img :: loadRoms rs ls
  | r :: rs, none :: ls => r.defaultImg :: loadRoms rs ls

/-- R38, R39, R142: what is supplied at the next PowerOn. With nothing listed no image is supplied (assumption 4). -/
def nextSupply : List Supply → Supply
  | [] => { roms := [], disk := none }
  | u :: _ => u

/-- What is left to be supplied after a PowerOn: the last entry stands for every later PowerOn (assumption 4). -/
def laterSupplies : List Supply → List Supply
  | _ :: v :: rest => v :: rest
  | l => l

/-- R39: a disk image of exactly `len` bytes: the excess of a longer image is never addressed, and past the end of a
shorter one every byte is the `0xFF` that reads there (93 I23, assumption 12). -/
def fitImage (len : Nat) (img : Image) : Image := img.take len ++ List.replicate (len - img.length) 0xFF

/-- R39: `LoadDisk()` with the image fitted to the overlay's length. -/
def loadDisk (len : Nat) (disk : Option Image) : Option Image := disk.map (fitImage len)

/-- R18 to R22: the bank after a reset, the `n`-th draw giving the two fields that the spec draws. -/
def resetBank (n : Nat) : Bank :=
  { lowerRam := false
    overlay := false
    extWin := false
    negA15 := (Config.draw .negA15 n).getLsbD 0
    page := (Config.draw .page n).setWidth 4 }

/-- R127 with its law (b): a tick of 0 cycles has no effect on a chip. -/
def chipTick (c : ChipId) (n : Nat) (st : ChipState) : ChipState :=
  if n = 0 then st else Config.chipTick c n st

end Sys2Proof
end

