-- ==== Sys2Proof/Machine/Example.lean ====
section
/-! DEFINITION. EX1, the spec's own example configuration (R11), and the images its loader supplies.
It is no claim about the real machine: State.reset is built from it and no meaning reads it (assumption 3). -/

namespace Sys2Proof.Config

/-- The bytes at offsets `k, k+1, …` of an image of `n` bytes more whose byte at offset `k` is `hi or (k mod 16)`. -/
def sawImage (hi : Byte) : Nat → Nat → Image
  | 0, _ => []
  | n + 1, k => (hi ||| BitVec.ofNat 8 (k % 16)) :: sawImage hi n (k + 1)

/-- R11: the loader's ROM0 image. -/
def ex1Rom0 : Image := sawImage 0xF0 0x2000 0

/-- R11: the disk image. -/
def ex1Disk : Image := sawImage 0xD0 0x0800 0

/-- R11: what is supplied at PowerOn. -/
def ex1Supply : Supply := { roms := [some ex1Rom0], disk := some ex1Disk }

/-- The timer/counter chip of EX1. -/
def ctc : ChipId := 0

/-- The parallel-I/O chip of EX1. -/
def pio : ChipId := 1

/-- R88: the default bank-control layout, one register that sets all five fields at once. -/
def defaultLayout : BankLayout :=
  { lowerRam := .atom (.value 0)
    overlay := .atom (.value 1)
    extWin := .atom (.value 2)
    negA15 := .atom (.value 3)
    page := [.atom (.value 4), .atom (.value 5), .atom (.value 6), .atom (.value 7)] }

/-- Bit `i` of the bitwise or of rows `0 .. n-1` of the matrix. -/
def orRows (i : Nat) : Nat → BitExpr KbdAtom
  | 0 => .lit false
  | n + 1 => .or (orRows i n) (.atom ⟨n, i⟩)

/-- R11: EX1. -/
def ex1 : Cfg :=
  { ramBase := 0x0000
    ramLen := 0xC000
    vramBase := 0xC000
    vramLen := 0x4000
    roms := [{ name := "ROM0", base := 0x0000, len := 0x2000, lowerGated := true, defaultImg := none }]
    diskBase := 0x0000
    diskLen := 0x0800
    diskWritable := false
    extBase := 0x8000
    extLen := 0x4000
    extSize := 0x100000
    a15Op := .xor
    portMap :=
      [(0x00, .periph ctc 0), (0x01, .periph ctc 1), (0x02, .periph ctc 2), (0x03, .periph ctc 3),
       (0x04, .periph pio 0), (0x05, .periph pio 1), (0x06, .periph pio 2), (0x07, .periph pio 3),
       (0x80, .bankctl 0), (0x81, .border), (0x82, .joystick), (0x83, .keyboard 0)]
    bankctl := [(0, defaultLayout)]
    kbdRows := 8
    kbdRead := [(0, [orRows 0 8, orRows 1 8, orRows 2 8, orRows 3 8, orRows 4 8, orRows 5 8, orRows 6 8, orRows 7 8])]
    contMem := .atom (.inRegion .vram)
    contPort := [0x81]
    lwc := 224
    winStart := 0
    winEnd := 128
    period := 8
    contOffset := 0
    lineRateNum := 125
    lineRateDen := 8
    clockKHzInit := 3500
    totalLines := 312
    firstVisible := 64
    fbW := 256
    fbH := 192
    blinkPeriod := 16
    blinkUnit := .line
    videoSource := .vram
    pixAddr := .add (.mul (.lit 32) .y) .xb
    attrAddr := .add (.lit 0x1800) (.add (.mul (.lit 32) .y) .xb)
    attrFg := [.atom 0, .atom 1, .atom 2]
    attrBg := [.atom 3, .atom 4, .atom 5]
    attrBlink := .atom 7
    chips := [ctc, pio]
    sourceOrder := [.video, .chip ctc, .chip pio]
    videoIrqByte := 0x20 }

end Sys2Proof.Config
end

