-- ==== Sys2Proof/Machine/State.lean ====
section
/-! DEFINITION. The state of the block (R16 to R44), its response (R72), the reasons a step can stop, and the
machine right after reset (R144). -/

namespace Sys2Proof.Machine

open Sys2Proof

/-- A backing store: the bytes written since its contents were last drawn, by offset, in rising order. An offset it
does not list holds the byte that PowerOn drew for it (assumption 7). -/
abbrev Memory := List Host.Cell

/-- The response of a transaction (R72, R73). -/
structure Response where
  data : Byte
  wait : Byte
  irq  : Bool
deriving DecidableEq, Repr

/-- The block. Every field but the last group is state that the spec names. -/
structure State where
  /-- The configuration (R8). No transaction writes it (assumption 3). -/
  cfg : Cfg
  /-- BankState (R18 to R22). -/
  bank : Bank
  /-- The current border colour (R24). -/
  border : Byte
  /-- The scanline counter (R25). -/
  line : Nat
  /-- The intra-line clock-tick accumulator (R26). -/
  acc : Nat
  /-- The CPU clock in kHz (R27). -/
  clockKHz : Nat
  /-- Clocks per line (R28). -/
  cpl : Nat
  /-- The blink-phase counter (R29). -/
  blinkCnt : Nat
  /-- The global blink flag (R30). -/
  blinkFlag : Bool
  /-- The per-line border table (R31). -/
  borderTab : List Byte
  /-- The frame-interrupt latch (R32). -/
  latch : Bool
  /-- The colour frame buffer by rows (R34): `none` for a row that holds the draws of the last PowerOn or
  ColdReset (assumption 8). -/
  fb : List (Option (List Byte))
  /-- The primary static RAM, by CPU address (R35). -/
  ram : Memory
  /-- The video RAM (R36). -/
  vram : Memory
  /-- The extended RAM (R37). -/
  ext : Memory
  /-- The ROM images (R38). -/
  romImg : List (Option Image)
  /-- The disk-image overlay (R39), of `DISK_LEN` bytes (assumption 12). -/
  diskImg : Option Image
  /-- The input matrix, one byte a row (R40). -/
  matrix : List Byte
  /-- The joystick bitmask (R41). -/
  joy : Byte
  /-- The peripheral chips (R42). -/
  chips : List (ChipId × ChipState)
  /-- The response of the last transaction (R72); none before the first (assumption 2). -/
  response : Option Response
  /-- The requests that the host has issued and the block has not performed, first first (R65, assumption 1). -/
  requests : List Request
  /-- What the loader and the host will supply at each coming PowerOn, the next first (R38, R39, R142, assumption 4). -/
  supplies : List Supply
  /-- The MODEL's own: how many draws have been made (assumption 5). -/
  draws : Nat
  /-- The MODEL's own: the draw that gave RAM, VRAM and extended RAM their contents (assumption 5). -/
  powerDraw : Nat
  /-- The MODEL's own: the draw that gave the frame buffer its contents (assumption 5). -/
  fbDraw : Nat
deriving DecidableEq, Repr

/-- The reasons for a fault. There are none: no transaction faults and none hangs (R122). -/
inductive Fault where
deriving DecidableEq, Repr

/-- The reasons for a refusal: the closed list of R123, each safe (a refused run proves nothing, assumption 9). -/
inductive Refusal where
  /-- An instruction without a meaning yet: raised by an arm of exec only; safe. No arm raises it. -/
  | notModelled (mnemonic : String)
  /-- `OP` 0x0 or 0xF: raised by the decoder (R76); safe. -/
  | reservedOp
  /-- A `SUB` value the format does not list: raised by the decoder (R76); safe. -/
  | reservedSub
  /-- A must-be-zero field that is not zero: raised by the decoder (R76); safe. -/
  | nonZeroField
  /-- RESET with `SUB` 3 to 15: raised by the decoder (R76); safe. -/
  | invalidResetLevel
  /-- SPEED with `CPL(khz) = 0`: raised by SPEED (R103); safe. -/
  | speedTooLow
  /-- VID_PIX outside the frame buffer: raised by VID_PIX (R109); safe. -/
  | pixelOutOfRange
  /-- KEY_SET with a row the matrix does not have: raised by KEY_SET (R115); safe. -/
  | rowOutOfRange
  /-- A configuration that fails R9: raised by `build` (R144); safe. -/
  | configIllFormed
deriving DecidableEq, Repr

/-- R144: the first state of an instance: RESET.POWERON applied to a constructed instance of configuration `cfg`,
with the images supplied at this PowerOn and at the later ones. -/
def State.construct (cfg : Cfg) (supplies : List Supply) : State :=
  { cfg := cfg
    bank := resetBank 0
    border := Config.draw .border 0
    line := 0
    acc := 0
    clockKHz := cfg.clockKHzInit
    cpl := cfg.cplOf cfg.clockKHzInit
    blinkCnt := 0
    blinkFlag := false
    borderTab := List.replicate cfg.totalLines 0
    latch := false
    fb := List.replicate cfg.fbH none
    ram := []
    vram := []
    ext := []
    romImg := loadRoms cfg.roms (nextSupply supplies).roms
    diskImg := loadDisk cfg.diskLen (nextSupply supplies).disk
    matrix := List.replicate cfg.kbdRows 0
    joy := 0
    chips := cfg.chips.map fun c => (c, Config.chipReset c .powerOn (Config.chipInit c))
    response := none
    requests := []
    supplies := laterSupplies supplies
    draws := 1
    powerDraw := 0
    fbDraw := 0 }

/-- The machine right after reset (R144), of the example configuration EX1 (R11, assumption 3). -/
def State.reset : State := State.construct Config.ex1 [Config.ex1Supply]

end Sys2Proof.Machine
end

