-- ==== Sys2Proof/Machine/Flags.lean ====
section
/-! DEFINITION. What the block computes from its status: pending sources, the aggregated interrupt request and the
selected source (R124 to R130), the raster phase (R33), and the response word (R72, R73). -/

namespace Sys2Proof.Machine

open Sys2Proof

/-- The state of chip `c` (R42). A name that is no chip of the instance reads as one that is never pending. -/
def chipState (chips : List (ChipId × ChipState)) (c : ChipId) : ChipState :=
  (findKey chips c).getD { pending := false, inner := 0 }

/-- R125, R126: `Pending(s)`. -/
def pending (s : State) : Source → Bool
  | .video => s.latch
  | .chip c => (chipState s.chips c).pending

/-- R128: the aggregated interrupt request, a level. -/
def irqLevel (s : State) : Bool := s.cfg.sourceOrder.any (pending s)

/-- R129: the first pending source in registration order. -/
def select (s : State) : Option Source := s.cfg.sourceOrder.find? (pending s)

/-- R33: the raster state machine, a function of the line counter. `endOfFrame` is the step that ends the last
line and not a state, so it stands in `lineEnd`. -/
def rasterVisible (s : State) : Bool := s.cfg.inBand s.line

/-- R73: the response word: zeros, `IRQ`, `WAIT`, `DATA`. -/
def responseWord (r : Response) : BitVec 32 :=
  (0#15 ++ BitVec.ofBool r.irq ++ r.wait ++ r.data : BitVec (15 + 1 + 8 + 8))

/-- R73: `respond(data, wait)`, the interrupt request evaluated on the state after the transaction. -/
def respond (s : State) (data : Byte) (wait : Nat) : Host.Outcome State Fault Refusal :=
  .next { s with response := some { data := data, wait := BitVec.ofNat 8 wait, irq := irqLevel s } }

end Sys2Proof.Machine
end

