-- ==== Sys2Proof/Machine/Operands.lean ====
section
/-! DEFINITION. Operand assembly (R74): what each transaction makes of its request fields. -/

namespace Sys2Proof.Machine

open Sys2Proof

/-- R74: `port := A[7:0]`; bits 15 to 8 of the port address take no part (R85). -/
def portOf (portAddr : Addr) : Byte := portAddr.extractLsb' 0 8

/-- R110: the border-table entry of a signed line, its absolute value taken on integers. -/
def borderIndex (cfg : Cfg) (line : BitVec 32) : Nat := line.toInt.natAbs % cfg.totalLines

end Sys2Proof.Machine
end

