-- ==== Sys2Proof/Machine/Ops.lean ====
section
/-! DEFINITION. The named operations of the block over its stores, its chips, its raster and its reset.
There is no taking of an exception: the block raises none (R122). Its part in interrupt entry is `acceptSource`,
its part in the return `finishSource` (R133, R134). -/

namespace Sys2Proof.Machine

open Sys2Proof

/-! ### Backing stores -/

/-- The addresses of a memory rise strictly. -/
def Memory.wf : Memory → Bool
  | [] => true
  | [_] => true
  | c :: d :: m => decide (c.1 < d.1) && Memory.wf (d :: m)

/-- The byte a memory lists at an offset. What an unlisted offset reads as is `none`: it holds a draw. -/
def Memory.read : Memory → Nat → Option Byte
  | [], _ => none
  | (b, v) :: m, a => if b = a then some v else Memory.read m a

/-- The memory with one byte written. -/
def Memory.write : Memory → Nat → Byte → Memory
  | [], a, v => [(a, v)]
  | (b, w) :: m, a, v =>
    if a < b then (a, v) :: (b, w) :: m
    else if a = b then (a, v) :: m
    else (b, w) :: Memory.write m a v

/-- R35: the RAM byte at an address: the last written, or the one PowerOn drew. -/
def ramByte (s : State) (a : Nat) : Byte := (Memory.read s.ram a).getD (Config.draw (.ram a) s.powerDraw)

/-- R36: the video RAM byte at an offset. -/
def vramByte (s : State) (k : Nat) : Byte := (Memory.read s.vram k).getD (Config.draw (.vram k) s.powerDraw)

/-- R37: the extended RAM byte at an offset. -/
def extByte (s : State) (k : Nat) : Byte := (Memory.read s.ext k).getD (Config.draw (.ext k) s.powerDraw)

/-- R58: the byte of an image at an offset; an absent image and an offset past the end read as open bus. -/
def imageByte (img : Option Image) (off : Nat) : Byte :=
  match img with
  | none => 0xFF
  | some bytes => bytes.getD off 0xFF

/-- R34: the frame-buffer entry of column `x` of row `y`. -/
def fbPixel (s : State) (y x : Nat) : Byte :=
  match s.fb.getD y none with
  | none => Config.draw (.fb y x) s.fbDraw
  | some row => row.getD x 0

/-! ### Bank resolution -/

/-- R51: whether a ROM region claims an address. -/
def romClaims (r : RomCfg) (lowerRam : Bool) (a : Nat) : Bool :=
  inRange r.base r.len a && !(r.lowerGated && lowerRam)

/-- R54: the first ROM region of the list that claims the address, and the offset; `i` is the head's index. -/
def findRom (lowerRam : Bool) (a : Nat) : List RomCfg → Nat → Option (Nat × Nat)
  | [], _ => none
  | r :: rs, i => if romClaims r lowerRam a then some (i, a - r.base) else findRom lowerRam a rs (i + 1)

/-- R55: the low 16 bits of the extended-RAM offset. -/
def extLow16 (op : A15Op) (negA15 : Bool) (addr : Addr) : Addr :=
  let flip : Addr := if negA15 then 0x8000 else 0
  match op with
  | .xor => addr ^^^ flip
  | .or => addr ||| flip

/-- R55: the extended-RAM offset of an address. -/
def extOffset (cfg : Cfg) (bank : Bank) (addr : Addr) : Nat :=
  bank.page.toNat * 0x10000 + (extLow16 cfg.a15Op bank.negA15 addr).toNat

/-- R54: the address decoder. It reads the bank and the configuration only. -/
def resolve (cfg : Cfg) (bank : Bank) (addr : Addr) : Region × Nat :=
  let a := addr.toNat
  if bank.extWin && inRange cfg.extBase cfg.extLen a then
    if extOffset cfg bank addr < cfg.extSize then (.ext, extOffset cfg bank addr) else (.openBus, 0)
  else if bank.overlay && inRange cfg.diskBase cfg.diskLen a then (.disk, a - cfg.diskBase)
  else match findRom bank.lowerRam a cfg.roms 0 with
    | some (i, off) => (.rom i, off)
    | none =>
      if inRange cfg.vramBase cfg.vramLen a then (.vram, a - cfg.vramBase)
      else if inRange cfg.ramBase cfg.ramLen a then (.ram, a)
      else (.openBus, 0)

/-- R58: `BackRead(region, off)`. -/
def backRead (s : State) : Region → Nat → Byte
  | .ext, off => extByte s off
  | .disk, off => imageByte s.diskImg off
  | .rom i, off => imageByte (s.romImg.getD i none) off
  | .vram, off => vramByte s off
  | .ram, off => ramByte s off
  | .openBus, _ => 0xFF

/-- R59: `BackWrite(region, off, v)`. A loaded disk image has `DISK_LEN` bytes (R39), so every offset that an address
resolves to is one of them. -/
def backWrite (s : State) (r : Region) (off : Nat) (v : Byte) : State :=
  match r with
  | .ext => { s with ext := Memory.write s.ext off v }
  | .disk => if s.cfg.diskWritable then { s with diskImg := s.diskImg.map fun img => img.set off v } else s
  | .rom _ => s
  | .vram => { s with vram := Memory.write s.vram off v }
  | .ram => { s with ram := Memory.write s.ram off v }
  | .openBus => s

/-- R13: `MemRead(a, 1)`. -/
def memRead (s : State) (addr : Addr) : Byte :=
  let t := resolve s.cfg s.bank addr
  backRead s t.1 t.2

/-- R13: `MemWrite(a, 1, v)`. -/
def memWrite (s : State) (addr : Addr) (v : Byte) : State :=
  let t := resolve s.cfg s.bank addr
  backWrite s t.1 t.2 v

/-! ### Wait states -/

/-- R94, R95: the contention phase of an access with diffTicks `dt`. -/
def contentionPhase (cfg : Cfg) (acc cpl : Nat) (dt : Byte) : Nat :=
  roundDiv ((acc + dt.toNat + cfg.contOffset) * cfg.lwc) cpl

/-- R96: the wait-state function. Its arguments are all it depends on (R98). -/
def waitCycles (cfg : Cfg) (line acc cpl : Nat) (contended : Bool) (dt : Byte) : Nat :=
  if contended && cfg.inBand line then
    let ph := contentionPhase cfg acc cpl dt
    if cfg.winStart ≤ ph ∧ ph < cfg.winEnd then cfg.period - ph % cfg.period else 0
  else 0

/-- R96: `Wait(c, dt)` in a state. -/
def waitFor (s : State) (contended : Bool) (dt : Byte) : Nat :=
  waitCycles s.cfg s.line s.acc s.cpl contended dt

/-- R81, R82: `Wait(CONT_MEM(addr, r, isFetch), dt)` with `r` the region the address resolves to. -/
def memWait (s : State) (addr : Addr) (isFetch : Bool) (dt : Byte) : Nat :=
  waitFor s (s.cfg.contendedMem addr (resolve s.cfg s.bank addr).1 isFetch) dt

/-- R86, R87: `Wait(CONT_PORT(port), dt)`. -/
def portWait (s : State) (port : Byte) (dt : Byte) : Nat := waitFor s (s.cfg.contendedPort port) dt

/-! ### Peripheral chips -/

/-- The chips with the state of chip `c` replaced. -/
def setChip (chips : List (ChipId × ChipState)) (c : ChipId) (st : ChipState) : List (ChipId × ChipState) :=
  chips.map fun e => if e.1 = c then (e.1, st) else e

/-- R92: the matrix snapshot that a chip read's byte may depend on, where no port's handler is KEYBOARD (assumption 14). -/
def chipSnapshot (s : State) : Option (List Byte) := if s.cfg.mapsKeyboard then none else some s.matrix

/-- R93, R127: `chipRead(c, k)`: the byte and the state with the chip's change. -/
def chipRead (s : State) (c : ChipId) (k : Nat) : Byte × State :=
  (Config.chipReadByte c k (chipSnapshot s) (chipState s.chips c),
    { s with chips := setChip s.chips c (Config.chipReadNext c k (chipState s.chips c)) })

/-- R93, R127: `chipWrite(c, k, v)`. -/
def chipWrite (s : State) (c : ChipId) (k : Nat) (v : Byte) : State :=
  { s with chips := setChip s.chips c (Config.chipWrite c k v (chipState s.chips c)) }

/-- R104, R127: `chipTick(c, n)` for every chip. -/
def tickChips (s : State) (n : Nat) : State :=
  { s with chips := s.chips.map fun e => (e.1, chipTick e.1 n e.2) }

/-- R118 to R120, R127: `chipReset(c, level)` for every chip. -/
def resetChips (s : State) (level : ResetLevel) : State :=
  { s with chips := s.chips.map fun e => (e.1, Config.chipReset e.1 level e.2) }

/-! ### Interrupt sources -/

/-- R125, R126: `AcceptSrc(s)`: the data-bus byte, and the state with the source's change. -/
def acceptSource (s : State) : Source → Byte × State
  | .video => (s.cfg.videoIrqByte, { s with latch := false })
  | .chip c =>
    let r := Config.chipAccept c (chipState s.chips c)
    (r.1, { s with chips := setChip s.chips c r.2 })

/-- R125, R126: `FinishSrc(s)`. -/
def finishSource (s : State) : Source → State
  | .video => s
  | .chip c => { s with chips := setChip s.chips c (Config.chipFinish c (chipState s.chips c)) }

/-! ### The raster -/

/-- R107: `VideoByte(k)`. -/
def videoByte (s : State) (k : Nat) : Byte :=
  match s.cfg.videoSource with
  | .vram => vramByte s k
  | .ram base => ramByte s ((base.toNat + k) % 65536)

/-- R108: the colour that decoding gives pixel `x` of row `y`: pixel `i` of byte column `xb` with `x = 8*xb + i`. -/
def decodePixel (s : State) (y x : Nat) : Byte :=
  let p := videoByte s (s.cfg.pixAddr.eval y (x / 8))
  let a := videoByte s (s.cfg.attrAddr.eval y (x / 8))
  let on := (p.getLsbD (7 - x % 8)).xor (s.blinkFlag && s.cfg.blinkAttr a)
  if on then s.cfg.fgColour a else s.cfg.bgColour a

/-- R108: `DecodeLine(y)`. -/
def decodeLine (s : State) (y : Nat) : State :=
  { s with fb := s.fb.set y (some ((List.range s.cfg.fbW).map (decodePixel s y))) }

/-- R106: `BlinkStep()`. -/
def blinkStep (s : State) : State :=
  if s.blinkCnt + 1 = s.cfg.blinkPeriod then { s with blinkCnt := 0, blinkFlag := !s.blinkFlag }
  else { s with blinkCnt := s.blinkCnt + 1 }

/-- R105: the part of a boundary that depends on the line it ends: decoding, and the border entry. -/
def recordLine (s : State) : State :=
  let s' := if s.cfg.inBand s.line then decodeLine s (s.line - s.cfg.firstVisible) else s
  { s' with borderTab := s'.borderTab.set s'.line s'.border }

/-- R105: the blink step of a boundary that ends a line. -/
def lineBlink (s : State) : State := if s.cfg.blinkUnit = .line then blinkStep s else s

/-- R105: the line counter's step, with End-of-frame. -/
def nextLine (s : State) : State :=
  if s.line + 1 = s.cfg.totalLines then
    let s' := { s with line := 0, latch := true }
    if s'.cfg.blinkUnit = .frame then blinkStep s' else s'
  else { s with line := s.line + 1 }

/-- R105: `LineEnd()`. -/
def lineEnd (s : State) : State := nextLine (lineBlink (recordLine s))

/-- `LineEnd()` a number of times. -/
def lineEnds : Nat → State → State
  | 0, s => s
  | k + 1, s => lineEnds k (lineEnd s)

/-- R104: the loop of TICK. It runs `(acc + n) div cpl` times, and each turn takes `cpl` off the accumulator;
`LineEnd` neither reads nor writes the accumulator or `cpl`. -/
def advanceRaster (s : State) (n : Nat) : State :=
  lineEnds ((s.acc + n) / s.cpl) { s with acc := (s.acc + n) % s.cpl }

/-! ### Reset -/

/-- R118 to R120: what every level does: the chips, the bank and the border register. -/
def resetPorts (s : State) (level : ResetLevel) : State :=
  let s' := resetChips s level
  { s' with bank := resetBank s.draws, border := Config.draw .border s.draws, draws := s.draws + 1 }

/-- R118, R119: what PowerOn and ColdReset do to the raster and the frame buffer; `n` is the reset's draw. -/
def resetRaster (s : State) (n : Nat) : State :=
  { s with
    line := 0, acc := 0, cpl := s.cfg.cplOf s.clockKHz, blinkCnt := 0, blinkFlag := false, latch := false
    borderTab := List.replicate s.cfg.totalLines 0
    fb := List.replicate s.cfg.fbH none, fbDraw := n }

/-- R118: what PowerOn alone does: the stores are drawn anew, the images that are supplied at this PowerOn are loaded;
`n` is the reset's draw. -/
def resetStores (s : State) (n : Nat) : State :=
  { s with
    ram := [], vram := [], ext := [], powerDraw := n
    romImg := loadRoms s.cfg.roms (nextSupply s.supplies).roms
    diskImg := loadDisk s.cfg.diskLen (nextSupply s.supplies).disk
    supplies := laterSupplies s.supplies }

/-! ### Requests -/

/-- The refusal of a word that is no request (R123). -/
def refusalOf : DecodeError → Refusal
  | .reservedOp => .reservedOp
  | .reservedSub => .reservedSub
  | .nonZeroField => .nonZeroField
  | .invalidResetLevel => .invalidResetLevel

/-- The state with a request placed before all that wait. -/
def placeRequest (s : State) (w : Request) : State := { s with requests := w :: s.requests }

end Sys2Proof.Machine
end

