-- ==== Sys2Proof/Machine/Input.lean ====
section
/-! DEFINITION. The input-matrix transactions: KEY_SET, KEY_RELEASE, JOY_SET (R115, R116, R117). -/

namespace Sys2Proof.Machine

open Sys2Proof

/-- R115: KEY_SET. A row the matrix does not have is refused. -/
def execKeySet (row : BitVec 16) (mask : Byte) (s : State) : Host.Outcome State Fault Refusal :=
  if s.cfg.kbdRows ≤ row.toNat then .refused .rowOutOfRange
  else respond { s with matrix := s.matrix.set row.toNat (s.matrix.getD row.toNat 0 ||| mask) } 0x00 0

/-- R116: KEY_RELEASE: every row at once. -/
def execKeyRelease (s : State) : Host.Outcome State Fault Refusal :=
  respond { s with matrix := s.matrix.map fun _ => 0x00 } 0x00 0

/-- R117: JOY_SET: the mask is replaced whole. -/
def execJoySet (mask : Byte) (s : State) : Host.Outcome State Fault Refusal :=
  respond { s with joy := mask } 0x00 0

end Sys2Proof.Machine
end

