-- ==== Sys2Proof/Machine/Interrupt.lean ====
section
/-! DEFINITION. The interrupt aggregator transactions: INT_QUERY, INT_ACK, INT_FIN (R112, R113, R114). -/

namespace Sys2Proof.Machine

open Sys2Proof

/-- R112: INT_QUERY. -/
def execIntQuery (s : State) : Host.Outcome State Fault Refusal :=
  respond s (if irqLevel s then 0x01 else 0x00) 0

/-- R113: INT_ACK: the selected source is accepted; with none pending the data is `0xFF` and nothing changes. -/
def execIntAck (s : State) : Host.Outcome State Fault Refusal :=
  match select s with
  | none => respond s 0xFF 0
  | some src => respond (acceptSource s src).2 (acceptSource s src).1 0

/-- R114, R132: INT_FIN: every source's finish, in registration order. -/
def execIntFin (s : State) : Host.Outcome State Fault Refusal :=
  respond (s.cfg.sourceOrder.foldl finishSource s) 0x00 0

end Sys2Proof.Machine
end

