-- ==== Sys2Proof/Machine/IoBus.lean ====
section
/-! DEFINITION. The I/O bus transactions: IO_RD, IO_WR (R86, R87), and the handlers of a port (R88 to R93). -/

namespace Sys2Proof.Machine

open Sys2Proof

/-- R89: a read of a bank-control or border port: a fresh draw, which changes no register. -/
def readBack (s : State) (port : Byte) : Byte × State :=
  (Config.draw (.readBack port) s.draws, { s with draws := s.draws + 1 })

/-- R86: the byte that a port read returns, and the state after it. -/
def portRead (s : State) (port : Byte) : Byte × State :=
  match s.cfg.handler port with
  | .periph c k => chipRead s c k
  | .bankctl _ => readBack s port
  | .border => readBack s port
  | .joystick => (s.joy, s)
  | .keyboard k => (s.cfg.readKeyboard k s.matrix, s)
  | .unmapped => (0xFF, s)

/-- R87: the state after a port write. -/
def portWrite (s : State) (port : Byte) (v : Byte) : State :=
  match s.cfg.handler port with
  | .periph c k => chipWrite s c k v
  | .bankctl j => { s with bank := s.cfg.bankctlDecode j v s.bank }
  | .border => { s with border := v }
  | .joystick => s
  | .keyboard _ => s
  | .unmapped => s

/-- R86: IO_RD. -/
def execIoRd (dt : Byte) (portAddr : Addr) (s : State) : Host.Outcome State Fault Refusal :=
  let r := portRead s (portOf portAddr)
  respond r.2 r.1 (portWait s (portOf portAddr) dt)

/-- R87: IO_WR. -/
def execIoWr (dt : Byte) (portAddr : Addr) (data : Byte) (s : State) : Host.Outcome State Fault Refusal :=
  respond (portWrite s (portOf portAddr) data) 0x00 (portWait s (portOf portAddr) dt)

end Sys2Proof.Machine
end

