-- ==== Sys2Proof/WellFormed.lean ====
section
/-! DEFINITION. When a configuration is well formed (R9), with the bounds that the types of R8 give its fields.
A transaction needs no such check: the type Instr admits exactly the operands that the fields of R71 hold. -/

namespace Sys2Proof.Cfg

/-- R9, first condition: every range lies inside `0..65535`. A range of length 0 counts as inside only where its base is
at most 65536: R9 says nothing of empty ranges, so this is the model's choice (DESIGN CHOICE, assumption 16). -/
def rangesInside (cfg : Cfg) : Bool :=
  decide (cfg.ramBase + cfg.ramLen ≤ 65536) && decide (cfg.vramBase + cfg.vramLen ≤ 65536) &&
  decide (cfg.diskBase + cfg.diskLen ≤ 65536) && decide (cfg.extBase + cfg.extLen ≤ 65536) &&
  cfg.roms.all fun r => decide (r.base + r.len ≤ 65536)

/-- R9, second condition: the RAM range and the VRAM range are disjoint. -/
def ramVramDisjoint (cfg : Cfg) : Bool :=
  decide (cfg.ramLen = 0) || decide (cfg.vramLen = 0) ||
  decide (cfg.ramBase + cfg.ramLen ≤ cfg.vramBase) || decide (cfg.vramBase + cfg.vramLen ≤ cfg.ramBase)

/-- R9, third condition: the visible band lies inside the frame. -/
def bandInFrame (cfg : Cfg) : Bool := decide (cfg.firstVisible + cfg.fbH ≤ cfg.totalLines)

/-- R9, fourth condition: `FB_W mod 8 = 0`. -/
def wholeBytes (cfg : Cfg) : Bool := decide (cfg.fbW % 8 = 0)

/-- R9, fifth condition: `1 <= P <= 255` and `WIN_START <= WIN_END`. -/
def windowOk (cfg : Cfg) : Bool :=
  decide (1 ≤ cfg.period) && decide (cfg.period ≤ 255) && decide (cfg.winStart ≤ cfg.winEnd)

/-- R9, sixth condition: every pixel and attribute address is a valid offset of the video store. -/
def videoOffsetsOk (cfg : Cfg) : Bool :=
  (List.range cfg.fbH).all fun y => (List.range (cfg.fbW / 8)).all fun xb =>
    decide (cfg.pixAddr.eval y xb < cfg.videoSize) && decide (cfg.attrAddr.eval y xb < cfg.videoSize)

/-- R9, seventh condition, with R8's type of `SOURCE_ORDER`: its entries are distinct, they are VIDEO and chips of
`CHIPS`, and all of these are among them. -/
def sourcesOk (cfg : Cfg) : Bool :=
  decide cfg.sourceOrder.Nodup && decide (Source.video ∈ cfg.sourceOrder) &&
  (cfg.chips.all fun c => decide (Source.chip c ∈ cfg.sourceOrder)) &&
  cfg.sourceOrder.all fun
    | .video => true
    | .chip c => decide (c ∈ cfg.chips)

/-- R9, eighth condition: the initial clock gives at least one clock per line. -/
def clockOk (cfg : Cfg) : Bool := decide (1 ≤ cfg.cplOf cfg.clockKHzInit)

/-- The bounds that R8 writes in its type column: `LWC`, `TOTAL_LINES`, `BLINK_PERIOD` at least 1, the line rate
a positive rational, the initial clock positive. -/
def boundsOk (cfg : Cfg) : Bool :=
  decide (1 ≤ cfg.lwc) && decide (1 ≤ cfg.totalLines) && decide (1 ≤ cfg.blinkPeriod) &&
  decide (1 ≤ cfg.lineRateNum) && decide (1 ≤ cfg.lineRateDen) && decide (1 ≤ cfg.clockKHzInit)

/-- R8's chip names: `CHIPS` lists no chip twice, and a port's PERIPH handler names a chip of it (assumption 13). -/
def chipsOk (cfg : Cfg) : Bool :=
  decide cfg.chips.Nodup && cfg.portMap.all fun e => match cfg.handler e.1 with
    | .periph c _ => decide (c ∈ cfg.chips)
    | _ => true

/-- R9: the configuration is well formed. -/
def wf (cfg : Cfg) : Bool :=
  cfg.rangesInside && cfg.ramVramDisjoint && cfg.bandInFrame && cfg.wholeBytes && cfg.windowOk &&
  cfg.videoOffsetsOk && cfg.sourcesOk && cfg.clockOk && cfg.boundsOk && cfg.chipsOk

end Sys2Proof.Cfg
end

