-- ==== Sys2Proof/Machine/Lifecycle.lean ====
section
/-! DEFINITION. The reset transactions (R118, R119, R120) and construction (R144). -/

namespace Sys2Proof.Machine

open Sys2Proof

/-- R118: the state after `reset(PowerOn)`, less its response. -/
def powerOn (s : State) : State := resetStores (resetRaster (resetPorts s .powerOn) s.draws) s.draws

/-- R118: RESET.POWERON. -/
def execResetPowerOn (s : State) : Host.Outcome State Fault Refusal := respond (powerOn s) 0x00 0

/-- R119: RESET.COLD. -/
def execResetCold (s : State) : Host.Outcome State Fault Refusal :=
  respond (resetRaster (resetPorts s .cold) s.draws) 0x00 0

/-- R120: RESET.WARM. -/
def execResetWarm (s : State) : Host.Outcome State Fault Refusal := respond (resetPorts s .warm) 0x00 0

/-- R144, R9: a new instance, or the refusal of an ill-formed configuration. -/
def build (cfg : Cfg) (supplies : List Supply) : Host.Outcome State Fault Refusal :=
  if cfg.wf then .next (State.construct cfg supplies) else .refused .configIllFormed

end Sys2Proof.Machine
end

