-- ==== Sys2Proof/Machine/MemBus.lean ====
section
/-! DEFINITION. The memory bus transactions: MEM_RD, MEM_WR, MEM_PEEK (R81, R82, R83). -/

namespace Sys2Proof.Machine

open Sys2Proof

/-- R81: MEM_RD. `isFetch` reaches only the contention predicate. -/
def execMemRd (isFetch : Bool) (dt : Byte) (addr : Addr) (s : State) : Host.Outcome State Fault Refusal :=
  respond s (memRead s addr) (memWait s addr isFetch dt)

/-- R82: MEM_WR. The contention predicate is asked with `isFetch = false`, about the state before the write. -/
def execMemWr (dt : Byte) (addr : Addr) (data : Byte) (s : State) : Host.Outcome State Fault Refusal :=
  respond (memWrite s addr data) 0x00 (memWait s addr false dt)

/-- R83: MEM_PEEK. `isFetch` is ignored and the wait is always 0. -/
def execMemPeek (_isFetch : Bool) (addr : Addr) (s : State) : Host.Outcome State Fault Refusal :=
  respond s (memRead s addr) 0

end Sys2Proof.Machine
end

