-- ==== Sys2Proof/Machine/Raster.lean ====
section
/-! DEFINITION. The raster transactions: TICK, SPEED, VID_PIX, VID_BORDER (R103, R104, R109, R110). -/

namespace Sys2Proof.Machine

open Sys2Proof

/-- R104: TICK: the raster first, then every chip. -/
def execTick (n : BitVec 32) (s : State) : Host.Outcome State Fault Refusal :=
  respond (tickChips (advanceRaster s n.toNat) n.toNat) 0x00 0

/-- R103: SPEED. A clock whose clocks-per-line rounds to 0 is refused. -/
def execSpeed (khz : BitVec 32) (s : State) : Host.Outcome State Fault Refusal :=
  if s.cfg.cplOf khz.toNat < 1 then .refused .speedTooLow
  else respond { s with clockKHz := khz.toNat, cpl := s.cfg.cplOf khz.toNat } 0x00 0

/-- R109: VID_PIX. A coordinate outside the frame buffer is refused. -/
def execVidPix (x y : BitVec 16) (s : State) : Host.Outcome State Fault Refusal :=
  if s.cfg.fbW ≤ x.toNat ∨ s.cfg.fbH ≤ y.toNat then .refused .pixelOutOfRange
  else respond s (fbPixel s y.toNat x.toNat) 0

/-- R110: VID_BORDER. -/
def execVidBorder (line : BitVec 32) (s : State) : Host.Outcome State Fault Refusal :=
  respond s (s.borderTab.getD (borderIndex s.cfg line) 0) 0

end Sys2Proof.Machine
end

