-- ==== Sys2Proof/Machine/Dispatch.lean ====
section
/-! DEFINITION. exec: the meaning of every transaction (R75). -/

namespace Sys2Proof.Machine

open Sys2Proof

def exec (i : Instr) (s : State) : Host.Outcome State Fault Refusal :=
  match i with
  | .memRd isFetch dt addr => Sys2Proof.Machine.execMemRd isFetch dt addr s
  | .memWr dt addr data => Sys2Proof.Machine.execMemWr dt addr data s
  | .memPeek isFetch addr => Sys2Proof.Machine.execMemPeek isFetch addr s
  | .ioRd dt portAddr => Sys2Proof.Machine.execIoRd dt portAddr s
  | .ioWr dt portAddr data => Sys2Proof.Machine.execIoWr dt portAddr data s
  | .tick n => Sys2Proof.Machine.execTick n s
  | .intQuery => Sys2Proof.Machine.execIntQuery s
  | .intAck => Sys2Proof.Machine.execIntAck s
  | .intFin => Sys2Proof.Machine.execIntFin s
  | .resetPowerOn => Sys2Proof.Machine.execResetPowerOn s
  | .resetCold => Sys2Proof.Machine.execResetCold s
  | .resetWarm => Sys2Proof.Machine.execResetWarm s
  | .speed khz => Sys2Proof.Machine.execSpeed khz s
  | .vidPix x y => Sys2Proof.Machine.execVidPix x y s
  | .vidBorder line => Sys2Proof.Machine.execVidBorder line s
  | .keySet row mask => Sys2Proof.Machine.execKeySet row mask s
  | .keyRelease => Sys2Proof.Machine.execKeyRelease s
  | .joySet mask => Sys2Proof.Machine.execJoySet mask s

end Sys2Proof.Machine
end

