-- ==== Sys2Proof/Machine/Transact.lean ====
section
/-! DEFINITION. What a request word does, and the block's taking of its next request (R65, R70, R76). -/

namespace Sys2Proof.Machine

open Sys2Proof

/-- R70, R76, R123: one request: the transaction its word decodes to, or the refusal of the word. -/
def transact (w : Request) (s : State) : Host.Outcome State Fault Refusal :=
  match decode w with
  | .ok i => exec i s
  | .error e => .refused (refusalOf e)

/-- R65: the first waiting request is taken off the queue and performed. With none waiting there is no transaction
and nothing changes (assumption 1). -/
def takeRequest (s : State) : Host.Outcome State Fault Refusal :=
  match s.requests with
  | [] => .next s
  | w :: rest => transact w { s with requests := rest }

end Sys2Proof.Machine
end

