-- ==== Sys2Proof/Machine/Step.lean ====
section
/-! DEFINITION. One step of the block: one transaction, atomic (R65). -/

namespace Sys2Proof.Machine

/-- One step. -/
def step (s : State) : Host.Outcome State Fault Refusal := takeRequest s

/-- The state with the request given by the low `nbits` bits of `w` placed where `step` takes its next request. -/
def State.withFetchWord (s : State) (nbits w : Nat) : State := placeRequest s (BitVec.ofNat 48 (w % 2 ^ nbits))

end Sys2Proof.Machine
end

