-- ==== Sys2Proof/Machine/Asm.lean ====
section
/-! DEFINITION. The textual form of requests and responses (R78), written and read, and the pseudo-transactions (R79). -/

namespace Sys2Proof.Machine

open Sys2Proof

/-- A pseudo-transaction (R79). -/
inductive Pseudo where
  | nop
  | fetch (addr : Addr) (dt : Byte)
  | bank (v : Byte) (dt : Byte)
deriving DecidableEq, Repr

/-- R79: the lowest port that is bank-control register 0, if the configuration has one. -/
def bankPort (cfg : Cfg) : Option Nat :=
  (List.range 256).find? fun p => decide (cfg.handler (BitVec.ofNat 8 p) = .bankctl 0)

/-- R79: the transaction a pseudo-transaction expands to; BANK has none where no port is bank-control register 0. -/
def expandPseudo (cfg : Cfg) : Pseudo → Option Instr
  | .nop => some (.tick 0)
  | .fetch addr dt => some (.memRd true dt addr)
  | .bank v dt => (bankPort cfg).map fun p => .ioWr dt (BitVec.ofNat 16 p) v

/-- A hexadecimal digit. -/
def hexDigit (n : Nat) : Char := "0123456789ABCDEF".toList.getD n '?'

/-- The low `k` hexadecimal digits of a number. -/
def hexDigits (n : Nat) : Nat → List Char
  | 0 => []
  | k + 1 => hexDigits (n / 16) k ++ [hexDigit (n % 16)]

/-- A number of `k` hexadecimal digits, `0x`-prefixed (R78). -/
def hexText (k n : Nat) : String := "0x" ++ String.ofList (hexDigits n k)

/-- R78: the optional `dt=` operand, left out where it is 0. -/
def dtText (dt : Byte) : String := if dt = 0 then "" else ", dt=" ++ toString dt.toNat

/-- R78: the optional `fetch` operand. -/
def fetchText (isFetch : Bool) : String := if isFetch then ", fetch" else ""

/-- R78: the textual form of a request. -/
def instrText : Instr → String
  | .memRd isFetch dt addr => "MEM_RD " ++ hexText 4 addr.toNat ++ fetchText isFetch ++ dtText dt
  | .memWr dt addr data => "MEM_WR " ++ hexText 4 addr.toNat ++ ", " ++ hexText 2 data.toNat ++ dtText dt
  | .memPeek isFetch addr => "MEM_PEEK " ++ hexText 4 addr.toNat ++ fetchText isFetch
  | .ioRd dt portAddr => "IO_RD " ++ hexText 4 portAddr.toNat ++ dtText dt
  | .ioWr dt portAddr data => "IO_WR " ++ hexText 4 portAddr.toNat ++ ", " ++ hexText 2 data.toNat ++ dtText dt
  | .tick n => "TICK " ++ toString n.toNat
  | .intQuery => "INT_QUERY"
  | .intAck => "INT_ACK"
  | .intFin => "INT_FIN"
  | .resetPowerOn => "RESET.POWERON"
  | .resetCold => "RESET.COLD"
  | .resetWarm => "RESET.WARM"
  | .speed khz => "SPEED " ++ toString khz.toNat
  | .vidPix x y => "VID_PIX " ++ toString x.toNat ++ ", " ++ toString y.toNat
  | .vidBorder line => "VID_BORDER " ++ toString line.toInt
  | .keySet row mask => "KEY_SET " ++ toString row.toNat ++ ", " ++ hexText 2 mask.toNat
  | .keyRelease => "KEY_RELEASE"
  | .joySet mask => "JOY_SET " ++ hexText 2 mask.toNat

/-- R78: the textual form of a response. -/
def responseText (r : Response) : String :=
  "-> data=" ++ hexText 2 r.data.toNat ++ " wait=" ++ toString r.wait.toNat ++ " irq=" ++ (if r.irq then "1" else "0")

/-- The value of a digit in a base up to 16, in either case of a letter. -/
def digitValue (c : Char) : Nat :=
  if '0' ≤ c ∧ c ≤ '9' then c.toNat - '0'.toNat
  else if 'A' ≤ c ∧ c ≤ 'F' then c.toNat - 'A'.toNat + 10
  else if 'a' ≤ c ∧ c ≤ 'f' then c.toNat - 'a'.toNat + 10
  else 16

/-- The number that digits of a base write, after the digits read so far. -/
def readDigits (base : Nat) : List Char → Nat → Option Nat
  | [], n => some n
  | c :: cs, n => if digitValue c < base then readDigits base cs (n * base + digitValue c) else none

/-- R78: a number, decimal or `0x`-prefixed hexadecimal. -/
def readNat : List Char → Option Nat
  | [] => none
  | ['0', 'x'] => none
  | '0' :: 'x' :: cs => readDigits 16 cs 0
  | cs => readDigits 10 cs 0

/-- A number that fits a field of `width` bits. -/
def readField (width : Nat) (cs : List Char) : Option (BitVec width) :=
  (readNat cs).bind fun n => if n < 2 ^ width then some (BitVec.ofNat width n) else none

/-- R78: the signed line number of VID_BORDER. -/
def readLine : List Char → Option (BitVec 32)
  | '-' :: cs => (readNat cs).bind fun n => if n ≤ 2 ^ 31 then some (BitVec.ofInt 32 (-n)) else none
  | cs => (readNat cs).bind fun n => if n < 2 ^ 31 then some (BitVec.ofNat 32 n) else none

/-- The words of a line, parted by blanks and commas; `word` is the current one, its last character first. -/
def words : List Char → List Char → List (List Char)
  | [], word => if word = [] then [] else [word.reverse]
  | c :: cs, word =>
    if c = ' ' ∨ c = ',' then if word = [] then words cs [] else word.reverse :: words cs []
    else words cs (c :: word)

/-- R78: the optional last operand `dt=N`, 0 where it is left out. -/
def readDt : List (List Char) → Option Byte
  | [] => some 0
  | ['d' :: 't' :: '=' :: cs] => readField 8 cs
  | _ => none

/-- R78: the optional operand `fetch`, and the operands after it. -/
def readFetch : List (List Char) → Bool × List (List Char)
  | ['f', 'e', 't', 'c', 'h'] :: rest => (true, rest)
  | rest => (false, rest)

/-- R78, R79: the transaction that a line writes, a pseudo-transaction expanded for the configuration; none where the
line is no transaction or an operand does not fit its field. -/
def readInstr (cfg : Cfg) (line : String) : Option Instr :=
  match words line.toList [] with
  | [] => none
  | mnemonic :: operands =>
    match String.ofList mnemonic, operands with
    | "MEM_RD", a :: rest => do
      return .memRd (readFetch rest).1 (← readDt (readFetch rest).2) (← readField 16 a)
    | "MEM_WR", a :: d :: rest => do return .memWr (← readDt rest) (← readField 16 a) (← readField 8 d)
    | "MEM_PEEK", a :: rest =>
      if (readFetch rest).2 = [] then (readField 16 a).map (.memPeek (readFetch rest).1) else none
    | "IO_RD", a :: rest => do return .ioRd (← readDt rest) (← readField 16 a)
    | "IO_WR", a :: d :: rest => do return .ioWr (← readDt rest) (← readField 16 a) (← readField 8 d)
    | "TICK", [n] => (readField 32 n).map .tick
    | "INT_QUERY", [] => some .intQuery
    | "INT_ACK", [] => some .intAck
    | "INT_FIN", [] => some .intFin
    | "RESET.POWERON", [] => some .resetPowerOn
    | "RESET.COLD", [] => some .resetCold
    | "RESET.WARM", [] => some .resetWarm
    | "SPEED", [k] => (readField 32 k).map .speed
    | "VID_PIX", [x, y] => do return .vidPix (← readField 16 x) (← readField 16 y)
    | "VID_BORDER", [n] => (readLine n).map .vidBorder
    | "KEY_SET", [r, m] => do return .keySet (← readField 16 r) (← readField 8 m)
    | "KEY_RELEASE", [] => some .keyRelease
    | "JOY_SET", [m] => (readField 8 m).map .joySet
    | "NOP", [] => expandPseudo cfg .nop
    | "FETCH", a :: rest => do expandPseudo cfg (.fetch (← readField 16 a) (← readDt rest))
    | "BANK", v :: rest => do expandPseudo cfg (.bank (← readField 8 v) (← readDt rest))
    | _, _ => none

end Sys2Proof.Machine
end

