-- ==== Sys2Proof/Safety.lean ====
section
/-! DEFINITION. The terms claims are stated in: the invariant of the block, the observation of a request sequence
and when it is bad (R143), the host's tick duty (R142), and the rules' own loop of TICK (R104). -/

namespace Sys2Proof.Machine

open Sys2Proof

/-- R39: a loaded disk image has `DISK_LEN` bytes (the part of the invariant that MEM_WR to the overlay rests on). -/
def DiskFits (s : State) : Prop := ∀ img, s.diskImg = some img → img.length = s.cfg.diskLen

/-- What holds of every state the block can be in, from R9 and from the legal values of R22 to R42. -/
structure Inv (s : State) : Prop where
  /-- R9, R144: the instance was built from a well-formed configuration. -/
  cfgWf : s.cfg.wf = true
  /-- R28: `cpl = CPL(clockKHz)`. -/
  cplEq : s.cpl = s.cfg.cplOf s.clockKHz
  /-- R27, R28: `cpl >= 1`. -/
  cplPos : 1 ≤ s.cpl
  /-- R25. -/
  lineLegal : s.line < s.cfg.totalLines
  /-- R29. -/
  blinkLegal : s.blinkCnt < s.cfg.blinkPeriod
  /-- R31: one entry per line. -/
  borderTabLen : s.borderTab.length = s.cfg.totalLines
  /-- R34: `FB_H` rows. -/
  fbLen : s.fb.length = s.cfg.fbH
  /-- R34: a decoded row has `FB_W` entries. -/
  fbRows : ∀ row, some row ∈ s.fb → row.length = s.cfg.fbW
  /-- R40: `KBD_ROWS` rows. -/
  matrixLen : s.matrix.length = s.cfg.kbdRows
  /-- R38: one image slot per ROM region. -/
  romLen : s.romImg.length = s.cfg.roms.length
  /-- R39: a disk image has `DISK_LEN` bytes. -/
  diskFits : DiskFits s
  /-- The stores keep their canonical form. -/
  ramWf : Memory.wf s.ram = true
  vramWf : Memory.wf s.vram = true
  extWf : Memory.wf s.ext = true
  /-- R35: RAM addresses are 16 bits. -/
  ramBound : ∀ c ∈ s.ram, c.1 < 65536
  /-- R36, R47. -/
  vramBound : ∀ c ∈ s.vram, c.1 < s.cfg.vramLen
  /-- R37, R47. -/
  extBound : ∀ c ∈ s.ext, c.1 < s.cfg.extSize
  /-- R42: one state for each chip of `CHIPS`. -/
  chipNames : s.chips.map Prod.fst = s.cfg.chips
  /-- R73, R97: a wait count is at most `P`. -/
  waitBound : ∀ r, s.response = some r → r.wait.toNat ≤ s.cfg.period

/-- R143: the observation of a request sequence: the responses in order, the state after the last, and the mark of
R123, which holds the first refusal met and which no later transaction clears. -/
structure Observation where
  responses : List Response
  mark      : Option Refusal
  final     : State
deriving DecidableEq, Repr

/-- R123, R143: one more request. A refused one has no response and no effect on the state. -/
def observeOne (o : Observation) (w : Request) : Observation :=
  match transact w o.final with
  | .next t => { responses := o.responses ++ t.response.toList, mark := o.mark, final := t }
  | .fault f => nomatch f
  | .refused r => { o with mark := some (o.mark.getD r) }

/-- R143: the observation of a finite request sequence from a state. -/
def observe (ws : List Request) (s : State) : Observation :=
  ws.foldl observeOne { responses := [], mark := none, final := s }

/-- R143: a run is bad if it holds a refusal. -/
def Observation.bad (o : Observation) : Bool := o.mark.isSome

/-- A bus cycle that a CPU instruction makes (R142): a bus transaction less its diffTicks. -/
inductive BusCycle where
  | memRd (isFetch : Bool) (addr : Addr)
  | memWr (addr : Addr) (data : Byte)
  | ioRd (portAddr : Addr)
  | ioWr (portAddr : Addr) (data : Byte)
deriving DecidableEq, Repr

/-- The transaction of a bus cycle with its diffTicks. -/
def BusCycle.instr (dt : Byte) : BusCycle → Instr
  | .memRd isFetch addr => .memRd isFetch dt addr
  | .memWr addr data => .memWr dt addr data
  | .ioRd portAddr => .ioRd dt portAddr
  | .ioWr portAddr data => .ioWr dt portAddr data

/-- R142, R148: the bus cycles of one CPU instruction, each with the cycles of the instruction before it that are
not waits. `waits` is what was reported so far: it is part of every later `DT`. R142 is silent where a `DT` would not fit
its 8 bits; no request can carry it, so there is no result (DESIGN CHOICE, assumption 17). -/
def runBusCycles : List (Nat × BusCycle) → Nat → State → Option (State × Nat)
  | [], waits, s => some (s, waits)
  | (before, b) :: rest, waits, s =>
    if before + waits < 256 then
      match exec (b.instr (BitVec.ofNat 8 (before + waits))) s with
      | .next t => runBusCycles rest (waits + (t.response.elim 0 fun r => r.wait.toNat)) t
      | _ => none
    else none

/-- R142, R148: one CPU instruction of a host that keeps its duties: its bus cycles, then exactly one TICK of its
`base` cycles and every wait reported. R142 is silent where this count passes the 32 bits of TICK's `n`; one TICK cannot
carry it, so there is no result (DESIGN CHOICE, assumption 17). -/
def runHostInstr (cycles : List (Nat × BusCycle)) (base : Nat) (s : State) : Option State :=
  match runBusCycles cycles 0 s with
  | none => none
  | some (t, waits) =>
    if base + waits < 2 ^ 32 then
      match exec (.tick (BitVec.ofNat 32 (base + waits))) t with
      | .next u => some u
      | _ => none
    else none

/-- R104: the while loop of TICK as the rule writes it, `fuel` bounding its turns. -/
def tickLoop : Nat → State → State
  | 0, s => s
  | fuel + 1, s => if s.cpl ≤ s.acc then tickLoop fuel (lineEnd { s with acc := s.acc - s.cpl }) else s

/-- R59: whether a write to a region changes the byte written: RAM, video RAM and extended RAM, and a loaded disk image
where the overlay is writable. -/
def mutableRegion (s : State) : Region → Bool
  | .ext => true
  | .disk => s.cfg.diskWritable && s.diskImg.isSome
  | .rom _ => false
  | .vram => true
  | .ram => true
  | .openBus => false

end Sys2Proof.Machine
end

