-- ==== Sys2Proof/Certificates/Slice0/Obligations.lean ====
section
/-! DEFINITION. The statements for the provers, each from the rules it cites. A draw of the spec is a value of the
opaque `Config.draw`, a chip's behaviour one of the opaque chip constants: a statement that names them holds for every
value they could have. -/

open Sys2Proof Sys2Proof.Machine

/-! ### The request word -/

/-- R80: the worked encodings, in both directions. -/
def Obligations.WorkedEncodings : Prop :=
  (encode (.memRd true 4 0x1234) = 0x110412340000 ∧ decode 0x110412340000 = .ok (.memRd true 4 0x1234)) ∧
  (encode (.ioWr 0 0x80 0x34) = 0x500000800034 ∧ decode 0x500000800034 = .ok (.ioWr 0 0x80 0x34)) ∧
  (encode (.tick 224) = 0x6000000000E0 ∧ decode 0x6000000000E0 = .ok (.tick 224)) ∧
  (encode (.vidBorder (-1)) = 0xD000FFFFFFFF ∧ decode 0xD000FFFFFFFF = .ok (.vidBorder (-1))) ∧
  (encode .resetCold = 0xA10000000000 ∧ decode 0xA10000000000 = .ok .resetCold) ∧
  (encode (.keySet 3 0x10) = 0xE00000030010 ∧ decode 0xE00000030010 = .ok (.keySet 3 0x10))

/-- R70, R71, R74: decoding the encoding of a transaction gives it back, whatever its operands. -/
def Obligations.DecodeOfEncode : Prop := ∀ i : Instr, decode (encode i) = .ok i

/-- R71, R74, R76: a word that decodes is the encoding of what it decodes to: no bit of a request is dropped. -/
def Obligations.EncodeOfDecode : Prop := ∀ (w : Request) (i : Instr), decode w = .ok i → encode i = w

/-- R75, R76: the words that decode are exactly the instances of the opcode table's rows. -/
def Obligations.DecodesExactlyTheTable : Prop := ∀ w : Request, (∃ i, decode w = .ok i) ↔ inTable w = true

/-- R76, R123: which words are refused as reserved, by name. That a `SUB` is judged before the fields, where both are
wrong, is the model's choice (assumption 11). -/
def Obligations.ReservedWordsAreRefusedByName : Prop := ∀ w : Request,
  (decode w = .error .reservedOp ↔ opOf w = 0x0 ∨ opOf w = 0xF) ∧
  (decode w = .error .invalidResetLevel ↔ opOf w = 0xA ∧ 3 ≤ (subOf w).toNat) ∧
  (decode w = .error .reservedSub ↔
    ((opOf w = 0x1 ∨ opOf w = 0x3) ∧ 2 ≤ (subOf w).toNat) ∨
    ((opOf w = 0x2 ∨ opOf w = 0x4 ∨ opOf w = 0x5 ∨ opOf w = 0x6 ∨ opOf w = 0x7 ∨ opOf w = 0x8 ∨ opOf w = 0x9 ∨
      opOf w = 0xB ∨ opOf w = 0xC ∨ opOf w = 0xD) ∧ subOf w ≠ 0) ∨
    (opOf w = 0xE ∧ 3 ≤ (subOf w).toNat))

/-! ### Steps and runs -/

/-- R65, R70: a step takes the first waiting request and runs the transaction it decodes to. -/
def Obligations.StepRunsTheDecodedRequest : Prop :=
  ∀ (s : State) (w : Request) (rest : List Request) (i : Instr),
    s.requests = w :: rest → decode w = .ok i → step s = exec i { s with requests := rest }

/-- R76, R123: a step at a word that is no request is the refusal of the word; with no request waiting nothing changes
(the model's choice, assumption 1). -/
def Obligations.StepRefusesABadWordAndIdlesOnNone : Prop := ∀ s : State,
  (∀ (w : Request) (rest : List Request) (e : DecodeError),
    s.requests = w :: rest → decode w = .error e → step s = .refused (refusalOf e)) ∧
  (s.requests = [] → step s = .next s)

/-- R65, R143: stepping through a queue of requests and observing the same sequence agree: the same final state where
no request is refused, the first refusal where one is. The queue (assumption 1) and the end of a run at a refusal
(assumption 9) are the model's choices. -/
def Obligations.RunAgreesWithObservation : Prop := ∀ (ws : List Request) (s : State),
  match (observe ws s).mark with
  | none => Sys2Proof.core.run ws.length ({ s with requests := ws } : State) =
      .next ({ (observe ws s).final with requests := [] } : State)
  | some r => Sys2Proof.core.run ws.length ({ s with requests := ws } : State) = .refused r

/-- R123: a refused request has no response and no effect, and leaves a mark that no later request clears. -/
def Obligations.RefusalHasNoEffectAndItsMarkStays : Prop := ∀ (o : Observation) (w : Request),
  (∀ r, transact w o.final = .refused r →
    (observeOne o w).final = o.final ∧ (observeOne o w).responses = o.responses ∧ (observeOne o w).bad = true) ∧
  (o.bad = true → ∀ ws : List Request, (ws.foldl observeOne o).mark = o.mark)

/-! ### Construction and the invariant -/

/-- R144, R9: construction: an ill-formed configuration is refused; a well-formed one starts in the state after
PowerOn of the constructed instance. (`draws`, `requests`, `response` and `supplies` are the model's own, assumptions
1, 2, 4, 5; `wf` also refuses what assumption 13 and assumption 16 add to R9.) -/
def Obligations.ConstructionIsPowerOnOfAConstructedInstance : Prop :=
  ∀ (cfg : Cfg) (supplies : List Supply) (s : State),
    (cfg.wf = false → build cfg supplies = .refused .configIllFormed) ∧
    (s.cfg = cfg → s.clockKHz = cfg.clockKHzInit → s.matrix = List.replicate cfg.kbdRows 0 → s.joy = 0 →
      s.chips = cfg.chips.map (fun c => (c, Config.chipInit c)) → s.supplies = supplies →
      s.draws = 0 → s.requests = [] → s.response = none →
      cfg.wf = true → build cfg supplies = .next (powerOn s))

/-- R9: what a well-formed configuration satisfies. -/
def Obligations.WellFormedMeetsEveryCondition : Prop := ∀ cfg : Cfg, cfg.wf = true →
  (∀ a : Nat, (cfg.ramBase ≤ a ∧ a < cfg.ramBase + cfg.ramLen) ∨ (cfg.vramBase ≤ a ∧ a < cfg.vramBase + cfg.vramLen) ∨
    (cfg.diskBase ≤ a ∧ a < cfg.diskBase + cfg.diskLen) ∨ (cfg.extBase ≤ a ∧ a < cfg.extBase + cfg.extLen) ∨
    (∃ r ∈ cfg.roms, r.base ≤ a ∧ a < r.base + r.len) → a ≤ 65535) ∧
  (∀ a : Nat, ¬ ((cfg.ramBase ≤ a ∧ a < cfg.ramBase + cfg.ramLen) ∧
    cfg.vramBase ≤ a ∧ a < cfg.vramBase + cfg.vramLen)) ∧
  cfg.firstVisible + cfg.fbH ≤ cfg.totalLines ∧ cfg.fbW % 8 = 0 ∧
  (1 ≤ cfg.period ∧ cfg.period ≤ 255 ∧ cfg.winStart ≤ cfg.winEnd) ∧
  (∀ y xb, y < cfg.fbH → xb < cfg.fbW / 8 →
    cfg.pixAddr.eval y xb < cfg.videoSize ∧ cfg.attrAddr.eval y xb < cfg.videoSize) ∧
  (cfg.sourceOrder.Nodup ∧ .video ∈ cfg.sourceOrder ∧ ∀ c ∈ cfg.chips, .chip c ∈ cfg.sourceOrder) ∧
  1 ≤ (2 * cfg.clockKHzInit * cfg.lineRateDen + cfg.lineRateNum) / (2 * cfg.lineRateNum)

/-- R144, R145: State.reset at the values of the rules, for EX1 (the model's choice of configuration, assumption 3). -/
def Obligations.ResetStateHoldsTheResetValues : Prop :=
  State.reset.cfg = Config.ex1 ∧
  State.reset.bank.lowerRam = false ∧ State.reset.bank.overlay = false ∧ State.reset.bank.extWin = false ∧
  State.reset.line = 0 ∧ State.reset.acc = 0 ∧ State.reset.clockKHz = 3500 ∧ State.reset.cpl = 224 ∧
  State.reset.blinkCnt = 0 ∧ State.reset.blinkFlag = false ∧ State.reset.latch = false ∧
  State.reset.borderTab = List.replicate 312 0 ∧ State.reset.matrix = List.replicate 8 0 ∧ State.reset.joy = 0 ∧
  memRead State.reset 0x0000 = 0xF0

/-- R144: every instance of a well-formed configuration starts with the invariant. -/
def Obligations.ConstructionMeetsTheInvariant : Prop :=
  ∀ (cfg : Cfg) (supplies : List Supply), cfg.wf = true → Inv (State.construct cfg supplies)

/-- R11, R144: EX1 is well formed, so the invariant holds at State.reset. -/
def Obligations.ResetMeetsTheInvariant : Prop := Inv State.reset

/-- R25 to R42: every step keeps the invariant, from every state that has it. -/
def Obligations.StepKeepsTheInvariant : Prop :=
  ∀ s t : State, Inv s → step s = .next t → Inv t

/-! ### Resolution -/

/-- R56: resolution gives a valid offset of the region it names, from an address the region claims. -/
def Obligations.ResolveGivesAValidOffset : Prop := ∀ (cfg : Cfg) (bank : Bank) (addr : Addr) (off : Nat),
  (resolve cfg bank addr = (.ext, off) → off < cfg.extSize ∧ bank.extWin = true ∧
    cfg.extBase ≤ addr.toNat ∧ addr.toNat < cfg.extBase + cfg.extLen) ∧
  (resolve cfg bank addr = (.disk, off) → off < cfg.diskLen ∧ addr.toNat = cfg.diskBase + off ∧
    bank.overlay = true) ∧
  (∀ i, resolve cfg bank addr = (.rom i, off) → ∃ r, cfg.roms[i]? = some r ∧ off < r.len ∧
    addr.toNat = r.base + off ∧ ¬ (r.lowerGated = true ∧ bank.lowerRam = true)) ∧
  (resolve cfg bank addr = (.vram, off) → off < cfg.vramLen ∧ addr.toNat = cfg.vramBase + off) ∧
  (resolve cfg bank addr = (.ram, off) → off = addr.toNat ∧ cfg.ramBase ≤ off ∧ off < cfg.ramBase + cfg.ramLen) ∧
  (resolve cfg bank addr = (.openBus, off) → off = 0)

/-- R49 to R54: the priority order: EXT, DISK, the ROM regions in list order, VRAM, RAM, open bus. -/
def Obligations.ResolveFollowsThePriorityOrder : Prop := ∀ (cfg : Cfg) (bank : Bank) (addr : Addr),
  let a := addr.toNat
  let extClaims := bank.extWin = true ∧ cfg.extBase ≤ a ∧ a < cfg.extBase + cfg.extLen
  let diskClaims := bank.overlay = true ∧ cfg.diskBase ≤ a ∧ a < cfg.diskBase + cfg.diskLen
  let claims (r : RomCfg) := r.base ≤ a ∧ a < r.base + r.len ∧ ¬ (r.lowerGated = true ∧ bank.lowerRam = true)
  let vramClaims := cfg.vramBase ≤ a ∧ a < cfg.vramBase + cfg.vramLen
  let ramClaims := cfg.ramBase ≤ a ∧ a < cfg.ramBase + cfg.ramLen
  (extClaims → extOffset cfg bank addr < cfg.extSize →
    resolve cfg bank addr = (.ext, extOffset cfg bank addr)) ∧
  (extClaims → cfg.extSize ≤ extOffset cfg bank addr → resolve cfg bank addr = (.openBus, 0)) ∧
  (¬ extClaims → diskClaims → resolve cfg bank addr = (.disk, a - cfg.diskBase)) ∧
  (¬ extClaims → ¬ diskClaims → ∀ (i : Nat) (r : RomCfg), cfg.roms[i]? = some r → claims r →
    (∀ (j : Nat) (q : RomCfg), j < i → cfg.roms[j]? = some q → ¬ claims q) →
    resolve cfg bank addr = (.rom i, a - r.base)) ∧
  (¬ extClaims → ¬ diskClaims → (∀ r ∈ cfg.roms, ¬ claims r) →
    (vramClaims → resolve cfg bank addr = (.vram, a - cfg.vramBase)) ∧
    (¬ vramClaims → ramClaims → resolve cfg bank addr = (.ram, a)) ∧
    (¬ vramClaims → ¬ ramClaims → resolve cfg bank addr = (.openBus, 0)))

/-- R55: the extended-RAM offset: `page` above, bit 15 as `A15_OP` makes it, the other 15 bits the address's; and the
two operators differ only for addresses with bit 15 set. -/
def Obligations.ExtendedOffsetBits : Prop := ∀ (cfg : Cfg) (bank : Bank) (addr : Addr),
  extOffset cfg bank addr = bank.page.toNat * 0x10000 +
    (if bank.negA15 = false then addr.toNat
     else if addr.toNat < 0x8000 then addr.toNat + 0x8000
     else if cfg.a15Op = .xor then addr.toNat - 0x8000 else addr.toNat) ∧
  extOffset cfg bank addr < 2 ^ 20 ∧
  (addr.toNat < 0x8000 →
    extOffset { cfg with a15Op := .xor } bank addr = extOffset { cfg with a15Op := .or } bank addr)

/-! ### The memory bus -/

/-- R81: MEM_RD's encoding; and it completes in every state: the byte of the resolved place, the wait of the access,
and nothing else of the state changed. -/
def Obligations.MemRdCompletes : Prop :=
  (∀ w : Request, opOf w = 0x1 → (subOf w).toNat ≤ 1 → dOf w = 0 →
    decode w = .ok (.memRd ((subOf w).getLsbD 0) (dtOf w) (aOf w))) ∧
  ∀ (s : State) (isFetch : Bool) (dt : Byte) (addr : Addr),
  exec (.memRd isFetch dt addr) s = .next { s with
    response := some
      { data := backRead s (resolve s.cfg s.bank addr).1 (resolve s.cfg s.bank addr).2
        wait := BitVec.ofNat 8 (waitCycles s.cfg s.line s.acc s.cpl
          (s.cfg.contendedMem addr (resolve s.cfg s.bank addr).1 isFetch) dt)
        irq := irqLevel s } }

/-- R83: MEM_PEEK's encoding; and it completes in every state with the byte of MEM_RD at the same address (whatever
either's `isFetch`) and wait 0, and changes nothing else. -/
def Obligations.MemPeekReadsWhatMemRdReads : Prop :=
  (∀ w : Request, opOf w = 0x3 → (subOf w).toNat ≤ 1 → dtOf w = 0 → dOf w = 0 →
    decode w = .ok (.memPeek ((subOf w).getLsbD 0) (aOf w))) ∧
  ∀ (s : State) (isFetch fetchOfRead : Bool) (dt : Byte) (addr : Addr),
    ∃ (r : Response) (t : State), exec (.memRd fetchOfRead dt addr) s = .next t ∧ t.response = some r ∧
      r.data = backRead s (resolve s.cfg s.bank addr).1 (resolve s.cfg s.bank addr).2 ∧
      exec (.memPeek isFetch addr) s = .next { s with response := some { data := r.data, wait := 0, irq := irqLevel s } }

/-- R82: MEM_WR's encoding; and it completes in every state: the resolved place is written, and the wait is that of
the state before, asked with `isFetch` false. -/
def Obligations.MemWrCompletes : Prop :=
  (∀ w : Request, opOf w = 0x2 → subOf w = 0 → (dOf w).toNat < 256 →
    decode w = .ok (.memWr (dtOf w) (aOf w) ((dOf w).setWidth 8))) ∧
  ∀ (s : State) (dt : Byte) (addr : Addr) (data : Byte),
  exec (.memWr dt addr data) s = .next
    { backWrite s (resolve s.cfg s.bank addr).1 (resolve s.cfg s.bank addr).2 data with
    response := some
      { data := 0x00
        wait := BitVec.ofNat 8 (waitCycles s.cfg s.line s.acc s.cpl
          (s.cfg.contendedMem addr (resolve s.cfg s.bank addr).1 false) dt)
        irq := irqLevel s } }

/-- R59, R82: what MEM_WR writes and what it leaves: the byte of the resolved place where that region is mutable, and
no other byte of any store; nothing at all where it is not; and no other piece of state. (`DiskFits` is R39's type of
the disk image, a part of the invariant.) -/
def Obligations.MemWrStoresOnlyTheResolvedByte : Prop :=
  ∀ (s t : State) (dt : Byte) (addr : Addr) (data : Byte), DiskFits s → exec (.memWr dt addr data) s = .next t →
    (mutableRegion s (resolve s.cfg s.bank addr).1 = true →
      backRead t (resolve s.cfg s.bank addr).1 (resolve s.cfg s.bank addr).2 = data) ∧
    (mutableRegion s (resolve s.cfg s.bank addr).1 = false →
      ∀ (q : Region) (o : Nat), backRead t q o = backRead s q o) ∧
    (∀ (q : Region) (o : Nat), (q, o) ≠ resolve s.cfg s.bank addr → backRead t q o = backRead s q o) ∧
    t = { s with ram := t.ram, vram := t.vram, ext := t.ext, diskImg := t.diskImg, response := t.response } ∧
    (mutableRegion s .ext = true ∧ mutableRegion s .vram = true ∧ mutableRegion s .ram = true ∧
      mutableRegion s .openBus = false ∧ (∀ i, mutableRegion s (.rom i) = false) ∧
      (mutableRegion s .disk = true ↔ s.cfg.diskWritable = true ∧ ∃ img, s.diskImg = some img))

/-- R45, R65, R68: reading any address after a write: the byte written where the address resolves to the byte written
(and its region is mutable), else the byte read before. (`DiskFits` is R39's type of the disk image, a part of the
invariant.) -/
def Obligations.WriteThenReadAnyAddress : Prop :=
  ∀ (s t : State) (dt : Byte) (a b : Addr) (v : Byte), DiskFits s → exec (.memWr dt a v) s = .next t →
    memRead t b =
      if resolve s.cfg s.bank b = resolve s.cfg s.bank a ∧ mutableRegion s (resolve s.cfg s.bank a).1 = true
      then v else memRead s b

/-! ### Wait states -/

/-- R94, R95, R96, R97: the position, the phase and the wait: where the access is contended, in the band and in the
window, the wait is `P - (ph mod P)`, which is in `1 .. P`, and `P` exactly when the phase is a multiple of `P`;
elsewhere it is 0. -/
def Obligations.WaitIsZeroOrWithinThePeriod : Prop :=
  ∀ (cfg : Cfg) (line acc cpl : Nat) (contended : Bool) (dt : Byte), 1 ≤ cfg.period → 1 ≤ cpl →
    let pos := acc + dt.toNat + cfg.contOffset
    let ph := (2 * pos * cfg.lwc + cpl) / (2 * cpl)
    let w := waitCycles cfg line acc cpl contended dt
    let inside := contended = true ∧ (cfg.firstVisible ≤ line ∧ line < cfg.firstVisible + cfg.fbH) ∧
      (cfg.winStart ≤ ph ∧ ph < cfg.winEnd)
    w ≤ cfg.period ∧
    (inside → w = cfg.period - ph % cfg.period ∧ 1 ≤ w ∧ (w = cfg.period ↔ ph % cfg.period = 0)) ∧
    (¬ inside → w = 0)

/-- R73, R100: every completed transaction reports its wait whole: that of R96 for the four bus transactions, 0 for
every other one. -/
def Obligations.ReportedWaitIsTheWaitFunction : Prop := ∀ (i : Instr) (s t : State),
  s.cfg.period ≤ 255 → exec i s = .next t → ∃ r, t.response = some r ∧ r.wait.toNat =
    match i with
    | .memRd isFetch dt addr => memWait s addr isFetch dt
    | .memWr dt addr _ => memWait s addr false dt
    | .ioRd dt portAddr => portWait s (portOf portAddr) dt
    | .ioWr dt portAddr _ => portWait s (portOf portAddr) dt
    | _ => 0

/-! ### The I/O bus -/

/-- R86: IO_RD's encoding; and it completes in every state, by the handler of the low byte of the port address. The
numbering of the draws, with the counter's step, is the model's choice (assumption 5); that a chip's byte may depend on
the matrix where no port's handler is KEYBOARD, and only there, is the model's inference from R92 (assumption 14). -/
def Obligations.IoRdAnswersByHandler : Prop :=
  (∀ w : Request, opOf w = 0x4 → subOf w = 0 → dOf w = 0 → decode w = .ok (.ioRd (dtOf w) (aOf w))) ∧
  ∀ (s : State) (dt : Byte) (portAddr : Addr),
  ∃ (t : State) (r : Response), exec (.ioRd dt portAddr) s = .next t ∧ t.response = some r ∧
    r.wait = BitVec.ofNat 8 (waitCycles s.cfg s.line s.acc s.cpl (s.cfg.contendedPort (portAddr.setWidth 8)) dt) ∧
    r.irq = irqLevel t ∧
    match s.cfg.handler (portAddr.setWidth 8) with
    | .periph c k =>
      ((∀ p j, s.cfg.handler p ≠ .keyboard j) →
        r.data = Config.chipReadByte c k (some s.matrix) (chipState s.chips c)) ∧
      ((∃ p j, s.cfg.handler p = .keyboard j) →
        r.data = Config.chipReadByte c k none (chipState s.chips c)) ∧
      t = { s with chips := t.chips, response := some r } ∧
      (c ∈ s.chips.map Prod.fst →
        chipState t.chips c = Config.chipReadNext c k (chipState s.chips c)) ∧
      (∀ d, d ≠ c → chipState t.chips d = chipState s.chips d)
    | .bankctl _ =>
      r.data = Config.draw (.readBack (portAddr.setWidth 8)) s.draws ∧
      t = { s with draws := s.draws + 1, response := some r }
    | .border =>
      r.data = Config.draw (.readBack (portAddr.setWidth 8)) s.draws ∧
      t = { s with draws := s.draws + 1, response := some r }
    | .joystick => r.data = s.joy ∧ t = { s with response := some r }
    | .keyboard k => r.data = s.cfg.readKeyboard k s.matrix ∧ t = { s with response := some r }
    | .unmapped => r.data = 0xFF ∧ t = { s with response := some r }

/-- R87: IO_WR's encoding; and it completes in every state, by the handler of the low byte of the port address. -/
def Obligations.IoWrActsByHandler : Prop :=
  (∀ w : Request, opOf w = 0x5 → subOf w = 0 → (dOf w).toNat < 256 →
    decode w = .ok (.ioWr (dtOf w) (aOf w) ((dOf w).setWidth 8))) ∧
  ∀ (s : State) (dt : Byte) (portAddr : Addr) (v : Byte),
  ∃ (t : State) (r : Response), exec (.ioWr dt portAddr v) s = .next t ∧ t.response = some r ∧ r.data = 0x00 ∧
    r.wait = BitVec.ofNat 8 (waitCycles s.cfg s.line s.acc s.cpl (s.cfg.contendedPort (portAddr.setWidth 8)) dt) ∧
    r.irq = irqLevel t ∧
    match s.cfg.handler (portAddr.setWidth 8) with
    | .periph c k =>
      t = { s with chips := t.chips, response := some r } ∧
      (c ∈ s.chips.map Prod.fst → chipState t.chips c = Config.chipWrite c k v (chipState s.chips c)) ∧
      (∀ d, d ≠ c → chipState t.chips d = chipState s.chips d)
    | .bankctl j => t = { s with bank := s.cfg.bankctlDecode j v s.bank, response := some r }
    | .border => t = { s with border := v, response := some r }
    | .joystick => t = { s with response := some r }
    | .keyboard _ => t = { s with response := some r }
    | .unmapped => t = { s with response := some r }

/-- R57: a bank-control write is seen by the very next memory transaction, at every address: no stale resolution. -/
def Obligations.BankControlWriteIsSeenAtOnce : Prop :=
  ∀ (s : State) (dt : Byte) (portAddr : Addr) (v : Byte) (j : Nat),
    s.cfg.handler (portOf portAddr) = .bankctl j →
    ∃ t, exec (.ioWr dt portAddr v) s = .next t ∧
      ∀ (isFetch : Bool) (dt' : Byte) (addr : Addr) (data : Byte),
        let place := resolve s.cfg (s.cfg.bankctlDecode j v s.bank) addr
        (∃ (u : State) (r : Response), exec (.memRd isFetch dt' addr) t = .next u ∧ u.response = some r ∧
          r.data = backRead s place.1 place.2) ∧
        (∃ (u : State) (r : Response), exec (.memPeek isFetch addr) t = .next u ∧ u.response = some r ∧
          r.data = backRead s place.1 place.2) ∧
        ∃ u : State, exec (.memWr dt' addr data) t = .next u ∧
          u = { backWrite t place.1 place.2 data with response := u.response }

/-- R88: a write to a bank-control register sets the bank by the configuration's decode of it; and the default layout. -/
def Obligations.BankControlWriteSetsTheBank : Prop :=
  ∀ (s : State) (dt : Byte) (portAddr : Addr) (v : Byte) (j : Nat), s.cfg.handler (portAddr.setWidth 8) = .bankctl j →
    ∃ t, exec (.ioWr dt portAddr v) s = .next t ∧ t.bank = s.cfg.bankctlDecode j v s.bank ∧
      (s.cfg.bankctl = [(0, Config.defaultLayout)] →
        (j = 0 → t.bank =
          { lowerRam := v.getLsbD 0, overlay := v.getLsbD 1, extWin := v.getLsbD 2, negA15 := v.getLsbD 3
            page := v.extractLsb' 4 4 }) ∧
        (j ≠ 0 → t.bank = s.bank))

/-! ### The raster -/

/-- R104, R105, R111(a), (b): TICK completes and moves the accumulator, the line counter and the latch. -/
def Obligations.TickMovesTheCountersAndTheLatch : Prop := ∀ (s : State) (n : BitVec 32),
  1 ≤ s.cpl → s.line < s.cfg.totalLines → ∃ t, exec (.tick n) s = .next t ∧
    t.acc = (s.acc + n.toNat) % s.cpl ∧ t.acc < t.cpl ∧
    t.line = (s.line + (s.acc + n.toNat) / s.cpl) % s.cfg.totalLines ∧
    t.latch = (s.latch || decide (s.cfg.totalLines ≤ s.line + (s.acc + n.toNat) / s.cpl))

/-- R104: what TICK leaves: every piece of state but the raster's and the chips', each chip being ticked. -/
def Obligations.TickFrame : Prop := ∀ (s : State) (n : BitVec 32),
  ∃ (t : State) (r : Response), exec (.tick n) s = .next t ∧ t.response = some r ∧ r.data = 0x00 ∧ r.wait = 0 ∧
    r.irq = irqLevel t ∧ t.chips = s.chips.map (fun e => (e.1, chipTick e.1 n.toNat e.2)) ∧
    t = { s with
      acc := t.acc, line := t.line, borderTab := t.borderTab, fb := t.fb, blinkCnt := t.blinkCnt
      blinkFlag := t.blinkFlag, latch := t.latch, chips := t.chips, response := t.response }

/-- R104, R127(b): `TICK 0` with the accumulator inside its line changes nothing but the response. -/
def Obligations.TickZeroChangesNothing : Prop := ∀ s : State, s.acc < s.cpl →
  exec (.tick 0) s = .next { s with response := some { data := 0, wait := 0, irq := irqLevel s } }

/-- R104: TICK's encoding; and TICK is the rule's own: the while loop, which takes `(acc + n) div cpl` turns and then
has ended, then the chips, then the response. -/
def Obligations.TickIsTheRulesLoop : Prop :=
  (∀ w : Request, opOf w = 0x6 → subOf w = 0 → dtOf w = 0 → decode w = .ok (.tick (w.extractLsb' 0 32))) ∧
  ∀ (s : State) (n : BitVec 32), 1 ≤ s.cpl →
    let entered : State := { s with acc := s.acc + n.toNat }
    let turns := (s.acc + n.toNat) / s.cpl
    (∀ k, k < turns → (tickLoop k entered).cpl ≤ (tickLoop k entered).acc ∧
      tickLoop (k + 1) entered =
        lineEnd { tickLoop k entered with acc := (tickLoop k entered).acc - (tickLoop k entered).cpl }) ∧
    (tickLoop turns entered).acc < (tickLoop turns entered).cpl ∧
    exec (.tick n) s = respond (tickChips (tickLoop turns entered) n.toNat) 0x00 0

/-- R111(d), R157: a frame is `TOTAL_LINES * cpl` cycles: after as many the raster stands where it stood, the latch
is set and every border entry holds the border; and from the frame's start fewer cycles do not set the latch. -/
def Obligations.OneFrameIsTotalLinesTimesCpl : Prop := ∀ (s : State) (n : BitVec 32),
  1 ≤ s.cpl → s.line < s.cfg.totalLines → s.acc < s.cpl → s.borderTab.length = s.cfg.totalLines →
  ∃ t, exec (.tick n) s = .next t ∧
    (n.toNat = s.cfg.totalLines * s.cpl → t.line = s.line ∧ t.acc = s.acc ∧ t.latch = true ∧
      ∀ L, L < s.cfg.totalLines → t.borderTab.getD L 0 = s.border) ∧
    (n.toNat < s.cfg.totalLines * s.cpl → s.line = 0 → s.acc = 0 → t.latch = s.latch)

/-- R105: after a TICK the border entry of each line that ended holds the border register, and every other entry is
as it was. -/
def Obligations.BorderIsRecordedForEveryEndedLine : Prop := ∀ (s : State) (n : BitVec 32),
  1 ≤ s.cpl → s.line < s.cfg.totalLines → s.borderTab.length = s.cfg.totalLines →
  ∃ t, exec (.tick n) s = .next t ∧ ∀ L, t.borderTab.getD L 0 =
    if ∃ j, j < (s.acc + n.toNat) / s.cpl ∧ (s.line + j) % s.cfg.totalLines = L then s.border
    else s.borderTab.getD L 0

/-- R106: after a TICK the blink counter and flag, for either blink unit: the flag toggles at every `BLINK_PERIOD`-th
boundary of the unit. -/
def Obligations.BlinkPhaseCountsItsUnit : Prop := ∀ (s : State) (n : BitVec 32),
  1 ≤ s.cpl → s.line < s.cfg.totalLines → s.blinkCnt < s.cfg.blinkPeriod →
  let lines := (s.acc + n.toNat) / s.cpl
  let boundaries := match s.cfg.blinkUnit with
    | .line => lines
    | .frame => (s.line + lines) / s.cfg.totalLines
  ∃ t, exec (.tick n) s = .next t ∧
    t.blinkCnt = (s.blinkCnt + boundaries) % s.cfg.blinkPeriod ∧
    t.blinkFlag = s.blinkFlag.xor (decide ((s.blinkCnt + boundaries) / s.cfg.blinkPeriod % 2 = 1))

/-- R105, R107, R108: a TICK that ends one line decodes it into its frame-buffer row if it is visible, by the video
store and the blink flag as they stand before, and leaves every other row. -/
def Obligations.VisibleLineIsDecodedAtItsBoundary : Prop := ∀ (s : State) (n : BitVec 32),
  1 ≤ s.cpl → (s.acc + n.toNat) / s.cpl = 1 → s.fb.length = s.cfg.fbH →
  ∃ t, exec (.tick n) s = .next t ∧
    (¬ (s.cfg.firstVisible ≤ s.line ∧ s.line < s.cfg.firstVisible + s.cfg.fbH) → t.fb = s.fb) ∧
    (s.cfg.firstVisible ≤ s.line → s.line < s.cfg.firstVisible + s.cfg.fbH →
      (∀ xb i, xb < s.cfg.fbW / 8 → i < 8 →
        let y := s.line - s.cfg.firstVisible
        let p := videoByte s (s.cfg.pixAddr.eval y xb)
        let a := videoByte s (s.cfg.attrAddr.eval y xb)
        fbPixel t y (8 * xb + i) =
          if (p.getLsbD (7 - i)).xor (s.blinkFlag && s.cfg.blinkAttr a) = true
          then s.cfg.fgColour a else s.cfg.bgColour a) ∧
      (∀ y x, y ≠ s.line - s.cfg.firstVisible → fbPixel t y x = fbPixel s y x))

/-- R107: the raster reads its store directly, for either video source, and does not see the bank flags: with other
flags a TICK does the same. -/
def Obligations.RasterIgnoresTheBankFlags : Prop := ∀ (s t : State) (b : Bank) (n : BitVec 32),
  (∀ k, s.cfg.videoSource = .vram → videoByte s k = backRead s .vram k) ∧
  (∀ k base, s.cfg.videoSource = .ram base → videoByte s k = backRead s .ram ((base.toNat + k) % 65536)) ∧
  (exec (.tick n) s = .next t → exec (.tick n) { s with bank := b } = .next { t with bank := b })

/-- R142, R148: an instruction of a host that keeps its duties moves the raster by its own cycles and every wait that
was reported for it. A count that does not fit its field, a `DT` or TICK's `n`, is no such instruction (the model's
choice, assumption 17). -/
def Obligations.HostInstructionAddsItsWaits : Prop :=
  ∀ (s t : State) (cycles : List (Nat × BusCycle)) (base waits : Nat),
    1 ≤ s.cpl → s.line < s.cfg.totalLines → base + waits < 2 ^ 32 →
    runBusCycles cycles 0 s = some (t, waits) →
    ∃ u, runHostInstr cycles base s = some u ∧ u.acc = (s.acc + base + waits) % s.cpl ∧
      u.line = (s.line + (s.acc + base + waits) / s.cpl) % s.cfg.totalLines

/-- R102, R103: SPEED's encoding; and SPEED is refused where clocks-per-line rounds to 0, else sets the clock and
clocks-per-line and nothing else. -/
def Obligations.SpeedSetsTheClock : Prop :=
  (∀ w : Request, opOf w = 0xB → subOf w = 0 → dtOf w = 0 → decode w = .ok (.speed (w.extractLsb' 0 32))) ∧
  ∀ (s : State) (khz : BitVec 32),
  ((2 * khz.toNat * s.cfg.lineRateDen + s.cfg.lineRateNum) / (2 * s.cfg.lineRateNum) < 1 →
    exec (.speed khz) s = .refused .speedTooLow) ∧
  (1 ≤ (2 * khz.toNat * s.cfg.lineRateDen + s.cfg.lineRateNum) / (2 * s.cfg.lineRateNum) →
    exec (.speed khz) s = .next { s with
      clockKHz := khz.toNat
      cpl := (2 * khz.toNat * s.cfg.lineRateDen + s.cfg.lineRateNum) / (2 * s.cfg.lineRateNum)
      response := some { data := 0, wait := 0, irq := irqLevel s } })

/-- R109: VID_PIX's encoding; and it reads its frame-buffer entry and changes nothing; outside the frame buffer it is
refused. -/
def Obligations.VidPixReadsItsEntry : Prop :=
  (∀ w : Request, opOf w = 0xC → subOf w = 0 → dtOf w = 0 → decode w = .ok (.vidPix (aOf w) (dOf w))) ∧
  ∀ (s : State) (x y : BitVec 16),
  (s.cfg.fbW ≤ x.toNat ∨ s.cfg.fbH ≤ y.toNat → exec (.vidPix x y) s = .refused .pixelOutOfRange) ∧
  (x.toNat < s.cfg.fbW → y.toNat < s.cfg.fbH → exec (.vidPix x y) s = .next { s with
    response := some { data := fbPixel s y.toNat x.toNat, wait := 0, irq := irqLevel s } })

/-- R110: VID_BORDER's encoding; and it reads the entry of `|line| mod TOTAL_LINES` and changes nothing. -/
def Obligations.VidBorderReadsTheWrappedEntry : Prop :=
  (∀ w : Request, opOf w = 0xD → subOf w = 0 → dtOf w = 0 → decode w = .ok (.vidBorder (w.extractLsb' 0 32))) ∧
  ∀ (s : State) (line : BitVec 32),
  exec (.vidBorder line) s = .next { s with
    response := some
      { data := s.borderTab.getD (line.toInt.natAbs % s.cfg.totalLines) 0, wait := 0, irq := irqLevel s } }

/-- R111(c): the wrap law: a border query equals the query of its wrapped line. -/
def Obligations.BorderWrapLaw : Prop := ∀ (s : State) (line : BitVec 32),
  1 ≤ s.cfg.totalLines → s.cfg.totalLines ≤ 2 ^ 31 →
  exec (.vidBorder line) s = exec (.vidBorder (BitVec.ofNat 32 (line.toInt.natAbs % s.cfg.totalLines))) s

/-! ### Interrupts -/

/-- R112, R128: INT_QUERY's encoding; it answers the aggregated request and changes nothing; the request is up exactly
when some registered source is pending, which for VIDEO is its latch (R126) and for a chip that chip's own bit (R125);
and the same level is in the response of every transaction. -/
def Obligations.IntQueryAnswersTheRequestLevel : Prop := decode 0x700000000000 = .ok .intQuery ∧ ∀ s : State,
  exec .intQuery s = .next { s with
    response := some { data := if irqLevel s then 0x01 else 0x00, wait := 0, irq := irqLevel s } } ∧
  (irqLevel s = true ↔ ∃ src ∈ s.cfg.sourceOrder, pending s src = true) ∧
  pending s .video = s.latch ∧
  ((s.chips.map Prod.fst).Nodup → ∀ c st, (c, st) ∈ s.chips → pending s (.chip c) = st.pending) ∧
  ∀ (i : Instr) (t : State), exec i s = .next t → ∃ r, t.response = some r ∧ r.irq = irqLevel t

/-- R113, R129: INT_ACK's encoding; it accepts the first pending source of the registration order, and it alone; with
no source pending it answers `0xFF` and changes nothing. -/
def Obligations.IntAckServesTheFirstPendingSource : Prop := decode 0x800000000000 = .ok .intAck ∧ ∀ s : State,
  ((∀ q ∈ s.cfg.sourceOrder, pending s q = false) →
    select s = none ∧
    exec .intAck s = .next { s with response := some { data := 0xFF, wait := 0, irq := false } }) ∧
  ∀ (before after : List Source) (src : Source),
    s.cfg.sourceOrder = before ++ src :: after → (∀ q ∈ before, pending s q = false) → pending s src = true →
    select s = some src ∧
    ∃ (t : State) (r : Response), exec .intAck s = .next t ∧ t.response = some r ∧ r.wait = 0 ∧
      r.irq = irqLevel t ∧ (∀ q, q ≠ src → pending t q = pending s q) ∧
      match src with
      | .video => r.data = s.cfg.videoIrqByte ∧ t = { s with latch := false, response := some r }
      | .chip c =>
        r.data = (Config.chipAccept c (chipState s.chips c)).1 ∧
        t = { s with chips := t.chips, response := some r } ∧
        (c ∈ s.chips.map Prod.fst → chipState t.chips c = (Config.chipAccept c (chipState s.chips c)).2) ∧
        (∀ d, d ≠ c → chipState t.chips d = chipState s.chips d)

/-- R114: INT_FIN's encoding; and it completes in every state; each registered chip's finish is applied once, VIDEO's
does nothing, and nothing else changes. -/
def Obligations.IntFinFinishesEveryChip : Prop := decode 0x900000000000 = .ok .intFin ∧ ∀ s : State,
  ∃ (t : State) (r : Response), exec .intFin s = .next t ∧ t.response = some r ∧ r.data = 0 ∧ r.wait = 0 ∧
    r.irq = irqLevel t ∧ t = { s with chips := t.chips, response := some r } ∧
    (s.cfg.sourceOrder.Nodup → ∀ c, c ∈ s.chips.map Prod.fst →
      chipState t.chips c = if Source.chip c ∈ s.cfg.sourceOrder
        then Config.chipFinish c (chipState s.chips c) else chipState s.chips c)

/-- R72, R73, R128: every completed transaction answers a response whose word holds the data, the wait, the request
level after the transaction in bit 16, and zeros above. -/
def Obligations.ResponseWordCarriesTheRequestLevel : Prop := ∀ (i : Instr) (s t : State),
  exec i s = .next t → ∃ r, t.response = some r ∧
    (responseWord r).extractLsb' 0 8 = r.data ∧ (responseWord r).extractLsb' 8 8 = r.wait ∧
    (responseWord r).getLsbD 16 = irqLevel t ∧ (responseWord r).extractLsb' 17 15 = 0

/-! ### The input side -/

/-- R115: KEY_SET's encoding; and it ors its mask into one row and changes nothing else; a row the matrix does not have
is refused. -/
def Obligations.KeySetOrsOneRow : Prop :=
  (∀ w : Request, opOf w = 0xE → subOf w = 0 → dtOf w = 0 → (dOf w).toNat < 256 →
    decode w = .ok (.keySet (aOf w) ((dOf w).setWidth 8))) ∧
  ∀ (s : State) (row : BitVec 16) (mask : Byte),
  (s.cfg.kbdRows ≤ row.toNat → exec (.keySet row mask) s = .refused .rowOutOfRange) ∧
  (row.toNat < s.cfg.kbdRows → s.matrix.length = s.cfg.kbdRows →
    ∃ t, exec (.keySet row mask) s = .next t ∧
      t = { s with matrix := t.matrix, response := some { data := 0, wait := 0, irq := irqLevel s } } ∧
      t.matrix.length = s.matrix.length ∧
      ∀ k, t.matrix.getD k 0 = if k = row.toNat then s.matrix.getD k 0 ||| mask else s.matrix.getD k 0)

/-- R116: KEY_RELEASE's encoding; and it clears every row, from any state, and changes nothing else. -/
def Obligations.KeyReleaseClearsTheMatrix : Prop := decode 0xE10000000000 = .ok .keyRelease ∧ ∀ s : State,
  ∃ t, exec .keyRelease s = .next t ∧
    t = { s with matrix := t.matrix, response := some { data := 0, wait := 0, irq := irqLevel s } } ∧
    t.matrix = List.replicate s.matrix.length 0

/-- R117, R91: JOY_SET's encoding; and it replaces the mask and nothing else, and a joystick port then reads it
verbatim. -/
def Obligations.JoySetIsReadVerbatim : Prop :=
  (∀ w : Request, opOf w = 0xE → subOf w = 2 → dtOf w = 0 → aOf w = 0 → (dOf w).toNat < 256 →
    decode w = .ok (.joySet ((dOf w).setWidth 8))) ∧
  ∀ (s : State) (mask : Byte),
  ∃ t, exec (.joySet mask) s = .next t ∧
    t = { s with joy := mask, response := some { data := 0, wait := 0, irq := irqLevel s } } ∧
    ∀ (dt : Byte) (portAddr : Addr), s.cfg.handler (portOf portAddr) = .joystick →
      ∃ (u : State) (r : Response), exec (.ioRd dt portAddr) t = .next u ∧ u.response = some r ∧ r.data = mask

/-! ### Reset -/

/-- R118: RESET.POWERON. A draw is the free value of the reset's own number, `s.draws` (the model's choice, assumption
5); what is supplied is the next entry of `s.supplies` (the model's choice, assumption 4), the disk image at the length
of its type (assumption 12). -/
def Obligations.PowerOnResetsAllButClockAndInput : Prop := decode 0xA00000000000 = .ok .resetPowerOn ∧ ∀ s : State,
  ∃ (t : State) (r : Response), exec .resetPowerOn s = .next t ∧ t.response = some r ∧ r.data = 0 ∧ r.wait = 0 ∧
    r.irq = irqLevel t ∧
    t.chips = s.chips.map (fun e => (e.1, Config.chipReset e.1 .powerOn e.2)) ∧
    t.bank.lowerRam = false ∧ t.bank.overlay = false ∧ t.bank.extWin = false ∧
    t.bank.negA15 = (Config.draw .negA15 s.draws).getLsbD 0 ∧
    t.bank.page = (Config.draw .page s.draws).setWidth 4 ∧ t.border = Config.draw .border s.draws ∧
    t.line = 0 ∧ t.acc = 0 ∧ t.cpl = s.cfg.cplOf s.clockKHz ∧ t.blinkCnt = 0 ∧ t.blinkFlag = false ∧
    t.latch = false ∧ t.borderTab = List.replicate s.cfg.totalLines 0 ∧
    (∀ y x, fbPixel t y x = Config.draw (.fb y x) s.draws) ∧
    (∀ a, ramByte t a = Config.draw (.ram a) s.draws) ∧ (∀ k, vramByte t k = Config.draw (.vram k) s.draws) ∧
    (∀ k, extByte t k = Config.draw (.ext k) s.draws) ∧
    (∀ (u : Supply) (rest : List Supply), s.supplies = u :: rest →
      t.supplies = (if rest = [] then [u] else rest) ∧
      (∀ (i : Nat) (q : RomCfg), s.cfg.roms[i]? = some q →
        t.romImg[i]? = some (((u.roms[i]?).join).or q.defaultImg)) ∧
      (u.disk = none → t.diskImg = none) ∧
      (∀ img, u.disk = some img → ∃ d, t.diskImg = some d ∧ d.length = s.cfg.diskLen ∧
        ∀ k, k < s.cfg.diskLen → d.getD k 0 = img.getD k 0xFF)) ∧
    (s.supplies = [] → t.supplies = [] ∧ t.diskImg = none ∧
      ∀ (i : Nat) (q : RomCfg), s.cfg.roms[i]? = some q → t.romImg[i]? = some q.defaultImg) ∧
    t.clockKHz = s.clockKHz ∧ t.matrix = s.matrix ∧ t.joy = s.joy

/-- R119: RESET.COLD: the chips, the bank, the border, the raster and the frame buffer, and no byte of any store. A draw
is the free value of the reset's own number, `s.draws` (the model's choice, assumption 5). -/
def Obligations.ColdResetKeepsTheStores : Prop := decode 0xA10000000000 = .ok .resetCold ∧ ∀ s : State,
  ∃ (t : State) (r : Response), exec .resetCold s = .next t ∧ t.response = some r ∧ r.data = 0 ∧ r.wait = 0 ∧
    r.irq = irqLevel t ∧
    t.chips = s.chips.map (fun e => (e.1, Config.chipReset e.1 .cold e.2)) ∧
    t.bank.lowerRam = false ∧ t.bank.overlay = false ∧ t.bank.extWin = false ∧
    t.bank.negA15 = (Config.draw .negA15 s.draws).getLsbD 0 ∧
    t.bank.page = (Config.draw .page s.draws).setWidth 4 ∧ t.border = Config.draw .border s.draws ∧
    t.line = 0 ∧ t.acc = 0 ∧ t.cpl = s.cfg.cplOf s.clockKHz ∧ t.blinkCnt = 0 ∧ t.blinkFlag = false ∧
    t.latch = false ∧ t.borderTab = List.replicate s.cfg.totalLines 0 ∧
    (∀ y x, fbPixel t y x = Config.draw (.fb y x) s.draws) ∧
    (∀ q o, backRead t q o = backRead s q o) ∧ t.romImg = s.romImg ∧ t.diskImg = s.diskImg ∧
    t.clockKHz = s.clockKHz ∧ t.matrix = s.matrix ∧ t.joy = s.joy

/-- R120: RESET.WARM: the chips, the bank and the border, and nothing else. A draw is the free value of the reset's own
number, `s.draws`, and the counter's step stands in the frame (the model's choice, assumption 5). -/
def Obligations.WarmResetKeepsTheRaster : Prop := decode 0xA20000000000 = .ok .resetWarm ∧ ∀ s : State,
  ∃ (t : State) (r : Response), exec .resetWarm s = .next t ∧ t.response = some r ∧ r.data = 0 ∧ r.wait = 0 ∧
    r.irq = irqLevel t ∧
    t.chips = s.chips.map (fun e => (e.1, Config.chipReset e.1 .warm e.2)) ∧
    t.bank.lowerRam = false ∧ t.bank.overlay = false ∧ t.bank.extWin = false ∧
    t.bank.negA15 = (Config.draw .negA15 s.draws).getLsbD 0 ∧
    t.bank.page = (Config.draw .page s.draws).setWidth 4 ∧ t.border = Config.draw .border s.draws ∧
    t = { s with chips := t.chips, bank := t.bank, border := t.border, draws := s.draws + 1, response := some r }

/-! ### Rules of the whole machine -/

/-- R18 to R22, R24, R88, R90: only a bank-control write and a reset change the bank, only a border write and a reset
change the border register. -/
def Obligations.BankAndBorderChangeOnlyByPortsAndReset : Prop := ∀ (i : Instr) (s t : State), exec i s = .next t →
  (t.bank ≠ s.bank →
    (∃ dt portAddr v j, i = .ioWr dt portAddr v ∧ s.cfg.handler (portOf portAddr) = .bankctl j ∧
      t.bank = s.cfg.bankctlDecode j v s.bank) ∨
    i = .resetPowerOn ∨ i = .resetCold ∨ i = .resetWarm) ∧
  (t.border ≠ s.border →
    (∃ dt portAddr v, i = .ioWr dt portAddr v ∧ s.cfg.handler (portOf portAddr) = .border ∧ t.border = v) ∨
    i = .resetPowerOn ∨ i = .resetCold ∨ i = .resetWarm)

/-- R59, R62, R67: only MEM_WR and PowerOn change a byte of a backing store, and only PowerOn a ROM image. -/
def Obligations.StoresChangeOnlyByMemWrAndPowerOn : Prop := ∀ (i : Instr) (s t : State), exec i s = .next t →
  (∀ q o, backRead t q o ≠ backRead s q o → (∃ dt addr v, i = .memWr dt addr v) ∨ i = .resetPowerOn) ∧
  (t.romImg ≠ s.romImg → i = .resetPowerOn)

/-- R40, R41, R66: only the input side's transactions change the matrix and the joystick mask; and no transaction
writes the configuration (R8). That what is yet to be supplied changes at a PowerOn only is the model's choice
(assumption 4). -/
def Obligations.InputStateChangesOnlyByTheInputSide : Prop := ∀ (i : Instr) (s t : State), exec i s = .next t →
  (t.matrix ≠ s.matrix → (∃ row mask, i = .keySet row mask) ∨ i = .keyRelease) ∧
  (t.joy ≠ s.joy → ∃ mask, i = .joySet mask) ∧
  t.cfg = s.cfg ∧ (t.supplies ≠ s.supplies → i = .resetPowerOn)

/-- R25 to R31, R34, R137: only TICK, PowerOn and ColdReset move the raster and decode, and only SPEED changes the
clock. -/
def Obligations.RasterMovesOnlyByTickAndReset : Prop := ∀ (i : Instr) (s t : State), exec i s = .next t →
  ((t.line ≠ s.line ∨ t.acc ≠ s.acc ∨ t.blinkCnt ≠ s.blinkCnt ∨ t.blinkFlag ≠ s.blinkFlag ∨
      t.borderTab ≠ s.borderTab ∨ t.fb ≠ s.fb) →
    (∃ n, i = .tick n) ∨ i = .resetPowerOn ∨ i = .resetCold) ∧
  (t.clockKHz ≠ s.clockKHz → ∃ khz, i = .speed khz) ∧
  (t.cpl ≠ s.cpl → (∃ khz, i = .speed khz) ∨ i = .resetPowerOn ∨ i = .resetCold)

/-- R111(b), R32: the latch rises only in a TICK that ends the last line, and falls only when VIDEO is accepted or
the block is reset by PowerOn or ColdReset. -/
def Obligations.LatchRisesAtTheWrapAndFallsAtAcceptance : Prop := ∀ (i : Instr) (s t : State),
  s.line < s.cfg.totalLines → exec i s = .next t →
  (s.latch = false → t.latch = true →
    ∃ n, i = .tick n ∧ s.cfg.totalLines ≤ s.line + (s.acc + n.toNat) / s.cpl) ∧
  (s.latch = true → t.latch = false →
    (i = .intAck ∧ select s = some .video) ∨ i = .resetPowerOn ∨ i = .resetCold)

/-! ### Backing-store reads -/

/-- R58: what a backing read gives: open bus, an absent image and an offset past an image's end read `0xFF`; an image
gives its byte; a RAM gives the byte written last, and where nothing is written since PowerOn the free value that the
PowerOn drew (the representation of the RAMs and of their draws is the model's choice, assumptions 5 and 7). -/
def Obligations.BackReadGivesTheStoredByte : Prop := ∀ (s : State) (off : Nat),
  backRead s .openBus off = 0xFF ∧
  (s.diskImg = none → backRead s .disk off = 0xFF) ∧
  (∀ img, s.diskImg = some img → img.length ≤ off → backRead s .disk off = 0xFF) ∧
  (∀ img b, s.diskImg = some img → img[off]? = some b → backRead s .disk off = b) ∧
  (∀ i, s.romImg[i]? = some none → backRead s (.rom i) off = 0xFF) ∧
  (∀ i img, s.romImg[i]? = some (some img) → img.length ≤ off → backRead s (.rom i) off = 0xFF) ∧
  (∀ i img b, s.romImg[i]? = some (some img) → img[off]? = some b → backRead s (.rom i) off = b) ∧
  (∀ b, Memory.wf s.ram = true → (off, b) ∈ s.ram → backRead s .ram off = b) ∧
  (∀ b, Memory.wf s.vram = true → (off, b) ∈ s.vram → backRead s .vram off = b) ∧
  (∀ b, Memory.wf s.ext = true → (off, b) ∈ s.ext → backRead s .ext off = b) ∧
  ((∀ c ∈ s.ram, c.1 ≠ off) → backRead s .ram off = Config.draw (.ram off) s.powerDraw) ∧
  ((∀ c ∈ s.vram, c.1 ≠ off) → backRead s .vram off = Config.draw (.vram off) s.powerDraw) ∧
  ((∀ c ∈ s.ext, c.1 ≠ off) → backRead s .ext off = Config.draw (.ext off) s.powerDraw)
end

