-- ==== Sys2Proof/Laws/Encoding.lean ====
section
/-! SUPPORT. The laws of the request word's fields: `pack` and the field readers are inverse, field by field. -/

namespace Sys2Proof

@[simp] theorem opOf_pack (op sub : BitVec 4) (dt : Byte) (a d : BitVec 16) : opOf (pack op sub dt a d) = op := by
  apply BitVec.eq_of_getLsbD_eq
  intro i hi
  simp only [opOf, pack, BitVec.getLsbD_extractLsb', BitVec.getLsbD_append]
  have h1 : ¬ 44 + i < 16 := by omega
  have h2 : ¬ 44 + i - 16 < 16 := by omega
  have h3 : ¬ 44 + i - 16 - 16 < 8 := by omega
  have h4 : ¬ 44 + i - 16 - 16 - 8 < 4 := by omega
  have h5 : 44 + i - 16 - 16 - 8 - 4 = i := by omega
  simp [hi, h1, h2, h3, h4, h5]

@[simp] theorem subOf_pack (op sub : BitVec 4) (dt : Byte) (a d : BitVec 16) : subOf (pack op sub dt a d) = sub := by
  apply BitVec.eq_of_getLsbD_eq
  intro i hi
  simp only [subOf, pack, BitVec.getLsbD_extractLsb', BitVec.getLsbD_append]
  have h1 : ¬ 40 + i < 16 := by omega
  have h2 : ¬ 40 + i - 16 < 16 := by omega
  have h3 : ¬ 40 + i - 16 - 16 < 8 := by omega
  have h4 : 40 + i - 16 - 16 - 8 < 4 := by omega
  have h5 : 40 + i - 16 - 16 - 8 = i := by omega
  simp [hi, h1, h2, h3, h5]

@[simp] theorem dtOf_pack (op sub : BitVec 4) (dt : Byte) (a d : BitVec 16) : dtOf (pack op sub dt a d) = dt := by
  apply BitVec.eq_of_getLsbD_eq
  intro i hi
  simp only [dtOf, pack, BitVec.getLsbD_extractLsb', BitVec.getLsbD_append]
  have h1 : ¬ 32 + i < 16 := by omega
  have h2 : ¬ 32 + i - 16 < 16 := by omega
  have h5 : 32 + i - 16 - 16 = i := by omega
  simp [hi, h1, h2, h5]

@[simp] theorem aOf_pack (op sub : BitVec 4) (dt : Byte) (a d : BitVec 16) : aOf (pack op sub dt a d) = a := by
  apply BitVec.eq_of_getLsbD_eq
  intro i hi
  simp only [aOf, pack, BitVec.getLsbD_extractLsb', BitVec.getLsbD_append]
  have h1 : ¬ 16 + i < 16 := by omega
  have h5 : 16 + i - 16 = i := by omega
  simp [hi, h1, h5]

@[simp] theorem dOf_pack (op sub : BitVec 4) (dt : Byte) (a d : BitVec 16) : dOf (pack op sub dt a d) = d := by
  apply BitVec.eq_of_getLsbD_eq
  intro i hi
  simp only [dOf, pack, BitVec.getLsbD_extractLsb', BitVec.getLsbD_append]
  simp [hi]

/-- A word is its five fields. -/
theorem pack_fields (w : Request) : pack (opOf w) (subOf w) (dtOf w) (aOf w) (dOf w) = w := by
  apply BitVec.eq_of_getLsbD_eq
  intro i hi
  simp only [pack, opOf, subOf, dtOf, aOf, dOf, BitVec.getLsbD_append, BitVec.getLsbD_extractLsb']
  by_cases h1 : i < 16
  · simp [h1]
  by_cases h2 : i - 16 < 16
  · simp [h1, h2, show 16 + (i - 16) = i by omega]
  by_cases h3 : i - 16 - 16 < 8
  · simp [h1, h2, h3, show 32 + (i - 16 - 16) = i by omega]
  by_cases h4 : i - 16 - 16 - 8 < 4
  · simp [h1, h2, h3, h4, show 40 + (i - 16 - 16 - 8) = i by omega]
  · simp [h1, h2, h3, h4, show 44 + (i - 16 - 16 - 8 - 4) = i by omega,
      show i - 16 - 16 - 8 - 4 < 4 by omega]

/-- A mask works field by field. -/
theorem pack_and (op sub op' sub' : BitVec 4) (dt dt' : Byte) (a d a' d' : BitVec 16) :
    pack op sub dt a d &&& pack op' sub' dt' a' d' =
      pack (op &&& op') (sub &&& sub') (dt &&& dt') (a &&& a') (d &&& d') := by
  apply BitVec.eq_of_getLsbD_eq
  intro i _
  simp only [pack, BitVec.getLsbD_and, BitVec.getLsbD_append]
  by_cases h1 : i < 16
  · simp [h1]
  by_cases h2 : i - 16 < 16
  · simp [h1, h2]
  by_cases h3 : i - 16 - 16 < 8
  · simp [h1, h2, h3]
  by_cases h4 : i - 16 - 16 - 8 < 4
  · simp [h1, h2, h3, h4]
  · simp [h1, h2, h3, h4]

@[simp] theorem nOf_high_low (n : BitVec 32) : nOf (nHigh n) (nLow n) = n := by
  apply BitVec.eq_of_getLsbD_eq
  intro i hi
  simp only [nOf, nHigh, nLow, BitVec.getLsbD_append, BitVec.getLsbD_extractLsb']
  by_cases h : i < 16
  · simp [h]
  · simp [h, show 16 + (i - 16) = i by omega, show i - 16 < 16 by omega]

@[simp] theorem nHigh_nOf (a d : BitVec 16) : nHigh (nOf a d) = a := by
  apply BitVec.eq_of_getLsbD_eq
  intro i hi
  simp only [nOf, nHigh, BitVec.getLsbD_append, BitVec.getLsbD_extractLsb']
  simp [hi]

@[simp] theorem nLow_nOf (a d : BitVec 16) : nLow (nOf a d) = d := by
  apply BitVec.eq_of_getLsbD_eq
  intro i hi
  simp only [nOf, nLow, BitVec.getLsbD_append, BitVec.getLsbD_extractLsb']
  simp [hi]

/-- `N` is bits 31:0 of the word. -/
theorem nOf_fields (w : Request) : nOf (aOf w) (dOf w) = w.extractLsb' 0 32 := by
  apply BitVec.eq_of_getLsbD_eq
  intro i hi
  simp only [nOf, aOf, dOf, BitVec.getLsbD_append, BitVec.getLsbD_extractLsb']
  by_cases h : i < 16
  · simp [h, hi]
  · simp [h, hi, show 16 + (i - 16) = i by omega, show i - 16 < 16 by omega]

/-- A `D` field below 256 is its data byte. -/
theorem data_of_lt {d : BitVec 16} (h : d.toNat < 256) : dataHigh d = 0 ∧ dataOf d = d.setWidth 8 := by
  refine ⟨BitVec.eq_of_toNat_eq ?_, BitVec.eq_of_toNat_eq ?_⟩
  · simp [dataHigh, Nat.shiftRight_eq_div_pow]
    omega
  · simp [dataOf]

@[simp] theorem dataOf_setWidth (b : Byte) : dataOf (b.setWidth 16) = b := by
  apply BitVec.eq_of_getLsbD_eq
  intro i hi
  simp [dataOf, hi]
  omega

@[simp] theorem dataHigh_setWidth (b : Byte) : dataHigh (b.setWidth 16) = 0 := by
  apply BitVec.eq_of_getLsbD_eq
  intro i hi
  simp [dataHigh]

/-- A `D` field whose upper byte is zero is its data byte. -/
theorem setWidth_dataOf {d : BitVec 16} (h : dataHigh d = 0) : (dataOf d).setWidth 16 = d := by
  apply BitVec.eq_of_getLsbD_eq
  intro i hi
  by_cases hl : i < 8
  · simp [dataOf, hi, hl]
  · have := congrArg (fun b : Byte => b.getLsbD (i - 8)) h
    simp only [dataHigh, BitVec.getLsbD_extractLsb', show 8 + (i - 8) = i by omega] at this
    have h8 : i - 8 < 8 := by omega
    simp only [h8, decide_true, Bool.true_and, BitVec.ofNat_eq_ofNat, BitVec.getLsbD_zero,
      BitVec.getLsbD_eq_getElem hi] at this
    simp [dataOf, hi, hl, this]

end Sys2Proof
end

