-- ==== Sys2Proof/Laws/State.lean ====
section
/-! SUPPORT. Beside State: for each operation, one lemma per field of State that it leaves alone, and the values of
the fields that the plain updates write. No later proof unfolds an operation to learn that it leaves a field. -/

namespace Sys2Proof.Machine

open Sys2Proof

/-! #### backWrite -/

@[simp] theorem backWrite_cfg (s : State) (r : Region) (off : Nat) (v : Byte) : (backWrite s r off v).cfg = s.cfg := by
  unfold backWrite; split <;> (try split) <;> rfl

@[simp] theorem backWrite_bank (s : State) (r : Region) (off : Nat) (v : Byte) : (backWrite s r off v).bank = s.bank := by
  unfold backWrite; split <;> (try split) <;> rfl

@[simp] theorem backWrite_border (s : State) (r : Region) (off : Nat) (v : Byte) : (backWrite s r off v).border = s.border := by
  unfold backWrite; split <;> (try split) <;> rfl

@[simp] theorem backWrite_line (s : State) (r : Region) (off : Nat) (v : Byte) : (backWrite s r off v).line = s.line := by
  unfold backWrite; split <;> (try split) <;> rfl

@[simp] theorem backWrite_acc (s : State) (r : Region) (off : Nat) (v : Byte) : (backWrite s r off v).acc = s.acc := by
  unfold backWrite; split <;> (try split) <;> rfl

@[simp] theorem backWrite_clockKHz (s : State) (r : Region) (off : Nat) (v : Byte) : (backWrite s r off v).clockKHz = s.clockKHz := by
  unfold backWrite; split <;> (try split) <;> rfl

@[simp] theorem backWrite_cpl (s : State) (r : Region) (off : Nat) (v : Byte) : (backWrite s r off v).cpl = s.cpl := by
  unfold backWrite; split <;> (try split) <;> rfl

@[simp] theorem backWrite_blinkCnt (s : State) (r : Region) (off : Nat) (v : Byte) : (backWrite s r off v).blinkCnt = s.blinkCnt := by
  unfold backWrite; split <;> (try split) <;> rfl

@[simp] theorem backWrite_blinkFlag (s : State) (r : Region) (off : Nat) (v : Byte) : (backWrite s r off v).blinkFlag = s.blinkFlag := by
  unfold backWrite; split <;> (try split) <;> rfl

@[simp] theorem backWrite_borderTab (s : State) (r : Region) (off : Nat) (v : Byte) : (backWrite s r off v).borderTab = s.borderTab := by
  unfold backWrite; split <;> (try split) <;> rfl

@[simp] theorem backWrite_latch (s : State) (r : Region) (off : Nat) (v : Byte) : (backWrite s r off v).latch = s.latch := by
  unfold backWrite; split <;> (try split) <;> rfl

@[simp] theorem backWrite_fb (s : State) (r : Region) (off : Nat) (v : Byte) : (backWrite s r off v).fb = s.fb := by
  unfold backWrite; split <;> (try split) <;> rfl

@[simp] theorem backWrite_romImg (s : State) (r : Region) (off : Nat) (v : Byte) : (backWrite s r off v).romImg = s.romImg := by
  unfold backWrite; split <;> (try split) <;> rfl

@[simp] theorem backWrite_matrix (s : State) (r : Region) (off : Nat) (v : Byte) : (backWrite s r off v).matrix = s.matrix := by
  unfold backWrite; split <;> (try split) <;> rfl

@[simp] theorem backWrite_joy (s : State) (r : Region) (off : Nat) (v : Byte) : (backWrite s r off v).joy = s.joy := by
  unfold backWrite; split <;> (try split) <;> rfl

@[simp] theorem backWrite_chips (s : State) (r : Region) (off : Nat) (v : Byte) : (backWrite s r off v).chips = s.chips := by
  unfold backWrite; split <;> (try split) <;> rfl

@[simp] theorem backWrite_response (s : State) (r : Region) (off : Nat) (v : Byte) : (backWrite s r off v).response = s.response := by
  unfold backWrite; split <;> (try split) <;> rfl

@[simp] theorem backWrite_requests (s : State) (r : Region) (off : Nat) (v : Byte) : (backWrite s r off v).requests = s.requests := by
  unfold backWrite; split <;> (try split) <;> rfl

@[simp] theorem backWrite_supplies (s : State) (r : Region) (off : Nat) (v : Byte) : (backWrite s r off v).supplies = s.supplies := by
  unfold backWrite; split <;> (try split) <;> rfl

@[simp] theorem backWrite_draws (s : State) (r : Region) (off : Nat) (v : Byte) : (backWrite s r off v).draws = s.draws := by
  unfold backWrite; split <;> (try split) <;> rfl

@[simp] theorem backWrite_powerDraw (s : State) (r : Region) (off : Nat) (v : Byte) : (backWrite s r off v).powerDraw = s.powerDraw := by
  unfold backWrite; split <;> (try split) <;> rfl

@[simp] theorem backWrite_fbDraw (s : State) (r : Region) (off : Nat) (v : Byte) : (backWrite s r off v).fbDraw = s.fbDraw := by
  unfold backWrite; split <;> (try split) <;> rfl

/-! #### memWrite -/

@[simp] theorem memWrite_cfg (s : State) (addr : Addr) (v : Byte) : (memWrite s addr v).cfg = s.cfg := by
  simp [memWrite]

@[simp] theorem memWrite_bank (s : State) (addr : Addr) (v : Byte) : (memWrite s addr v).bank = s.bank := by
  simp [memWrite]

@[simp] theorem memWrite_border (s : State) (addr : Addr) (v : Byte) : (memWrite s addr v).border = s.border := by
  simp [memWrite]

@[simp] theorem memWrite_line (s : State) (addr : Addr) (v : Byte) : (memWrite s addr v).line = s.line := by
  simp [memWrite]

@[simp] theorem memWrite_acc (s : State) (addr : Addr) (v : Byte) : (memWrite s addr v).acc = s.acc := by
  simp [memWrite]

@[simp] theorem memWrite_clockKHz (s : State) (addr : Addr) (v : Byte) : (memWrite s addr v).clockKHz = s.clockKHz := by
  simp [memWrite]

@[simp] theorem memWrite_cpl (s : State) (addr : Addr) (v : Byte) : (memWrite s addr v).cpl = s.cpl := by
  simp [memWrite]

@[simp] theorem memWrite_blinkCnt (s : State) (addr : Addr) (v : Byte) : (memWrite s addr v).blinkCnt = s.blinkCnt := by
  simp [memWrite]

@[simp] theorem memWrite_blinkFlag (s : State) (addr : Addr) (v : Byte) : (memWrite s addr v).blinkFlag = s.blinkFlag := by
  simp [memWrite]

@[simp] theorem memWrite_borderTab (s : State) (addr : Addr) (v : Byte) : (memWrite s addr v).borderTab = s.borderTab := by
  simp [memWrite]

@[simp] theorem memWrite_latch (s : State) (addr : Addr) (v : Byte) : (memWrite s addr v).latch = s.latch := by
  simp [memWrite]

@[simp] theorem memWrite_fb (s : State) (addr : Addr) (v : Byte) : (memWrite s addr v).fb = s.fb := by
  simp [memWrite]

@[simp] theorem memWrite_romImg (s : State) (addr : Addr) (v : Byte) : (memWrite s addr v).romImg = s.romImg := by
  simp [memWrite]

@[simp] theorem memWrite_matrix (s : State) (addr : Addr) (v : Byte) : (memWrite s addr v).matrix = s.matrix := by
  simp [memWrite]

@[simp] theorem memWrite_joy (s : State) (addr : Addr) (v : Byte) : (memWrite s addr v).joy = s.joy := by
  simp [memWrite]

@[simp] theorem memWrite_chips (s : State) (addr : Addr) (v : Byte) : (memWrite s addr v).chips = s.chips := by
  simp [memWrite]

@[simp] theorem memWrite_response (s : State) (addr : Addr) (v : Byte) : (memWrite s addr v).response = s.response := by
  simp [memWrite]

@[simp] theorem memWrite_requests (s : State) (addr : Addr) (v : Byte) : (memWrite s addr v).requests = s.requests := by
  simp [memWrite]

@[simp] theorem memWrite_supplies (s : State) (addr : Addr) (v : Byte) : (memWrite s addr v).supplies = s.supplies := by
  simp [memWrite]

@[simp] theorem memWrite_draws (s : State) (addr : Addr) (v : Byte) : (memWrite s addr v).draws = s.draws := by
  simp [memWrite]

@[simp] theorem memWrite_powerDraw (s : State) (addr : Addr) (v : Byte) : (memWrite s addr v).powerDraw = s.powerDraw := by
  simp [memWrite]

@[simp] theorem memWrite_fbDraw (s : State) (addr : Addr) (v : Byte) : (memWrite s addr v).fbDraw = s.fbDraw := by
  simp [memWrite]

/-! #### chipRead -/

@[simp] theorem chipRead_cfg (s : State) (c : ChipId) (k : Nat) : (chipRead s c k).2.cfg = s.cfg := rfl

@[simp] theorem chipRead_bank (s : State) (c : ChipId) (k : Nat) : (chipRead s c k).2.bank = s.bank := rfl

@[simp] theorem chipRead_border (s : State) (c : ChipId) (k : Nat) : (chipRead s c k).2.border = s.border := rfl

@[simp] theorem chipRead_line (s : State) (c : ChipId) (k : Nat) : (chipRead s c k).2.line = s.line := rfl

@[simp] theorem chipRead_acc (s : State) (c : ChipId) (k : Nat) : (chipRead s c k).2.acc = s.acc := rfl

@[simp] theorem chipRead_clockKHz (s : State) (c : ChipId) (k : Nat) : (chipRead s c k).2.clockKHz = s.clockKHz := rfl

@[simp] theorem chipRead_cpl (s : State) (c : ChipId) (k : Nat) : (chipRead s c k).2.cpl = s.cpl := rfl

@[simp] theorem chipRead_blinkCnt (s : State) (c : ChipId) (k : Nat) : (chipRead s c k).2.blinkCnt = s.blinkCnt := rfl

@[simp] theorem chipRead_blinkFlag (s : State) (c : ChipId) (k : Nat) : (chipRead s c k).2.blinkFlag = s.blinkFlag := rfl

@[simp] theorem chipRead_borderTab (s : State) (c : ChipId) (k : Nat) : (chipRead s c k).2.borderTab = s.borderTab := rfl

@[simp] theorem chipRead_latch (s : State) (c : ChipId) (k : Nat) : (chipRead s c k).2.latch = s.latch := rfl

@[simp] theorem chipRead_fb (s : State) (c : ChipId) (k : Nat) : (chipRead s c k).2.fb = s.fb := rfl

@[simp] theorem chipRead_ram (s : State) (c : ChipId) (k : Nat) : (chipRead s c k).2.ram = s.ram := rfl

@[simp] theorem chipRead_vram (s : State) (c : ChipId) (k : Nat) : (chipRead s c k).2.vram = s.vram := rfl

@[simp] theorem chipRead_ext (s : State) (c : ChipId) (k : Nat) : (chipRead s c k).2.ext = s.ext := rfl

@[simp] theorem chipRead_romImg (s : State) (c : ChipId) (k : Nat) : (chipRead s c k).2.romImg = s.romImg := rfl

@[simp] theorem chipRead_diskImg (s : State) (c : ChipId) (k : Nat) : (chipRead s c k).2.diskImg = s.diskImg := rfl

@[simp] theorem chipRead_matrix (s : State) (c : ChipId) (k : Nat) : (chipRead s c k).2.matrix = s.matrix := rfl

@[simp] theorem chipRead_joy (s : State) (c : ChipId) (k : Nat) : (chipRead s c k).2.joy = s.joy := rfl

@[simp] theorem chipRead_response (s : State) (c : ChipId) (k : Nat) : (chipRead s c k).2.response = s.response := rfl

@[simp] theorem chipRead_requests (s : State) (c : ChipId) (k : Nat) : (chipRead s c k).2.requests = s.requests := rfl

@[simp] theorem chipRead_supplies (s : State) (c : ChipId) (k : Nat) : (chipRead s c k).2.supplies = s.supplies := rfl

@[simp] theorem chipRead_draws (s : State) (c : ChipId) (k : Nat) : (chipRead s c k).2.draws = s.draws := rfl

@[simp] theorem chipRead_powerDraw (s : State) (c : ChipId) (k : Nat) : (chipRead s c k).2.powerDraw = s.powerDraw := rfl

@[simp] theorem chipRead_fbDraw (s : State) (c : ChipId) (k : Nat) : (chipRead s c k).2.fbDraw = s.fbDraw := rfl

/-! #### chipWrite -/

@[simp] theorem chipWrite_cfg (s : State) (c : ChipId) (k : Nat) (v : Byte) : (chipWrite s c k v).cfg = s.cfg := rfl

@[simp] theorem chipWrite_bank (s : State) (c : ChipId) (k : Nat) (v : Byte) : (chipWrite s c k v).bank = s.bank := rfl

@[simp] theorem chipWrite_border (s : State) (c : ChipId) (k : Nat) (v : Byte) : (chipWrite s c k v).border = s.border := rfl

@[simp] theorem chipWrite_line (s : State) (c : ChipId) (k : Nat) (v : Byte) : (chipWrite s c k v).line = s.line := rfl

@[simp] theorem chipWrite_acc (s : State) (c : ChipId) (k : Nat) (v : Byte) : (chipWrite s c k v).acc = s.acc := rfl

@[simp] theorem chipWrite_clockKHz (s : State) (c : ChipId) (k : Nat) (v : Byte) : (chipWrite s c k v).clockKHz = s.clockKHz := rfl

@[simp] theorem chipWrite_cpl (s : State) (c : ChipId) (k : Nat) (v : Byte) : (chipWrite s c k v).cpl = s.cpl := rfl

@[simp] theorem chipWrite_blinkCnt (s : State) (c : ChipId) (k : Nat) (v : Byte) : (chipWrite s c k v).blinkCnt = s.blinkCnt := rfl

@[simp] theorem chipWrite_blinkFlag (s : State) (c : ChipId) (k : Nat) (v : Byte) : (chipWrite s c k v).blinkFlag = s.blinkFlag := rfl

@[simp] theorem chipWrite_borderTab (s : State) (c : ChipId) (k : Nat) (v : Byte) : (chipWrite s c k v).borderTab = s.borderTab := rfl

@[simp] theorem chipWrite_latch (s : State) (c : ChipId) (k : Nat) (v : Byte) : (chipWrite s c k v).latch = s.latch := rfl

@[simp] theorem chipWrite_fb (s : State) (c : ChipId) (k : Nat) (v : Byte) : (chipWrite s c k v).fb = s.fb := rfl

@[simp] theorem chipWrite_ram (s : State) (c : ChipId) (k : Nat) (v : Byte) : (chipWrite s c k v).ram = s.ram := rfl

@[simp] theorem chipWrite_vram (s : State) (c : ChipId) (k : Nat) (v : Byte) : (chipWrite s c k v).vram = s.vram := rfl

@[simp] theorem chipWrite_ext (s : State) (c : ChipId) (k : Nat) (v : Byte) : (chipWrite s c k v).ext = s.ext := rfl

@[simp] theorem chipWrite_romImg (s : State) (c : ChipId) (k : Nat) (v : Byte) : (chipWrite s c k v).romImg = s.romImg := rfl

@[simp] theorem chipWrite_diskImg (s : State) (c : ChipId) (k : Nat) (v : Byte) : (chipWrite s c k v).diskImg = s.diskImg := rfl

@[simp] theorem chipWrite_matrix (s : State) (c : ChipId) (k : Nat) (v : Byte) : (chipWrite s c k v).matrix = s.matrix := rfl

@[simp] theorem chipWrite_joy (s : State) (c : ChipId) (k : Nat) (v : Byte) : (chipWrite s c k v).joy = s.joy := rfl

@[simp] theorem chipWrite_response (s : State) (c : ChipId) (k : Nat) (v : Byte) : (chipWrite s c k v).response = s.response := rfl

@[simp] theorem chipWrite_requests (s : State) (c : ChipId) (k : Nat) (v : Byte) : (chipWrite s c k v).requests = s.requests := rfl

@[simp] theorem chipWrite_supplies (s : State) (c : ChipId) (k : Nat) (v : Byte) : (chipWrite s c k v).supplies = s.supplies := rfl

@[simp] theorem chipWrite_draws (s : State) (c : ChipId) (k : Nat) (v : Byte) : (chipWrite s c k v).draws = s.draws := rfl

@[simp] theorem chipWrite_powerDraw (s : State) (c : ChipId) (k : Nat) (v : Byte) : (chipWrite s c k v).powerDraw = s.powerDraw := rfl

@[simp] theorem chipWrite_fbDraw (s : State) (c : ChipId) (k : Nat) (v : Byte) : (chipWrite s c k v).fbDraw = s.fbDraw := rfl

/-! #### tickChips -/

@[simp] theorem tickChips_cfg (s : State) (n : Nat) : (tickChips s n).cfg = s.cfg := rfl

@[simp] theorem tickChips_bank (s : State) (n : Nat) : (tickChips s n).bank = s.bank := rfl

@[simp] theorem tickChips_border (s : State) (n : Nat) : (tickChips s n).border = s.border := rfl

@[simp] theorem tickChips_line (s : State) (n : Nat) : (tickChips s n).line = s.line := rfl

@[simp] theorem tickChips_acc (s : State) (n : Nat) : (tickChips s n).acc = s.acc := rfl

@[simp] theorem tickChips_clockKHz (s : State) (n : Nat) : (tickChips s n).clockKHz = s.clockKHz := rfl

@[simp] theorem tickChips_cpl (s : State) (n : Nat) : (tickChips s n).cpl = s.cpl := rfl

@[simp] theorem tickChips_blinkCnt (s : State) (n : Nat) : (tickChips s n).blinkCnt = s.blinkCnt := rfl

@[simp] theorem tickChips_blinkFlag (s : State) (n : Nat) : (tickChips s n).blinkFlag = s.blinkFlag := rfl

@[simp] theorem tickChips_borderTab (s : State) (n : Nat) : (tickChips s n).borderTab = s.borderTab := rfl

@[simp] theorem tickChips_latch (s : State) (n : Nat) : (tickChips s n).latch = s.latch := rfl

@[simp] theorem tickChips_fb (s : State) (n : Nat) : (tickChips s n).fb = s.fb := rfl

@[simp] theorem tickChips_ram (s : State) (n : Nat) : (tickChips s n).ram = s.ram := rfl

@[simp] theorem tickChips_vram (s : State) (n : Nat) : (tickChips s n).vram = s.vram := rfl

@[simp] theorem tickChips_ext (s : State) (n : Nat) : (tickChips s n).ext = s.ext := rfl

@[simp] theorem tickChips_romImg (s : State) (n : Nat) : (tickChips s n).romImg = s.romImg := rfl

@[simp] theorem tickChips_diskImg (s : State) (n : Nat) : (tickChips s n).diskImg = s.diskImg := rfl

@[simp] theorem tickChips_matrix (s : State) (n : Nat) : (tickChips s n).matrix = s.matrix := rfl

@[simp] theorem tickChips_joy (s : State) (n : Nat) : (tickChips s n).joy = s.joy := rfl

@[simp] theorem tickChips_response (s : State) (n : Nat) : (tickChips s n).response = s.response := rfl

@[simp] theorem tickChips_requests (s : State) (n : Nat) : (tickChips s n).requests = s.requests := rfl

@[simp] theorem tickChips_supplies (s : State) (n : Nat) : (tickChips s n).supplies = s.supplies := rfl

@[simp] theorem tickChips_draws (s : State) (n : Nat) : (tickChips s n).draws = s.draws := rfl

@[simp] theorem tickChips_powerDraw (s : State) (n : Nat) : (tickChips s n).powerDraw = s.powerDraw := rfl

@[simp] theorem tickChips_fbDraw (s : State) (n : Nat) : (tickChips s n).fbDraw = s.fbDraw := rfl

/-! #### resetChips -/

@[simp] theorem resetChips_cfg (s : State) (level : ResetLevel) : (resetChips s level).cfg = s.cfg := rfl

@[simp] theorem resetChips_bank (s : State) (level : ResetLevel) : (resetChips s level).bank = s.bank := rfl

@[simp] theorem resetChips_border (s : State) (level : ResetLevel) : (resetChips s level).border = s.border := rfl

@[simp] theorem resetChips_line (s : State) (level : ResetLevel) : (resetChips s level).line = s.line := rfl

@[simp] theorem resetChips_acc (s : State) (level : ResetLevel) : (resetChips s level).acc = s.acc := rfl

@[simp] theorem resetChips_clockKHz (s : State) (level : ResetLevel) : (resetChips s level).clockKHz = s.clockKHz := rfl

@[simp] theorem resetChips_cpl (s : State) (level : ResetLevel) : (resetChips s level).cpl = s.cpl := rfl

@[simp] theorem resetChips_blinkCnt (s : State) (level : ResetLevel) : (resetChips s level).blinkCnt = s.blinkCnt := rfl

@[simp] theorem resetChips_blinkFlag (s : State) (level : ResetLevel) : (resetChips s level).blinkFlag = s.blinkFlag := rfl

@[simp] theorem resetChips_borderTab (s : State) (level : ResetLevel) : (resetChips s level).borderTab = s.borderTab := rfl

@[simp] theorem resetChips_latch (s : State) (level : ResetLevel) : (resetChips s level).latch = s.latch := rfl

@[simp] theorem resetChips_fb (s : State) (level : ResetLevel) : (resetChips s level).fb = s.fb := rfl

@[simp] theorem resetChips_ram (s : State) (level : ResetLevel) : (resetChips s level).ram = s.ram := rfl

@[simp] theorem resetChips_vram (s : State) (level : ResetLevel) : (resetChips s level).vram = s.vram := rfl

@[simp] theorem resetChips_ext (s : State) (level : ResetLevel) : (resetChips s level).ext = s.ext := rfl

@[simp] theorem resetChips_romImg (s : State) (level : ResetLevel) : (resetChips s level).romImg = s.romImg := rfl

@[simp] theorem resetChips_diskImg (s : State) (level : ResetLevel) : (resetChips s level).diskImg = s.diskImg := rfl

@[simp] theorem resetChips_matrix (s : State) (level : ResetLevel) : (resetChips s level).matrix = s.matrix := rfl

@[simp] theorem resetChips_joy (s : State) (level : ResetLevel) : (resetChips s level).joy = s.joy := rfl

@[simp] theorem resetChips_response (s : State) (level : ResetLevel) : (resetChips s level).response = s.response := rfl

@[simp] theorem resetChips_requests (s : State) (level : ResetLevel) : (resetChips s level).requests = s.requests := rfl

@[simp] theorem resetChips_supplies (s : State) (level : ResetLevel) : (resetChips s level).supplies = s.supplies := rfl

@[simp] theorem resetChips_draws (s : State) (level : ResetLevel) : (resetChips s level).draws = s.draws := rfl

@[simp] theorem resetChips_powerDraw (s : State) (level : ResetLevel) : (resetChips s level).powerDraw = s.powerDraw := rfl

@[simp] theorem resetChips_fbDraw (s : State) (level : ResetLevel) : (resetChips s level).fbDraw = s.fbDraw := rfl

/-! #### finishSource -/

@[simp] theorem finishSource_cfg (s : State) (src : Source) : (finishSource s src).cfg = s.cfg := by
  cases src <;> rfl

@[simp] theorem finishSource_bank (s : State) (src : Source) : (finishSource s src).bank = s.bank := by
  cases src <;> rfl

@[simp] theorem finishSource_border (s : State) (src : Source) : (finishSource s src).border = s.border := by
  cases src <;> rfl

@[simp] theorem finishSource_line (s : State) (src : Source) : (finishSource s src).line = s.line := by
  cases src <;> rfl

@[simp] theorem finishSource_acc (s : State) (src : Source) : (finishSource s src).acc = s.acc := by
  cases src <;> rfl

@[simp] theorem finishSource_clockKHz (s : State) (src : Source) : (finishSource s src).clockKHz = s.clockKHz := by
  cases src <;> rfl

@[simp] theorem finishSource_cpl (s : State) (src : Source) : (finishSource s src).cpl = s.cpl := by
  cases src <;> rfl

@[simp] theorem finishSource_blinkCnt (s : State) (src : Source) : (finishSource s src).blinkCnt = s.blinkCnt := by
  cases src <;> rfl

@[simp] theorem finishSource_blinkFlag (s : State) (src : Source) : (finishSource s src).blinkFlag = s.blinkFlag := by
  cases src <;> rfl

@[simp] theorem finishSource_borderTab (s : State) (src : Source) : (finishSource s src).borderTab = s.borderTab := by
  cases src <;> rfl

@[simp] theorem finishSource_latch (s : State) (src : Source) : (finishSource s src).latch = s.latch := by
  cases src <;> rfl

@[simp] theorem finishSource_fb (s : State) (src : Source) : (finishSource s src).fb = s.fb := by
  cases src <;> rfl

@[simp] theorem finishSource_ram (s : State) (src : Source) : (finishSource s src).ram = s.ram := by
  cases src <;> rfl

@[simp] theorem finishSource_vram (s : State) (src : Source) : (finishSource s src).vram = s.vram := by
  cases src <;> rfl

@[simp] theorem finishSource_ext (s : State) (src : Source) : (finishSource s src).ext = s.ext := by
  cases src <;> rfl

@[simp] theorem finishSource_romImg (s : State) (src : Source) : (finishSource s src).romImg = s.romImg := by
  cases src <;> rfl

@[simp] theorem finishSource_diskImg (s : State) (src : Source) : (finishSource s src).diskImg = s.diskImg := by
  cases src <;> rfl

@[simp] theorem finishSource_matrix (s : State) (src : Source) : (finishSource s src).matrix = s.matrix := by
  cases src <;> rfl

@[simp] theorem finishSource_joy (s : State) (src : Source) : (finishSource s src).joy = s.joy := by
  cases src <;> rfl

@[simp] theorem finishSource_response (s : State) (src : Source) : (finishSource s src).response = s.response := by
  cases src <;> rfl

@[simp] theorem finishSource_requests (s : State) (src : Source) : (finishSource s src).requests = s.requests := by
  cases src <;> rfl

@[simp] theorem finishSource_supplies (s : State) (src : Source) : (finishSource s src).supplies = s.supplies := by
  cases src <;> rfl

@[simp] theorem finishSource_draws (s : State) (src : Source) : (finishSource s src).draws = s.draws := by
  cases src <;> rfl

@[simp] theorem finishSource_powerDraw (s : State) (src : Source) : (finishSource s src).powerDraw = s.powerDraw := by
  cases src <;> rfl

@[simp] theorem finishSource_fbDraw (s : State) (src : Source) : (finishSource s src).fbDraw = s.fbDraw := by
  cases src <;> rfl

/-! #### acceptSource -/

@[simp] theorem acceptSource_cfg (s : State) (src : Source) : (acceptSource s src).2.cfg = s.cfg := by
  cases src <;> rfl

@[simp] theorem acceptSource_bank (s : State) (src : Source) : (acceptSource s src).2.bank = s.bank := by
  cases src <;> rfl

@[simp] theorem acceptSource_border (s : State) (src : Source) : (acceptSource s src).2.border = s.border := by
  cases src <;> rfl

@[simp] theorem acceptSource_line (s : State) (src : Source) : (acceptSource s src).2.line = s.line := by
  cases src <;> rfl

@[simp] theorem acceptSource_acc (s : State) (src : Source) : (acceptSource s src).2.acc = s.acc := by
  cases src <;> rfl

@[simp] theorem acceptSource_clockKHz (s : State) (src : Source) : (acceptSource s src).2.clockKHz = s.clockKHz := by
  cases src <;> rfl

@[simp] theorem acceptSource_cpl (s : State) (src : Source) : (acceptSource s src).2.cpl = s.cpl := by
  cases src <;> rfl

@[simp] theorem acceptSource_blinkCnt (s : State) (src : Source) : (acceptSource s src).2.blinkCnt = s.blinkCnt := by
  cases src <;> rfl

@[simp] theorem acceptSource_blinkFlag (s : State) (src : Source) : (acceptSource s src).2.blinkFlag = s.blinkFlag := by
  cases src <;> rfl

@[simp] theorem acceptSource_borderTab (s : State) (src : Source) : (acceptSource s src).2.borderTab = s.borderTab := by
  cases src <;> rfl

@[simp] theorem acceptSource_fb (s : State) (src : Source) : (acceptSource s src).2.fb = s.fb := by
  cases src <;> rfl

@[simp] theorem acceptSource_ram (s : State) (src : Source) : (acceptSource s src).2.ram = s.ram := by
  cases src <;> rfl

@[simp] theorem acceptSource_vram (s : State) (src : Source) : (acceptSource s src).2.vram = s.vram := by
  cases src <;> rfl

@[simp] theorem acceptSource_ext (s : State) (src : Source) : (acceptSource s src).2.ext = s.ext := by
  cases src <;> rfl

@[simp] theorem acceptSource_romImg (s : State) (src : Source) : (acceptSource s src).2.romImg = s.romImg := by
  cases src <;> rfl

@[simp] theorem acceptSource_diskImg (s : State) (src : Source) : (acceptSource s src).2.diskImg = s.diskImg := by
  cases src <;> rfl

@[simp] theorem acceptSource_matrix (s : State) (src : Source) : (acceptSource s src).2.matrix = s.matrix := by
  cases src <;> rfl

@[simp] theorem acceptSource_joy (s : State) (src : Source) : (acceptSource s src).2.joy = s.joy := by
  cases src <;> rfl

@[simp] theorem acceptSource_response (s : State) (src : Source) : (acceptSource s src).2.response = s.response := by
  cases src <;> rfl

@[simp] theorem acceptSource_requests (s : State) (src : Source) : (acceptSource s src).2.requests = s.requests := by
  cases src <;> rfl

@[simp] theorem acceptSource_supplies (s : State) (src : Source) : (acceptSource s src).2.supplies = s.supplies := by
  cases src <;> rfl

@[simp] theorem acceptSource_draws (s : State) (src : Source) : (acceptSource s src).2.draws = s.draws := by
  cases src <;> rfl

@[simp] theorem acceptSource_powerDraw (s : State) (src : Source) : (acceptSource s src).2.powerDraw = s.powerDraw := by
  cases src <;> rfl

@[simp] theorem acceptSource_fbDraw (s : State) (src : Source) : (acceptSource s src).2.fbDraw = s.fbDraw := by
  cases src <;> rfl

/-! #### readBack -/

@[simp] theorem readBack_cfg (s : State) (port : Byte) : (readBack s port).2.cfg = s.cfg := rfl

@[simp] theorem readBack_bank (s : State) (port : Byte) : (readBack s port).2.bank = s.bank := rfl

@[simp] theorem readBack_border (s : State) (port : Byte) : (readBack s port).2.border = s.border := rfl

@[simp] theorem readBack_line (s : State) (port : Byte) : (readBack s port).2.line = s.line := rfl

@[simp] theorem readBack_acc (s : State) (port : Byte) : (readBack s port).2.acc = s.acc := rfl

@[simp] theorem readBack_clockKHz (s : State) (port : Byte) : (readBack s port).2.clockKHz = s.clockKHz := rfl

@[simp] theorem readBack_cpl (s : State) (port : Byte) : (readBack s port).2.cpl = s.cpl := rfl

@[simp] theorem readBack_blinkCnt (s : State) (port : Byte) : (readBack s port).2.blinkCnt = s.blinkCnt := rfl

@[simp] theorem readBack_blinkFlag (s : State) (port : Byte) : (readBack s port).2.blinkFlag = s.blinkFlag := rfl

@[simp] theorem readBack_borderTab (s : State) (port : Byte) : (readBack s port).2.borderTab = s.borderTab := rfl

@[simp] theorem readBack_latch (s : State) (port : Byte) : (readBack s port).2.latch = s.latch := rfl

@[simp] theorem readBack_fb (s : State) (port : Byte) : (readBack s port).2.fb = s.fb := rfl

@[simp] theorem readBack_ram (s : State) (port : Byte) : (readBack s port).2.ram = s.ram := rfl

@[simp] theorem readBack_vram (s : State) (port : Byte) : (readBack s port).2.vram = s.vram := rfl

@[simp] theorem readBack_ext (s : State) (port : Byte) : (readBack s port).2.ext = s.ext := rfl

@[simp] theorem readBack_romImg (s : State) (port : Byte) : (readBack s port).2.romImg = s.romImg := rfl

@[simp] theorem readBack_diskImg (s : State) (port : Byte) : (readBack s port).2.diskImg = s.diskImg := rfl

@[simp] theorem readBack_matrix (s : State) (port : Byte) : (readBack s port).2.matrix = s.matrix := rfl

@[simp] theorem readBack_joy (s : State) (port : Byte) : (readBack s port).2.joy = s.joy := rfl

@[simp] theorem readBack_chips (s : State) (port : Byte) : (readBack s port).2.chips = s.chips := rfl

@[simp] theorem readBack_response (s : State) (port : Byte) : (readBack s port).2.response = s.response := rfl

@[simp] theorem readBack_requests (s : State) (port : Byte) : (readBack s port).2.requests = s.requests := rfl

@[simp] theorem readBack_supplies (s : State) (port : Byte) : (readBack s port).2.supplies = s.supplies := rfl

@[simp] theorem readBack_powerDraw (s : State) (port : Byte) : (readBack s port).2.powerDraw = s.powerDraw := rfl

@[simp] theorem readBack_fbDraw (s : State) (port : Byte) : (readBack s port).2.fbDraw = s.fbDraw := rfl

/-! #### portRead -/

@[simp] theorem portRead_cfg (s : State) (port : Byte) : (portRead s port).2.cfg = s.cfg := by
  unfold portRead; split <;> rfl

@[simp] theorem portRead_bank (s : State) (port : Byte) : (portRead s port).2.bank = s.bank := by
  unfold portRead; split <;> rfl

@[simp] theorem portRead_border (s : State) (port : Byte) : (portRead s port).2.border = s.border := by
  unfold portRead; split <;> rfl

@[simp] theorem portRead_line (s : State) (port : Byte) : (portRead s port).2.line = s.line := by
  unfold portRead; split <;> rfl

@[simp] theorem portRead_acc (s : State) (port : Byte) : (portRead s port).2.acc = s.acc := by
  unfold portRead; split <;> rfl

@[simp] theorem portRead_clockKHz (s : State) (port : Byte) : (portRead s port).2.clockKHz = s.clockKHz := by
  unfold portRead; split <;> rfl

@[simp] theorem portRead_cpl (s : State) (port : Byte) : (portRead s port).2.cpl = s.cpl := by
  unfold portRead; split <;> rfl

@[simp] theorem portRead_blinkCnt (s : State) (port : Byte) : (portRead s port).2.blinkCnt = s.blinkCnt := by
  unfold portRead; split <;> rfl

@[simp] theorem portRead_blinkFlag (s : State) (port : Byte) : (portRead s port).2.blinkFlag = s.blinkFlag := by
  unfold portRead; split <;> rfl

@[simp] theorem portRead_borderTab (s : State) (port : Byte) : (portRead s port).2.borderTab = s.borderTab := by
  unfold portRead; split <;> rfl

@[simp] theorem portRead_latch (s : State) (port : Byte) : (portRead s port).2.latch = s.latch := by
  unfold portRead; split <;> rfl

@[simp] theorem portRead_fb (s : State) (port : Byte) : (portRead s port).2.fb = s.fb := by
  unfold portRead; split <;> rfl

@[simp] theorem portRead_ram (s : State) (port : Byte) : (portRead s port).2.ram = s.ram := by
  unfold portRead; split <;> rfl

@[simp] theorem portRead_vram (s : State) (port : Byte) : (portRead s port).2.vram = s.vram := by
  unfold portRead; split <;> rfl

@[simp] theorem portRead_ext (s : State) (port : Byte) : (portRead s port).2.ext = s.ext := by
  unfold portRead; split <;> rfl

@[simp] theorem portRead_romImg (s : State) (port : Byte) : (portRead s port).2.romImg = s.romImg := by
  unfold portRead; split <;> rfl

@[simp] theorem portRead_diskImg (s : State) (port : Byte) : (portRead s port).2.diskImg = s.diskImg := by
  unfold portRead; split <;> rfl

@[simp] theorem portRead_matrix (s : State) (port : Byte) : (portRead s port).2.matrix = s.matrix := by
  unfold portRead; split <;> rfl

@[simp] theorem portRead_joy (s : State) (port : Byte) : (portRead s port).2.joy = s.joy := by
  unfold portRead; split <;> rfl

@[simp] theorem portRead_response (s : State) (port : Byte) : (portRead s port).2.response = s.response := by
  unfold portRead; split <;> rfl

@[simp] theorem portRead_requests (s : State) (port : Byte) : (portRead s port).2.requests = s.requests := by
  unfold portRead; split <;> rfl

@[simp] theorem portRead_supplies (s : State) (port : Byte) : (portRead s port).2.supplies = s.supplies := by
  unfold portRead; split <;> rfl

@[simp] theorem portRead_powerDraw (s : State) (port : Byte) : (portRead s port).2.powerDraw = s.powerDraw := by
  unfold portRead; split <;> rfl

@[simp] theorem portRead_fbDraw (s : State) (port : Byte) : (portRead s port).2.fbDraw = s.fbDraw := by
  unfold portRead; split <;> rfl

/-! #### portWrite -/

@[simp] theorem portWrite_cfg (s : State) (port v : Byte) : (portWrite s port v).cfg = s.cfg := by
  unfold portWrite; split <;> rfl

@[simp] theorem portWrite_line (s : State) (port v : Byte) : (portWrite s port v).line = s.line := by
  unfold portWrite; split <;> rfl

@[simp] theorem portWrite_acc (s : State) (port v : Byte) : (portWrite s port v).acc = s.acc := by
  unfold portWrite; split <;> rfl

@[simp] theorem portWrite_clockKHz (s : State) (port v : Byte) : (portWrite s port v).clockKHz = s.clockKHz := by
  unfold portWrite; split <;> rfl

@[simp] theorem portWrite_cpl (s : State) (port v : Byte) : (portWrite s port v).cpl = s.cpl := by
  unfold portWrite; split <;> rfl

@[simp] theorem portWrite_blinkCnt (s : State) (port v : Byte) : (portWrite s port v).blinkCnt = s.blinkCnt := by
  unfold portWrite; split <;> rfl

@[simp] theorem portWrite_blinkFlag (s : State) (port v : Byte) : (portWrite s port v).blinkFlag = s.blinkFlag := by
  unfold portWrite; split <;> rfl

@[simp] theorem portWrite_borderTab (s : State) (port v : Byte) : (portWrite s port v).borderTab = s.borderTab := by
  unfold portWrite; split <;> rfl

@[simp] theorem portWrite_latch (s : State) (port v : Byte) : (portWrite s port v).latch = s.latch := by
  unfold portWrite; split <;> rfl

@[simp] theorem portWrite_fb (s : State) (port v : Byte) : (portWrite s port v).fb = s.fb := by
  unfold portWrite; split <;> rfl

@[simp] theorem portWrite_ram (s : State) (port v : Byte) : (portWrite s port v).ram = s.ram := by
  unfold portWrite; split <;> rfl

@[simp] theorem portWrite_vram (s : State) (port v : Byte) : (portWrite s port v).vram = s.vram := by
  unfold portWrite; split <;> rfl

@[simp] theorem portWrite_ext (s : State) (port v : Byte) : (portWrite s port v).ext = s.ext := by
  unfold portWrite; split <;> rfl

@[simp] theorem portWrite_romImg (s : State) (port v : Byte) : (portWrite s port v).romImg = s.romImg := by
  unfold portWrite; split <;> rfl

@[simp] theorem portWrite_diskImg (s : State) (port v : Byte) : (portWrite s port v).diskImg = s.diskImg := by
  unfold portWrite; split <;> rfl

@[simp] theorem portWrite_matrix (s : State) (port v : Byte) : (portWrite s port v).matrix = s.matrix := by
  unfold portWrite; split <;> rfl

@[simp] theorem portWrite_joy (s : State) (port v : Byte) : (portWrite s port v).joy = s.joy := by
  unfold portWrite; split <;> rfl

@[simp] theorem portWrite_response (s : State) (port v : Byte) : (portWrite s port v).response = s.response := by
  unfold portWrite; split <;> rfl

@[simp] theorem portWrite_requests (s : State) (port v : Byte) : (portWrite s port v).requests = s.requests := by
  unfold portWrite; split <;> rfl

@[simp] theorem portWrite_supplies (s : State) (port v : Byte) : (portWrite s port v).supplies = s.supplies := by
  unfold portWrite; split <;> rfl

@[simp] theorem portWrite_draws (s : State) (port v : Byte) : (portWrite s port v).draws = s.draws := by
  unfold portWrite; split <;> rfl

@[simp] theorem portWrite_powerDraw (s : State) (port v : Byte) : (portWrite s port v).powerDraw = s.powerDraw := by
  unfold portWrite; split <;> rfl

@[simp] theorem portWrite_fbDraw (s : State) (port v : Byte) : (portWrite s port v).fbDraw = s.fbDraw := by
  unfold portWrite; split <;> rfl

/-! #### decodeLine -/

@[simp] theorem decodeLine_cfg (s : State) (y : Nat) : (decodeLine s y).cfg = s.cfg := rfl

@[simp] theorem decodeLine_bank (s : State) (y : Nat) : (decodeLine s y).bank = s.bank := rfl

@[simp] theorem decodeLine_border (s : State) (y : Nat) : (decodeLine s y).border = s.border := rfl

@[simp] theorem decodeLine_line (s : State) (y : Nat) : (decodeLine s y).line = s.line := rfl

@[simp] theorem decodeLine_acc (s : State) (y : Nat) : (decodeLine s y).acc = s.acc := rfl

@[simp] theorem decodeLine_clockKHz (s : State) (y : Nat) : (decodeLine s y).clockKHz = s.clockKHz := rfl

@[simp] theorem decodeLine_cpl (s : State) (y : Nat) : (decodeLine s y).cpl = s.cpl := rfl

@[simp] theorem decodeLine_blinkCnt (s : State) (y : Nat) : (decodeLine s y).blinkCnt = s.blinkCnt := rfl

@[simp] theorem decodeLine_blinkFlag (s : State) (y : Nat) : (decodeLine s y).blinkFlag = s.blinkFlag := rfl

@[simp] theorem decodeLine_borderTab (s : State) (y : Nat) : (decodeLine s y).borderTab = s.borderTab := rfl

@[simp] theorem decodeLine_latch (s : State) (y : Nat) : (decodeLine s y).latch = s.latch := rfl

@[simp] theorem decodeLine_ram (s : State) (y : Nat) : (decodeLine s y).ram = s.ram := rfl

@[simp] theorem decodeLine_vram (s : State) (y : Nat) : (decodeLine s y).vram = s.vram := rfl

@[simp] theorem decodeLine_ext (s : State) (y : Nat) : (decodeLine s y).ext = s.ext := rfl

@[simp] theorem decodeLine_romImg (s : State) (y : Nat) : (decodeLine s y).romImg = s.romImg := rfl

@[simp] theorem decodeLine_diskImg (s : State) (y : Nat) : (decodeLine s y).diskImg = s.diskImg := rfl

@[simp] theorem decodeLine_matrix (s : State) (y : Nat) : (decodeLine s y).matrix = s.matrix := rfl

@[simp] theorem decodeLine_joy (s : State) (y : Nat) : (decodeLine s y).joy = s.joy := rfl

@[simp] theorem decodeLine_chips (s : State) (y : Nat) : (decodeLine s y).chips = s.chips := rfl

@[simp] theorem decodeLine_response (s : State) (y : Nat) : (decodeLine s y).response = s.response := rfl

@[simp] theorem decodeLine_requests (s : State) (y : Nat) : (decodeLine s y).requests = s.requests := rfl

@[simp] theorem decodeLine_supplies (s : State) (y : Nat) : (decodeLine s y).supplies = s.supplies := rfl

@[simp] theorem decodeLine_draws (s : State) (y : Nat) : (decodeLine s y).draws = s.draws := rfl

@[simp] theorem decodeLine_powerDraw (s : State) (y : Nat) : (decodeLine s y).powerDraw = s.powerDraw := rfl

@[simp] theorem decodeLine_fbDraw (s : State) (y : Nat) : (decodeLine s y).fbDraw = s.fbDraw := rfl

/-! #### blinkStep -/

@[simp] theorem blinkStep_cfg (s : State) : (blinkStep s).cfg = s.cfg := by
  unfold blinkStep; split <;> rfl

@[simp] theorem blinkStep_bank (s : State) : (blinkStep s).bank = s.bank := by
  unfold blinkStep; split <;> rfl

@[simp] theorem blinkStep_border (s : State) : (blinkStep s).border = s.border := by
  unfold blinkStep; split <;> rfl

@[simp] theorem blinkStep_line (s : State) : (blinkStep s).line = s.line := by
  unfold blinkStep; split <;> rfl

@[simp] theorem blinkStep_acc (s : State) : (blinkStep s).acc = s.acc := by
  unfold blinkStep; split <;> rfl

@[simp] theorem blinkStep_clockKHz (s : State) : (blinkStep s).clockKHz = s.clockKHz := by
  unfold blinkStep; split <;> rfl

@[simp] theorem blinkStep_cpl (s : State) : (blinkStep s).cpl = s.cpl := by
  unfold blinkStep; split <;> rfl

@[simp] theorem blinkStep_borderTab (s : State) : (blinkStep s).borderTab = s.borderTab := by
  unfold blinkStep; split <;> rfl

@[simp] theorem blinkStep_latch (s : State) : (blinkStep s).latch = s.latch := by
  unfold blinkStep; split <;> rfl

@[simp] theorem blinkStep_fb (s : State) : (blinkStep s).fb = s.fb := by
  unfold blinkStep; split <;> rfl

@[simp] theorem blinkStep_ram (s : State) : (blinkStep s).ram = s.ram := by
  unfold blinkStep; split <;> rfl

@[simp] theorem blinkStep_vram (s : State) : (blinkStep s).vram = s.vram := by
  unfold blinkStep; split <;> rfl

@[simp] theorem blinkStep_ext (s : State) : (blinkStep s).ext = s.ext := by
  unfold blinkStep; split <;> rfl

@[simp] theorem blinkStep_romImg (s : State) : (blinkStep s).romImg = s.romImg := by
  unfold blinkStep; split <;> rfl

@[simp] theorem blinkStep_diskImg (s : State) : (blinkStep s).diskImg = s.diskImg := by
  unfold blinkStep; split <;> rfl

@[simp] theorem blinkStep_matrix (s : State) : (blinkStep s).matrix = s.matrix := by
  unfold blinkStep; split <;> rfl

@[simp] theorem blinkStep_joy (s : State) : (blinkStep s).joy = s.joy := by
  unfold blinkStep; split <;> rfl

@[simp] theorem blinkStep_chips (s : State) : (blinkStep s).chips = s.chips := by
  unfold blinkStep; split <;> rfl

@[simp] theorem blinkStep_response (s : State) : (blinkStep s).response = s.response := by
  unfold blinkStep; split <;> rfl

@[simp] theorem blinkStep_requests (s : State) : (blinkStep s).requests = s.requests := by
  unfold blinkStep; split <;> rfl

@[simp] theorem blinkStep_supplies (s : State) : (blinkStep s).supplies = s.supplies := by
  unfold blinkStep; split <;> rfl

@[simp] theorem blinkStep_draws (s : State) : (blinkStep s).draws = s.draws := by
  unfold blinkStep; split <;> rfl

@[simp] theorem blinkStep_powerDraw (s : State) : (blinkStep s).powerDraw = s.powerDraw := by
  unfold blinkStep; split <;> rfl

@[simp] theorem blinkStep_fbDraw (s : State) : (blinkStep s).fbDraw = s.fbDraw := by
  unfold blinkStep; split <;> rfl

/-! #### recordLine -/

@[simp] theorem recordLine_cfg (s : State) : (recordLine s).cfg = s.cfg := by
  unfold recordLine; dsimp only; split <;> rfl

@[simp] theorem recordLine_bank (s : State) : (recordLine s).bank = s.bank := by
  unfold recordLine; dsimp only; split <;> rfl

@[simp] theorem recordLine_border (s : State) : (recordLine s).border = s.border := by
  unfold recordLine; dsimp only; split <;> rfl

@[simp] theorem recordLine_line (s : State) : (recordLine s).line = s.line := by
  unfold recordLine; dsimp only; split <;> rfl

@[simp] theorem recordLine_acc (s : State) : (recordLine s).acc = s.acc := by
  unfold recordLine; dsimp only; split <;> rfl

@[simp] theorem recordLine_clockKHz (s : State) : (recordLine s).clockKHz = s.clockKHz := by
  unfold recordLine; dsimp only; split <;> rfl

@[simp] theorem recordLine_cpl (s : State) : (recordLine s).cpl = s.cpl := by
  unfold recordLine; dsimp only; split <;> rfl

@[simp] theorem recordLine_blinkCnt (s : State) : (recordLine s).blinkCnt = s.blinkCnt := by
  unfold recordLine; dsimp only; split <;> rfl

@[simp] theorem recordLine_blinkFlag (s : State) : (recordLine s).blinkFlag = s.blinkFlag := by
  unfold recordLine; dsimp only; split <;> rfl

@[simp] theorem recordLine_latch (s : State) : (recordLine s).latch = s.latch := by
  unfold recordLine; dsimp only; split <;> rfl

@[simp] theorem recordLine_ram (s : State) : (recordLine s).ram = s.ram := by
  unfold recordLine; dsimp only; split <;> rfl

@[simp] theorem recordLine_vram (s : State) : (recordLine s).vram = s.vram := by
  unfold recordLine; dsimp only; split <;> rfl

@[simp] theorem recordLine_ext (s : State) : (recordLine s).ext = s.ext := by
  unfold recordLine; dsimp only; split <;> rfl

@[simp] theorem recordLine_romImg (s : State) : (recordLine s).romImg = s.romImg := by
  unfold recordLine; dsimp only; split <;> rfl

@[simp] theorem recordLine_diskImg (s : State) : (recordLine s).diskImg = s.diskImg := by
  unfold recordLine; dsimp only; split <;> rfl

@[simp] theorem recordLine_matrix (s : State) : (recordLine s).matrix = s.matrix := by
  unfold recordLine; dsimp only; split <;> rfl

@[simp] theorem recordLine_joy (s : State) : (recordLine s).joy = s.joy := by
  unfold recordLine; dsimp only; split <;> rfl

@[simp] theorem recordLine_chips (s : State) : (recordLine s).chips = s.chips := by
  unfold recordLine; dsimp only; split <;> rfl

@[simp] theorem recordLine_response (s : State) : (recordLine s).response = s.response := by
  unfold recordLine; dsimp only; split <;> rfl

@[simp] theorem recordLine_requests (s : State) : (recordLine s).requests = s.requests := by
  unfold recordLine; dsimp only; split <;> rfl

@[simp] theorem recordLine_supplies (s : State) : (recordLine s).supplies = s.supplies := by
  unfold recordLine; dsimp only; split <;> rfl

@[simp] theorem recordLine_draws (s : State) : (recordLine s).draws = s.draws := by
  unfold recordLine; dsimp only; split <;> rfl

@[simp] theorem recordLine_powerDraw (s : State) : (recordLine s).powerDraw = s.powerDraw := by
  unfold recordLine; dsimp only; split <;> rfl

@[simp] theorem recordLine_fbDraw (s : State) : (recordLine s).fbDraw = s.fbDraw := by
  unfold recordLine; dsimp only; split <;> rfl

/-! #### lineBlink -/

@[simp] theorem lineBlink_cfg (s : State) : (lineBlink s).cfg = s.cfg := by
  unfold lineBlink; split <;> simp

@[simp] theorem lineBlink_bank (s : State) : (lineBlink s).bank = s.bank := by
  unfold lineBlink; split <;> simp

@[simp] theorem lineBlink_border (s : State) : (lineBlink s).border = s.border := by
  unfold lineBlink; split <;> simp

@[simp] theorem lineBlink_line (s : State) : (lineBlink s).line = s.line := by
  unfold lineBlink; split <;> simp

@[simp] theorem lineBlink_acc (s : State) : (lineBlink s).acc = s.acc := by
  unfold lineBlink; split <;> simp

@[simp] theorem lineBlink_clockKHz (s : State) : (lineBlink s).clockKHz = s.clockKHz := by
  unfold lineBlink; split <;> simp

@[simp] theorem lineBlink_cpl (s : State) : (lineBlink s).cpl = s.cpl := by
  unfold lineBlink; split <;> simp

@[simp] theorem lineBlink_borderTab (s : State) : (lineBlink s).borderTab = s.borderTab := by
  unfold lineBlink; split <;> simp

@[simp] theorem lineBlink_latch (s : State) : (lineBlink s).latch = s.latch := by
  unfold lineBlink; split <;> simp

@[simp] theorem lineBlink_fb (s : State) : (lineBlink s).fb = s.fb := by
  unfold lineBlink; split <;> simp

@[simp] theorem lineBlink_ram (s : State) : (lineBlink s).ram = s.ram := by
  unfold lineBlink; split <;> simp

@[simp] theorem lineBlink_vram (s : State) : (lineBlink s).vram = s.vram := by
  unfold lineBlink; split <;> simp

@[simp] theorem lineBlink_ext (s : State) : (lineBlink s).ext = s.ext := by
  unfold lineBlink; split <;> simp

@[simp] theorem lineBlink_romImg (s : State) : (lineBlink s).romImg = s.romImg := by
  unfold lineBlink; split <;> simp

@[simp] theorem lineBlink_diskImg (s : State) : (lineBlink s).diskImg = s.diskImg := by
  unfold lineBlink; split <;> simp

@[simp] theorem lineBlink_matrix (s : State) : (lineBlink s).matrix = s.matrix := by
  unfold lineBlink; split <;> simp

@[simp] theorem lineBlink_joy (s : State) : (lineBlink s).joy = s.joy := by
  unfold lineBlink; split <;> simp

@[simp] theorem lineBlink_chips (s : State) : (lineBlink s).chips = s.chips := by
  unfold lineBlink; split <;> simp

@[simp] theorem lineBlink_response (s : State) : (lineBlink s).response = s.response := by
  unfold lineBlink; split <;> simp

@[simp] theorem lineBlink_requests (s : State) : (lineBlink s).requests = s.requests := by
  unfold lineBlink; split <;> simp

@[simp] theorem lineBlink_supplies (s : State) : (lineBlink s).supplies = s.supplies := by
  unfold lineBlink; split <;> simp

@[simp] theorem lineBlink_draws (s : State) : (lineBlink s).draws = s.draws := by
  unfold lineBlink; split <;> simp

@[simp] theorem lineBlink_powerDraw (s : State) : (lineBlink s).powerDraw = s.powerDraw := by
  unfold lineBlink; split <;> simp

@[simp] theorem lineBlink_fbDraw (s : State) : (lineBlink s).fbDraw = s.fbDraw := by
  unfold lineBlink; split <;> simp

/-! #### nextLine -/

@[simp] theorem nextLine_cfg (s : State) : (nextLine s).cfg = s.cfg := by
  unfold nextLine; dsimp only; split <;> (try split) <;> simp

@[simp] theorem nextLine_bank (s : State) : (nextLine s).bank = s.bank := by
  unfold nextLine; dsimp only; split <;> (try split) <;> simp

@[simp] theorem nextLine_border (s : State) : (nextLine s).border = s.border := by
  unfold nextLine; dsimp only; split <;> (try split) <;> simp

@[simp] theorem nextLine_acc (s : State) : (nextLine s).acc = s.acc := by
  unfold nextLine; dsimp only; split <;> (try split) <;> simp

@[simp] theorem nextLine_clockKHz (s : State) : (nextLine s).clockKHz = s.clockKHz := by
  unfold nextLine; dsimp only; split <;> (try split) <;> simp

@[simp] theorem nextLine_cpl (s : State) : (nextLine s).cpl = s.cpl := by
  unfold nextLine; dsimp only; split <;> (try split) <;> simp

@[simp] theorem nextLine_borderTab (s : State) : (nextLine s).borderTab = s.borderTab := by
  unfold nextLine; dsimp only; split <;> (try split) <;> simp

@[simp] theorem nextLine_fb (s : State) : (nextLine s).fb = s.fb := by
  unfold nextLine; dsimp only; split <;> (try split) <;> simp

@[simp] theorem nextLine_ram (s : State) : (nextLine s).ram = s.ram := by
  unfold nextLine; dsimp only; split <;> (try split) <;> simp

@[simp] theorem nextLine_vram (s : State) : (nextLine s).vram = s.vram := by
  unfold nextLine; dsimp only; split <;> (try split) <;> simp

@[simp] theorem nextLine_ext (s : State) : (nextLine s).ext = s.ext := by
  unfold nextLine; dsimp only; split <;> (try split) <;> simp

@[simp] theorem nextLine_romImg (s : State) : (nextLine s).romImg = s.romImg := by
  unfold nextLine; dsimp only; split <;> (try split) <;> simp

@[simp] theorem nextLine_diskImg (s : State) : (nextLine s).diskImg = s.diskImg := by
  unfold nextLine; dsimp only; split <;> (try split) <;> simp

@[simp] theorem nextLine_matrix (s : State) : (nextLine s).matrix = s.matrix := by
  unfold nextLine; dsimp only; split <;> (try split) <;> simp

@[simp] theorem nextLine_joy (s : State) : (nextLine s).joy = s.joy := by
  unfold nextLine; dsimp only; split <;> (try split) <;> simp

@[simp] theorem nextLine_chips (s : State) : (nextLine s).chips = s.chips := by
  unfold nextLine; dsimp only; split <;> (try split) <;> simp

@[simp] theorem nextLine_response (s : State) : (nextLine s).response = s.response := by
  unfold nextLine; dsimp only; split <;> (try split) <;> simp

@[simp] theorem nextLine_requests (s : State) : (nextLine s).requests = s.requests := by
  unfold nextLine; dsimp only; split <;> (try split) <;> simp

@[simp] theorem nextLine_supplies (s : State) : (nextLine s).supplies = s.supplies := by
  unfold nextLine; dsimp only; split <;> (try split) <;> simp

@[simp] theorem nextLine_draws (s : State) : (nextLine s).draws = s.draws := by
  unfold nextLine; dsimp only; split <;> (try split) <;> simp

@[simp] theorem nextLine_powerDraw (s : State) : (nextLine s).powerDraw = s.powerDraw := by
  unfold nextLine; dsimp only; split <;> (try split) <;> simp

@[simp] theorem nextLine_fbDraw (s : State) : (nextLine s).fbDraw = s.fbDraw := by
  unfold nextLine; dsimp only; split <;> (try split) <;> simp

/-! #### lineEnd -/

@[simp] theorem lineEnd_cfg (s : State) : (lineEnd s).cfg = s.cfg := by
  simp [lineEnd]

@[simp] theorem lineEnd_bank (s : State) : (lineEnd s).bank = s.bank := by
  simp [lineEnd]

@[simp] theorem lineEnd_border (s : State) : (lineEnd s).border = s.border := by
  simp [lineEnd]

@[simp] theorem lineEnd_acc (s : State) : (lineEnd s).acc = s.acc := by
  simp [lineEnd]

@[simp] theorem lineEnd_clockKHz (s : State) : (lineEnd s).clockKHz = s.clockKHz := by
  simp [lineEnd]

@[simp] theorem lineEnd_cpl (s : State) : (lineEnd s).cpl = s.cpl := by
  simp [lineEnd]

@[simp] theorem lineEnd_ram (s : State) : (lineEnd s).ram = s.ram := by
  simp [lineEnd]

@[simp] theorem lineEnd_vram (s : State) : (lineEnd s).vram = s.vram := by
  simp [lineEnd]

@[simp] theorem lineEnd_ext (s : State) : (lineEnd s).ext = s.ext := by
  simp [lineEnd]

@[simp] theorem lineEnd_romImg (s : State) : (lineEnd s).romImg = s.romImg := by
  simp [lineEnd]

@[simp] theorem lineEnd_diskImg (s : State) : (lineEnd s).diskImg = s.diskImg := by
  simp [lineEnd]

@[simp] theorem lineEnd_matrix (s : State) : (lineEnd s).matrix = s.matrix := by
  simp [lineEnd]

@[simp] theorem lineEnd_joy (s : State) : (lineEnd s).joy = s.joy := by
  simp [lineEnd]

@[simp] theorem lineEnd_chips (s : State) : (lineEnd s).chips = s.chips := by
  simp [lineEnd]

@[simp] theorem lineEnd_response (s : State) : (lineEnd s).response = s.response := by
  simp [lineEnd]

@[simp] theorem lineEnd_requests (s : State) : (lineEnd s).requests = s.requests := by
  simp [lineEnd]

@[simp] theorem lineEnd_supplies (s : State) : (lineEnd s).supplies = s.supplies := by
  simp [lineEnd]

@[simp] theorem lineEnd_draws (s : State) : (lineEnd s).draws = s.draws := by
  simp [lineEnd]

@[simp] theorem lineEnd_powerDraw (s : State) : (lineEnd s).powerDraw = s.powerDraw := by
  simp [lineEnd]

@[simp] theorem lineEnd_fbDraw (s : State) : (lineEnd s).fbDraw = s.fbDraw := by
  simp [lineEnd]

/-! #### lineEnds -/

@[simp] theorem lineEnds_cfg (k : Nat) (s : State) : (lineEnds k s).cfg = s.cfg := by
  induction k generalizing s with
  | zero => rfl
  | succ k ih => rw [lineEnds, ih]; simp

@[simp] theorem lineEnds_bank (k : Nat) (s : State) : (lineEnds k s).bank = s.bank := by
  induction k generalizing s with
  | zero => rfl
  | succ k ih => rw [lineEnds, ih]; simp

@[simp] theorem lineEnds_border (k : Nat) (s : State) : (lineEnds k s).border = s.border := by
  induction k generalizing s with
  | zero => rfl
  | succ k ih => rw [lineEnds, ih]; simp

@[simp] theorem lineEnds_acc (k : Nat) (s : State) : (lineEnds k s).acc = s.acc := by
  induction k generalizing s with
  | zero => rfl
  | succ k ih => rw [lineEnds, ih]; simp

@[simp] theorem lineEnds_clockKHz (k : Nat) (s : State) : (lineEnds k s).clockKHz = s.clockKHz := by
  induction k generalizing s with
  | zero => rfl
  | succ k ih => rw [lineEnds, ih]; simp

@[simp] theorem lineEnds_cpl (k : Nat) (s : State) : (lineEnds k s).cpl = s.cpl := by
  induction k generalizing s with
  | zero => rfl
  | succ k ih => rw [lineEnds, ih]; simp

@[simp] theorem lineEnds_ram (k : Nat) (s : State) : (lineEnds k s).ram = s.ram := by
  induction k generalizing s with
  | zero => rfl
  | succ k ih => rw [lineEnds, ih]; simp

@[simp] theorem lineEnds_vram (k : Nat) (s : State) : (lineEnds k s).vram = s.vram := by
  induction k generalizing s with
  | zero => rfl
  | succ k ih => rw [lineEnds, ih]; simp

@[simp] theorem lineEnds_ext (k : Nat) (s : State) : (lineEnds k s).ext = s.ext := by
  induction k generalizing s with
  | zero => rfl
  | succ k ih => rw [lineEnds, ih]; simp

@[simp] theorem lineEnds_romImg (k : Nat) (s : State) : (lineEnds k s).romImg = s.romImg := by
  induction k generalizing s with
  | zero => rfl
  | succ k ih => rw [lineEnds, ih]; simp

@[simp] theorem lineEnds_diskImg (k : Nat) (s : State) : (lineEnds k s).diskImg = s.diskImg := by
  induction k generalizing s with
  | zero => rfl
  | succ k ih => rw [lineEnds, ih]; simp

@[simp] theorem lineEnds_matrix (k : Nat) (s : State) : (lineEnds k s).matrix = s.matrix := by
  induction k generalizing s with
  | zero => rfl
  | succ k ih => rw [lineEnds, ih]; simp

@[simp] theorem lineEnds_joy (k : Nat) (s : State) : (lineEnds k s).joy = s.joy := by
  induction k generalizing s with
  | zero => rfl
  | succ k ih => rw [lineEnds, ih]; simp

@[simp] theorem lineEnds_chips (k : Nat) (s : State) : (lineEnds k s).chips = s.chips := by
  induction k generalizing s with
  | zero => rfl
  | succ k ih => rw [lineEnds, ih]; simp

@[simp] theorem lineEnds_response (k : Nat) (s : State) : (lineEnds k s).response = s.response := by
  induction k generalizing s with
  | zero => rfl
  | succ k ih => rw [lineEnds, ih]; simp

@[simp] theorem lineEnds_requests (k : Nat) (s : State) : (lineEnds k s).requests = s.requests := by
  induction k generalizing s with
  | zero => rfl
  | succ k ih => rw [lineEnds, ih]; simp

@[simp] theorem lineEnds_supplies (k : Nat) (s : State) : (lineEnds k s).supplies = s.supplies := by
  induction k generalizing s with
  | zero => rfl
  | succ k ih => rw [lineEnds, ih]; simp

@[simp] theorem lineEnds_draws (k : Nat) (s : State) : (lineEnds k s).draws = s.draws := by
  induction k generalizing s with
  | zero => rfl
  | succ k ih => rw [lineEnds, ih]; simp

@[simp] theorem lineEnds_powerDraw (k : Nat) (s : State) : (lineEnds k s).powerDraw = s.powerDraw := by
  induction k generalizing s with
  | zero => rfl
  | succ k ih => rw [lineEnds, ih]; simp

@[simp] theorem lineEnds_fbDraw (k : Nat) (s : State) : (lineEnds k s).fbDraw = s.fbDraw := by
  induction k generalizing s with
  | zero => rfl
  | succ k ih => rw [lineEnds, ih]; simp

/-! #### advanceRaster -/

@[simp] theorem advanceRaster_cfg (s : State) (n : Nat) : (advanceRaster s n).cfg = s.cfg := by
  simp [advanceRaster]

@[simp] theorem advanceRaster_bank (s : State) (n : Nat) : (advanceRaster s n).bank = s.bank := by
  simp [advanceRaster]

@[simp] theorem advanceRaster_border (s : State) (n : Nat) : (advanceRaster s n).border = s.border := by
  simp [advanceRaster]

@[simp] theorem advanceRaster_clockKHz (s : State) (n : Nat) : (advanceRaster s n).clockKHz = s.clockKHz := by
  simp [advanceRaster]

@[simp] theorem advanceRaster_cpl (s : State) (n : Nat) : (advanceRaster s n).cpl = s.cpl := by
  simp [advanceRaster]

@[simp] theorem advanceRaster_ram (s : State) (n : Nat) : (advanceRaster s n).ram = s.ram := by
  simp [advanceRaster]

@[simp] theorem advanceRaster_vram (s : State) (n : Nat) : (advanceRaster s n).vram = s.vram := by
  simp [advanceRaster]

@[simp] theorem advanceRaster_ext (s : State) (n : Nat) : (advanceRaster s n).ext = s.ext := by
  simp [advanceRaster]

@[simp] theorem advanceRaster_romImg (s : State) (n : Nat) : (advanceRaster s n).romImg = s.romImg := by
  simp [advanceRaster]

@[simp] theorem advanceRaster_diskImg (s : State) (n : Nat) : (advanceRaster s n).diskImg = s.diskImg := by
  simp [advanceRaster]

@[simp] theorem advanceRaster_matrix (s : State) (n : Nat) : (advanceRaster s n).matrix = s.matrix := by
  simp [advanceRaster]

@[simp] theorem advanceRaster_joy (s : State) (n : Nat) : (advanceRaster s n).joy = s.joy := by
  simp [advanceRaster]

@[simp] theorem advanceRaster_chips (s : State) (n : Nat) : (advanceRaster s n).chips = s.chips := by
  simp [advanceRaster]

@[simp] theorem advanceRaster_response (s : State) (n : Nat) : (advanceRaster s n).response = s.response := by
  simp [advanceRaster]

@[simp] theorem advanceRaster_requests (s : State) (n : Nat) : (advanceRaster s n).requests = s.requests := by
  simp [advanceRaster]

@[simp] theorem advanceRaster_supplies (s : State) (n : Nat) : (advanceRaster s n).supplies = s.supplies := by
  simp [advanceRaster]

@[simp] theorem advanceRaster_draws (s : State) (n : Nat) : (advanceRaster s n).draws = s.draws := by
  simp [advanceRaster]

@[simp] theorem advanceRaster_powerDraw (s : State) (n : Nat) : (advanceRaster s n).powerDraw = s.powerDraw := by
  simp [advanceRaster]

@[simp] theorem advanceRaster_fbDraw (s : State) (n : Nat) : (advanceRaster s n).fbDraw = s.fbDraw := by
  simp [advanceRaster]

/-! #### resetPorts -/

@[simp] theorem resetPorts_cfg (s : State) (level : ResetLevel) : (resetPorts s level).cfg = s.cfg := rfl

@[simp] theorem resetPorts_line (s : State) (level : ResetLevel) : (resetPorts s level).line = s.line := rfl

@[simp] theorem resetPorts_acc (s : State) (level : ResetLevel) : (resetPorts s level).acc = s.acc := rfl

@[simp] theorem resetPorts_clockKHz (s : State) (level : ResetLevel) : (resetPorts s level).clockKHz = s.clockKHz := rfl

@[simp] theorem resetPorts_cpl (s : State) (level : ResetLevel) : (resetPorts s level).cpl = s.cpl := rfl

@[simp] theorem resetPorts_blinkCnt (s : State) (level : ResetLevel) : (resetPorts s level).blinkCnt = s.blinkCnt := rfl

@[simp] theorem resetPorts_blinkFlag (s : State) (level : ResetLevel) : (resetPorts s level).blinkFlag = s.blinkFlag := rfl

@[simp] theorem resetPorts_borderTab (s : State) (level : ResetLevel) : (resetPorts s level).borderTab = s.borderTab := rfl

@[simp] theorem resetPorts_latch (s : State) (level : ResetLevel) : (resetPorts s level).latch = s.latch := rfl

@[simp] theorem resetPorts_fb (s : State) (level : ResetLevel) : (resetPorts s level).fb = s.fb := rfl

@[simp] theorem resetPorts_ram (s : State) (level : ResetLevel) : (resetPorts s level).ram = s.ram := rfl

@[simp] theorem resetPorts_vram (s : State) (level : ResetLevel) : (resetPorts s level).vram = s.vram := rfl

@[simp] theorem resetPorts_ext (s : State) (level : ResetLevel) : (resetPorts s level).ext = s.ext := rfl

@[simp] theorem resetPorts_romImg (s : State) (level : ResetLevel) : (resetPorts s level).romImg = s.romImg := rfl

@[simp] theorem resetPorts_diskImg (s : State) (level : ResetLevel) : (resetPorts s level).diskImg = s.diskImg := rfl

@[simp] theorem resetPorts_matrix (s : State) (level : ResetLevel) : (resetPorts s level).matrix = s.matrix := rfl

@[simp] theorem resetPorts_joy (s : State) (level : ResetLevel) : (resetPorts s level).joy = s.joy := rfl

@[simp] theorem resetPorts_response (s : State) (level : ResetLevel) : (resetPorts s level).response = s.response := rfl

@[simp] theorem resetPorts_requests (s : State) (level : ResetLevel) : (resetPorts s level).requests = s.requests := rfl

@[simp] theorem resetPorts_supplies (s : State) (level : ResetLevel) : (resetPorts s level).supplies = s.supplies := rfl

@[simp] theorem resetPorts_powerDraw (s : State) (level : ResetLevel) : (resetPorts s level).powerDraw = s.powerDraw := rfl

@[simp] theorem resetPorts_fbDraw (s : State) (level : ResetLevel) : (resetPorts s level).fbDraw = s.fbDraw := rfl

/-! #### resetRaster -/

@[simp] theorem resetRaster_cfg (s : State) (n : Nat) : (resetRaster s n).cfg = s.cfg := rfl

@[simp] theorem resetRaster_bank (s : State) (n : Nat) : (resetRaster s n).bank = s.bank := rfl

@[simp] theorem resetRaster_border (s : State) (n : Nat) : (resetRaster s n).border = s.border := rfl

@[simp] theorem resetRaster_clockKHz (s : State) (n : Nat) : (resetRaster s n).clockKHz = s.clockKHz := rfl

@[simp] theorem resetRaster_ram (s : State) (n : Nat) : (resetRaster s n).ram = s.ram := rfl

@[simp] theorem resetRaster_vram (s : State) (n : Nat) : (resetRaster s n).vram = s.vram := rfl

@[simp] theorem resetRaster_ext (s : State) (n : Nat) : (resetRaster s n).ext = s.ext := rfl

@[simp] theorem resetRaster_romImg (s : State) (n : Nat) : (resetRaster s n).romImg = s.romImg := rfl

@[simp] theorem resetRaster_diskImg (s : State) (n : Nat) : (resetRaster s n).diskImg = s.diskImg := rfl

@[simp] theorem resetRaster_matrix (s : State) (n : Nat) : (resetRaster s n).matrix = s.matrix := rfl

@[simp] theorem resetRaster_joy (s : State) (n : Nat) : (resetRaster s n).joy = s.joy := rfl

@[simp] theorem resetRaster_chips (s : State) (n : Nat) : (resetRaster s n).chips = s.chips := rfl

@[simp] theorem resetRaster_response (s : State) (n : Nat) : (resetRaster s n).response = s.response := rfl

@[simp] theorem resetRaster_requests (s : State) (n : Nat) : (resetRaster s n).requests = s.requests := rfl

@[simp] theorem resetRaster_supplies (s : State) (n : Nat) : (resetRaster s n).supplies = s.supplies := rfl

@[simp] theorem resetRaster_draws (s : State) (n : Nat) : (resetRaster s n).draws = s.draws := rfl

@[simp] theorem resetRaster_powerDraw (s : State) (n : Nat) : (resetRaster s n).powerDraw = s.powerDraw := rfl

/-! #### resetStores -/

@[simp] theorem resetStores_cfg (s : State) (n : Nat) : (resetStores s n).cfg = s.cfg := rfl

@[simp] theorem resetStores_bank (s : State) (n : Nat) : (resetStores s n).bank = s.bank := rfl

@[simp] theorem resetStores_border (s : State) (n : Nat) : (resetStores s n).border = s.border := rfl

@[simp] theorem resetStores_line (s : State) (n : Nat) : (resetStores s n).line = s.line := rfl

@[simp] theorem resetStores_acc (s : State) (n : Nat) : (resetStores s n).acc = s.acc := rfl

@[simp] theorem resetStores_clockKHz (s : State) (n : Nat) : (resetStores s n).clockKHz = s.clockKHz := rfl

@[simp] theorem resetStores_cpl (s : State) (n : Nat) : (resetStores s n).cpl = s.cpl := rfl

@[simp] theorem resetStores_blinkCnt (s : State) (n : Nat) : (resetStores s n).blinkCnt = s.blinkCnt := rfl

@[simp] theorem resetStores_blinkFlag (s : State) (n : Nat) : (resetStores s n).blinkFlag = s.blinkFlag := rfl

@[simp] theorem resetStores_borderTab (s : State) (n : Nat) : (resetStores s n).borderTab = s.borderTab := rfl

@[simp] theorem resetStores_latch (s : State) (n : Nat) : (resetStores s n).latch = s.latch := rfl

@[simp] theorem resetStores_fb (s : State) (n : Nat) : (resetStores s n).fb = s.fb := rfl

@[simp] theorem resetStores_matrix (s : State) (n : Nat) : (resetStores s n).matrix = s.matrix := rfl

@[simp] theorem resetStores_joy (s : State) (n : Nat) : (resetStores s n).joy = s.joy := rfl

@[simp] theorem resetStores_chips (s : State) (n : Nat) : (resetStores s n).chips = s.chips := rfl

@[simp] theorem resetStores_response (s : State) (n : Nat) : (resetStores s n).response = s.response := rfl

@[simp] theorem resetStores_requests (s : State) (n : Nat) : (resetStores s n).requests = s.requests := rfl

@[simp] theorem resetStores_draws (s : State) (n : Nat) : (resetStores s n).draws = s.draws := rfl

@[simp] theorem resetStores_fbDraw (s : State) (n : Nat) : (resetStores s n).fbDraw = s.fbDraw := rfl

/-! #### placeRequest -/

@[simp] theorem placeRequest_cfg (s : State) (w : Request) : (placeRequest s w).cfg = s.cfg := rfl

@[simp] theorem placeRequest_bank (s : State) (w : Request) : (placeRequest s w).bank = s.bank := rfl

@[simp] theorem placeRequest_border (s : State) (w : Request) : (placeRequest s w).border = s.border := rfl

@[simp] theorem placeRequest_line (s : State) (w : Request) : (placeRequest s w).line = s.line := rfl

@[simp] theorem placeRequest_acc (s : State) (w : Request) : (placeRequest s w).acc = s.acc := rfl

@[simp] theorem placeRequest_clockKHz (s : State) (w : Request) : (placeRequest s w).clockKHz = s.clockKHz := rfl

@[simp] theorem placeRequest_cpl (s : State) (w : Request) : (placeRequest s w).cpl = s.cpl := rfl

@[simp] theorem placeRequest_blinkCnt (s : State) (w : Request) : (placeRequest s w).blinkCnt = s.blinkCnt := rfl

@[simp] theorem placeRequest_blinkFlag (s : State) (w : Request) : (placeRequest s w).blinkFlag = s.blinkFlag := rfl

@[simp] theorem placeRequest_borderTab (s : State) (w : Request) : (placeRequest s w).borderTab = s.borderTab := rfl

@[simp] theorem placeRequest_latch (s : State) (w : Request) : (placeRequest s w).latch = s.latch := rfl

@[simp] theorem placeRequest_fb (s : State) (w : Request) : (placeRequest s w).fb = s.fb := rfl

@[simp] theorem placeRequest_ram (s : State) (w : Request) : (placeRequest s w).ram = s.ram := rfl

@[simp] theorem placeRequest_vram (s : State) (w : Request) : (placeRequest s w).vram = s.vram := rfl

@[simp] theorem placeRequest_ext (s : State) (w : Request) : (placeRequest s w).ext = s.ext := rfl

@[simp] theorem placeRequest_romImg (s : State) (w : Request) : (placeRequest s w).romImg = s.romImg := rfl

@[simp] theorem placeRequest_diskImg (s : State) (w : Request) : (placeRequest s w).diskImg = s.diskImg := rfl

@[simp] theorem placeRequest_matrix (s : State) (w : Request) : (placeRequest s w).matrix = s.matrix := rfl

@[simp] theorem placeRequest_joy (s : State) (w : Request) : (placeRequest s w).joy = s.joy := rfl

@[simp] theorem placeRequest_chips (s : State) (w : Request) : (placeRequest s w).chips = s.chips := rfl

@[simp] theorem placeRequest_response (s : State) (w : Request) : (placeRequest s w).response = s.response := rfl

@[simp] theorem placeRequest_supplies (s : State) (w : Request) : (placeRequest s w).supplies = s.supplies := rfl

@[simp] theorem placeRequest_draws (s : State) (w : Request) : (placeRequest s w).draws = s.draws := rfl

@[simp] theorem placeRequest_powerDraw (s : State) (w : Request) : (placeRequest s w).powerDraw = s.powerDraw := rfl

@[simp] theorem placeRequest_fbDraw (s : State) (w : Request) : (placeRequest s w).fbDraw = s.fbDraw := rfl

/-! #### powerOn -/

@[simp] theorem powerOn_cfg (s : State) : (powerOn s).cfg = s.cfg := rfl

@[simp] theorem powerOn_clockKHz (s : State) : (powerOn s).clockKHz = s.clockKHz := rfl

@[simp] theorem powerOn_matrix (s : State) : (powerOn s).matrix = s.matrix := rfl

@[simp] theorem powerOn_joy (s : State) : (powerOn s).joy = s.joy := rfl

@[simp] theorem powerOn_response (s : State) : (powerOn s).response = s.response := rfl

@[simp] theorem powerOn_requests (s : State) : (powerOn s).requests = s.requests := rfl

@[simp] theorem powerOn_supplies (s : State) : (powerOn s).supplies = laterSupplies s.supplies := rfl

@[simp] theorem powerOn_romImg (s : State) : (powerOn s).romImg = loadRoms s.cfg.roms (nextSupply s.supplies).roms := rfl

@[simp] theorem powerOn_diskImg (s : State) :
    (powerOn s).diskImg = loadDisk s.cfg.diskLen (nextSupply s.supplies).disk := rfl

@[simp] theorem powerOn_line (s : State) : (powerOn s).line = 0 := rfl

@[simp] theorem powerOn_acc (s : State) : (powerOn s).acc = 0 := rfl

@[simp] theorem powerOn_cpl (s : State) : (powerOn s).cpl = s.cfg.cplOf s.clockKHz := rfl

@[simp] theorem powerOn_blinkCnt (s : State) : (powerOn s).blinkCnt = 0 := rfl

@[simp] theorem powerOn_blinkFlag (s : State) : (powerOn s).blinkFlag = false := rfl

@[simp] theorem powerOn_latch (s : State) : (powerOn s).latch = false := rfl

@[simp] theorem powerOn_bank (s : State) : (powerOn s).bank = resetBank s.draws := rfl

@[simp] theorem powerOn_border (s : State) : (powerOn s).border = Config.draw .border s.draws := rfl

@[simp] theorem powerOn_draws (s : State) : (powerOn s).draws = s.draws + 1 := rfl

/-! #### The fields that the plain updates write -/

@[simp] theorem resetPorts_bank (s : State) (level : ResetLevel) : (resetPorts s level).bank = resetBank s.draws := rfl

@[simp] theorem resetPorts_border (s : State) (level : ResetLevel) :
    (resetPorts s level).border = Config.draw .border s.draws := rfl

@[simp] theorem resetPorts_draws (s : State) (level : ResetLevel) : (resetPorts s level).draws = s.draws + 1 := rfl

@[simp] theorem resetPorts_chips (s : State) (level : ResetLevel) :
    (resetPorts s level).chips = s.chips.map fun e => (e.1, Config.chipReset e.1 level e.2) := rfl

@[simp] theorem resetRaster_line (s : State) (n : Nat) : (resetRaster s n).line = 0 := rfl

@[simp] theorem resetRaster_acc (s : State) (n : Nat) : (resetRaster s n).acc = 0 := rfl

@[simp] theorem resetRaster_cpl (s : State) (n : Nat) : (resetRaster s n).cpl = s.cfg.cplOf s.clockKHz := rfl

@[simp] theorem resetRaster_blinkCnt (s : State) (n : Nat) : (resetRaster s n).blinkCnt = 0 := rfl

@[simp] theorem resetRaster_blinkFlag (s : State) (n : Nat) : (resetRaster s n).blinkFlag = false := rfl

@[simp] theorem resetRaster_latch (s : State) (n : Nat) : (resetRaster s n).latch = false := rfl

@[simp] theorem resetRaster_borderTab (s : State) (n : Nat) :
    (resetRaster s n).borderTab = List.replicate s.cfg.totalLines 0 := rfl

@[simp] theorem resetRaster_fb (s : State) (n : Nat) : (resetRaster s n).fb = List.replicate s.cfg.fbH none := rfl

@[simp] theorem resetRaster_fbDraw (s : State) (n : Nat) : (resetRaster s n).fbDraw = n := rfl

@[simp] theorem resetStores_ram (s : State) (n : Nat) : (resetStores s n).ram = [] := rfl

@[simp] theorem resetStores_vram (s : State) (n : Nat) : (resetStores s n).vram = [] := rfl

@[simp] theorem resetStores_ext (s : State) (n : Nat) : (resetStores s n).ext = [] := rfl

@[simp] theorem resetStores_powerDraw (s : State) (n : Nat) : (resetStores s n).powerDraw = n := rfl

@[simp] theorem resetStores_romImg (s : State) (n : Nat) :
    (resetStores s n).romImg = loadRoms s.cfg.roms (nextSupply s.supplies).roms := rfl

@[simp] theorem resetStores_diskImg (s : State) (n : Nat) :
    (resetStores s n).diskImg = loadDisk s.cfg.diskLen (nextSupply s.supplies).disk := rfl

@[simp] theorem resetStores_supplies (s : State) (n : Nat) : (resetStores s n).supplies = laterSupplies s.supplies := rfl

@[simp] theorem tickChips_chips (s : State) (n : Nat) :
    (tickChips s n).chips = s.chips.map fun e => (e.1, chipTick e.1 n e.2) := rfl

@[simp] theorem chipWrite_chips (s : State) (c : ChipId) (k : Nat) (v : Byte) :
    (chipWrite s c k v).chips = setChip s.chips c (Config.chipWrite c k v (chipState s.chips c)) := rfl

@[simp] theorem decodeLine_fb (s : State) (y : Nat) :
    (decodeLine s y).fb = s.fb.set y (some ((List.range s.cfg.fbW).map (decodePixel s y))) := rfl

@[simp] theorem placeRequest_requests (s : State) (w : Request) : (placeRequest s w).requests = w :: s.requests := rfl

end Sys2Proof.Machine
end

