-- ==== Sys2Proof/Laws/Memory.lean ====
section
/-! SUPPORT. The laws of the backing stores: read after write, the canonical form, and images and chip lists. -/

namespace Sys2Proof.Machine

open Sys2Proof

@[simp] theorem Memory.read_write_same (m : Memory) (a : Nat) (v : Byte) :
    Memory.read (Memory.write m a v) a = some v := by
  induction m with
  | nil => simp [Memory.write, Memory.read]
  | cons c m ih =>
    obtain ⟨b, w⟩ := c
    unfold Memory.write
    split
    · simp [Memory.read]
    · split
      · simp [Memory.read]
      · rename_i _ h
        simp [Memory.read, Ne.symm h, ih]

theorem Memory.read_write_other (m : Memory) {a b : Nat} (v : Byte) (h : b ≠ a) :
    Memory.read (Memory.write m a v) b = Memory.read m b := by
  induction m with
  | nil => simp [Memory.write, Memory.read, Ne.symm h]
  | cons c m ih =>
    obtain ⟨k, w⟩ := c
    unfold Memory.write
    split
    · simp [Memory.read, Ne.symm h]
    · split
      · rename_i _ e
        subst e
        simp [Memory.read, Ne.symm h]
      · simp [Memory.read, ih]

/-- The canonical form, read as an order on the list. -/
theorem Memory.wf_iff_pairwise (m : Memory) :
    Memory.wf m = true ↔ m.Pairwise fun c d => c.1 < d.1 := by
  induction m with
  | nil => simp [Memory.wf]
  | cons c m ih =>
    cases m with
    | nil => simp [Memory.wf]
    | cons d m =>
      rw [Memory.wf, Bool.and_eq_true, ih, decide_eq_true_eq, List.pairwise_cons (a := c)]
      constructor
      · rintro ⟨h, p⟩
        refine ⟨fun e he => ?_, p⟩
        rcases List.mem_cons.mp he with rfl | he
        · exact h
        · exact h.trans ((List.pairwise_cons.mp p).1 e he)
      · rintro ⟨h, p⟩
        exact ⟨h d List.mem_cons_self, p⟩

theorem Memory.mem_write {m : Memory} {a : Nat} {v : Byte} {c : Host.Cell} (h : c ∈ Memory.write m a v) :
    c = (a, v) ∨ c ∈ m := by
  induction m with
  | nil => simpa [Memory.write] using h
  | cons d m ih =>
    obtain ⟨k, w⟩ := d
    unfold Memory.write at h
    split at h
    · simpa using h
    · split at h
      · rcases List.mem_cons.mp h with h | h
        · exact .inl h
        · exact .inr (List.mem_cons_of_mem _ h)
      · rcases List.mem_cons.mp h with h | h
        · exact .inr (h ▸ List.mem_cons_self)
        · exact (ih h).imp_right (List.mem_cons_of_mem _)

/-- Every write keeps the canonical form. -/
theorem Memory.write_wf {m : Memory} (h : Memory.wf m = true) (a : Nat) (v : Byte) :
    Memory.wf (Memory.write m a v) = true := by
  rw [Memory.wf_iff_pairwise] at h ⊢
  induction m with
  | nil => simp [Memory.write]
  | cons c m ih =>
    obtain ⟨k, w⟩ := c
    obtain ⟨hk, hm⟩ := List.pairwise_cons.mp h
    unfold Memory.write
    split
    · rename_i hlt
      refine List.pairwise_cons.mpr ⟨fun d hd => ?_, h⟩
      rcases List.mem_cons.mp hd with rfl | hd
      · exact hlt
      · exact Nat.lt_trans hlt (hk d hd)
    · split
      · rename_i e
        subst e
        exact List.pairwise_cons.mpr ⟨hk, hm⟩
      · refine List.pairwise_cons.mpr ⟨fun d hd => ?_, ih hm⟩
        rcases Memory.mem_write hd with rfl | hd
        · show k < a
          omega
        · exact hk d hd

/-- A write keeps a bound on the addresses. -/
theorem Memory.write_bound {m : Memory} {n a : Nat} (h : ∀ c ∈ m, c.1 < n) (ha : a < n) (v : Byte) :
    ∀ c ∈ Memory.write m a v, c.1 < n := fun c hc => by
  rcases Memory.mem_write hc with rfl | hc
  · exact ha
  · exact h c hc

theorem Memory.read_eq_some_iff {m : Memory} (h : Memory.wf m = true) (a : Nat) (v : Byte) :
    Memory.read m a = some v ↔ (a, v) ∈ m := by
  rw [Memory.wf_iff_pairwise] at h
  induction m with
  | nil => simp [Memory.read]
  | cons c m ih =>
    obtain ⟨k, w⟩ := c
    obtain ⟨hk, hm⟩ := List.pairwise_cons.mp h
    rw [Memory.read]
    split
    · rename_i e
      subst e
      constructor
      · rintro ⟨⟩
        exact List.mem_cons_self
      · intro hv
        rcases List.mem_cons.mp hv with e | hv
        · exact congrArg some (Prod.ext_iff.mp e).2.symm
        · exact absurd (hk _ hv) (Nat.lt_irrefl _)
    · rename_i hne
      rw [ih hm, List.mem_cons]
      constructor
      · exact .inr
      · rintro (e | hv)
        · exact absurd (Prod.ext_iff.mp e).1.symm hne
        · exact hv

/-- Equal memories are equal data: two memories in canonical form that read alike are one list. -/
theorem Memory.ext_of_wf {m n : Memory} (hm : Memory.wf m = true) (hn : Memory.wf n = true)
    (h : ∀ a, Memory.read m a = Memory.read n a) : m = n := by
  have hmem : ∀ c, c ∈ m ↔ c ∈ n := fun ⟨a, v⟩ => by
    rw [← Memory.read_eq_some_iff hm, ← Memory.read_eq_some_iff hn, h]
  rw [Memory.wf_iff_pairwise] at hm hn
  have nodup : ∀ {l : Memory}, l.Pairwise (fun c d => c.1 < d.1) → l.Nodup := fun hl =>
    hl.imp fun {c d} hcd e => by
      subst e
      exact Nat.lt_irrefl _ hcd
  have perm : m.Perm n := (List.perm_ext_iff_of_nodup (nodup hm) (nodup hn)).mpr hmem
  exact List.Perm.eq_of_pairwise (fun c d _ _ hcd hdc => absurd (hcd.trans hdc) (Nat.lt_irrefl _)) hm hn perm

/-! ### Disk images (R39) -/

@[simp] theorem fitImage_length (len : Nat) (img : Image) : (fitImage len img).length = len := by
  simp [fitImage]
  omega

/-- A fitted image holds the supplied bytes, and `0xFF` past their end. -/
theorem fitImage_getD {len k : Nat} (img : Image) (h : k < len) : (fitImage len img).getD k 0 = img.getD k 0xFF := by
  simp only [fitImage, List.getD_eq_getElem?_getD, List.getElem?_append, List.length_take, List.getElem?_take,
    List.getElem?_replicate]
  by_cases hk : k < img.length
  · simp [h, hk]
  · simp [hk, show k - min len img.length < len - img.length by omega]

/-- Loading always gives an image of the overlay's length. -/
theorem loadDisk_length {len : Nat} {disk : Option Image} {img : Image} (h : loadDisk len disk = some img) :
    img.length = len := by
  cases disk with
  | none => cases h
  | some d =>
    cases h
    exact fitImage_length len d

/-- An address that resolves to the disk overlay has an offset below `DISK_LEN` (R54). -/
theorem resolve_disk_lt {cfg : Cfg} {bank : Bank} {addr : Addr} (h : (resolve cfg bank addr).1 = .disk) :
    (resolve cfg bank addr).2 < cfg.diskLen := by
  unfold resolve at h ⊢
  dsimp only at h ⊢
  split at h
  · split at h <;> cases h
  · rename_i hext
    rw [if_neg hext]
    split at h
    · rename_i hdisk
      simp only [Bool.and_eq_true, inRange, decide_eq_true_eq] at hdisk
      rw [if_pos (by simpa [inRange] using hdisk)]
      dsimp only
      omega
    · split at h
      · cases h
      · split at h
        · cases h
        · split at h <;> cases h

/-- Every backing write keeps a disk image's length. -/
theorem backWrite_diskFits {s : State} (h : DiskFits s) (r : Region) (off : Nat) (v : Byte) :
    DiskFits (backWrite s r off v) := by
  intro img hi
  rw [backWrite_cfg]
  cases r with
  | disk =>
    unfold backWrite at hi
    dsimp only at hi
    split at hi
    · obtain ⟨old, ho, rfl⟩ := Option.map_eq_some_iff.mp hi
      rw [List.length_set, h old ho]
    · exact h img hi
  | ext => exact h img hi
  | rom i => exact h img hi
  | vram => exact h img hi
  | ram => exact h img hi
  | openBus => exact h img hi

/-- Loading at PowerOn gives a disk image of the overlay's length, whatever is supplied. -/
theorem resetStores_diskFits (s : State) (n : Nat) : DiskFits (resetStores s n) := fun _ hi => loadDisk_length hi

/-- A new instance has a disk image of the overlay's length, or none. -/
theorem construct_diskFits (cfg : Cfg) (supplies : List Supply) : DiskFits (State.construct cfg supplies) :=
  fun _ hi => loadDisk_length hi

/-! ### Reads after writes -/

/-- Reading a byte anywhere after a backing write (R58, R59), where an image that is written holds the offset. -/
theorem backRead_backWrite (s : State) (r q : Region) (off o : Nat) (v : Byte)
    (hd : r = .disk → ∀ img, s.diskImg = some img → off < img.length) :
    backRead (backWrite s r off v) q o =
      if q = r ∧ o = off ∧ mutableRegion s r = true then v else backRead s q o := by
  have mem : ∀ (m : Memory) (dflt : Byte),
      ((Memory.write m off v).read o).getD dflt = if o = off then v else (Memory.read m o).getD dflt := by
    intro m dflt
    split
    · rename_i e
      subst e
      simp
    · rename_i h
      rw [Memory.read_write_other m v h]
  cases r with
  | ext => cases q <;> simp [backRead, backWrite, extByte, ramByte, vramByte, mutableRegion, mem]
  | vram => cases q <;> simp [backRead, backWrite, extByte, ramByte, vramByte, mutableRegion, mem]
  | ram => cases q <;> simp [backRead, backWrite, extByte, ramByte, vramByte, mutableRegion, mem]
  | rom i => simp [backWrite, mutableRegion]
  | openBus => simp [backWrite, mutableRegion]
  | disk =>
    unfold backWrite mutableRegion
    by_cases hw : s.cfg.diskWritable = true
    · cases q <;> simp only [hw, if_true, backRead, extByte, ramByte, vramByte] <;> try simp
      cases hi : s.diskImg with
      | none => simp [imageByte]
      | some img =>
        have hl : off < img.length := hd rfl img hi
        simp only [Option.map_some, Option.isSome_some, imageByte, List.getD_eq_getElem?_getD, List.getElem?_set]
        by_cases ho : o = off
        · subst ho
          simp [hl]
        · simp [ho, Ne.symm ho]
    · simp [hw]

/-- What a byte of memory reads as after MEM_WR's store. -/
theorem memRead_memWrite (s : State) (hd : DiskFits s) (a b : Addr) (v : Byte) :
    memRead (memWrite s a v) b =
      if resolve s.cfg s.bank b = resolve s.cfg s.bank a ∧ mutableRegion s (resolve s.cfg s.bank a).1 = true
      then v else memRead s b := by
  have fits : (resolve s.cfg s.bank a).1 = .disk → ∀ img, s.diskImg = some img →
      (resolve s.cfg s.bank a).2 < img.length := by
    intro hr img hi
    rw [hd img hi]
    exact resolve_disk_lt hr
  simp only [memRead, memWrite, backWrite_cfg, backWrite_bank, backRead_backWrite s _ _ _ _ v fits, Prod.ext_iff,
    and_assoc]

/-! ### Chips -/

theorem setChip_names (chips : List (ChipId × ChipState)) (c : ChipId) (st : ChipState) :
    (setChip chips c st).map Prod.fst = chips.map Prod.fst := by
  rw [setChip, List.map_map]
  refine List.map_congr_left fun e _ => ?_
  dsimp only [Function.comp]
  split <;> rfl

/-- The state of a chip after one chip's state is replaced. -/
theorem chipState_setChip (chips : List (ChipId × ChipState)) (c d : ChipId) (st : ChipState) :
    chipState (setChip chips c st) d =
      if d = c ∧ c ∈ chips.map Prod.fst then st else chipState chips d := by
  induction chips with
  | nil => simp [setChip, chipState, findKey]
  | cons e chips ih =>
    obtain ⟨k, w⟩ := e
    simp only [chipState, setChip, List.map_cons, findKey] at ih ⊢
    by_cases hk : k = c
    · subst hk
      by_cases hd : k = d
      · subst hd
        simp
      · simp only [Ne.symm hd, false_and, if_false, if_true, if_neg hd] at ih ⊢
        exact ih
    · by_cases hd : k = d
      · subst hd
        simp [hk]
      · simp only [if_neg hk, if_neg hd, List.mem_cons, Ne.symm hk, false_or]
        exact ih

/-- The state of a chip after an update of every chip (a tick, a reset). -/
theorem chipState_map (chips : List (ChipId × ChipState)) (f : ChipId → ChipState → ChipState) {c : ChipId}
    (h : c ∈ chips.map Prod.fst) :
    chipState (chips.map fun e => (e.1, f e.1 e.2)) c = f c (chipState chips c) := by
  induction chips with
  | nil => simp at h
  | cons e chips ih =>
    obtain ⟨k, w⟩ := e
    simp only [chipState, List.map_cons, findKey] at ih h ⊢
    by_cases hk : k = c
    · subst hk
      simp
    · have hc : c ∈ chips.map Prod.fst := by
        rcases List.mem_cons.mp h with e | h
        · exact absurd e.symm hk
        · exact h
      simpa [hk] using ih hc

end Sys2Proof.Machine
end

