-- ==== Sys2Proof/Laws/Ops.lean ====
section
/-! SUPPORT. One lemma per shared operation that says all it can do: answering, the wait count, the interrupt request,
the selection of a source, and the finish of every source. -/

namespace Sys2Proof.Machine

open Sys2Proof

/-- Answering (R73): the state with the response, its request level that of the state itself. -/
theorem respond_eq_next_iff {s t : State} {data : Byte} {wait : Nat} :
    respond s data wait = .next t ↔
      t = { s with response := some { data := data, wait := BitVec.ofNat 8 wait, irq := irqLevel s } } := by
  unfold respond
  constructor
  · intro h
    cases h
    rfl
  · rintro rfl
    rfl

/-- A key with a value in a list of pairs is listed. -/
theorem findKey_listed {α β : Type} [DecidableEq α] {l : List (α × β)} {a : α} {v : β} (h : findKey l a = some v) :
    ∃ e ∈ l, e.1 = a := by
  induction l with
  | nil => cases h
  | cons e rest ih =>
    by_cases he : e.1 = a
    · exact ⟨e, List.mem_cons_self, he⟩
    · simp only [findKey, if_neg he] at h
      obtain ⟨f, hf, rfl⟩ := ih h
      exact ⟨f, List.mem_cons_of_mem _ hf, rfl⟩

/-- A port whose handler is not UNMAPPED is listed (R85). -/
theorem handler_listed {cfg : Cfg} {p : Byte} (h : cfg.handler p ≠ .unmapped) : ∃ e ∈ cfg.portMap, e.1 = p := by
  cases hf : findKey cfg.portMap p with
  | none => exact absurd (by simp [Cfg.handler, hf]) h
  | some v => exact findKey_listed hf

/-- A configuration maps the keyboard exactly where some port's handler is KEYBOARD (R85, R92). -/
theorem mapsKeyboard_iff {cfg : Cfg} : cfg.mapsKeyboard = true ↔ ∃ p k, cfg.handler p = .keyboard k := by
  unfold Cfg.mapsKeyboard
  rw [List.any_eq_true]
  constructor
  · rintro ⟨e, -, he⟩
    split at he
    · exact ⟨_, _, ‹_›⟩
    · cases he
  · rintro ⟨p, k, h⟩
    obtain ⟨e, he, rfl⟩ := handler_listed (h.trans_ne (by simp))
    exact ⟨e, he, by rw [h]⟩

/-- What a chip read's byte may see of the matrix (R92): nothing where some port's handler is KEYBOARD, else all of it. -/
theorem chipSnapshot_eq (s : State) :
    ((∀ p k, s.cfg.handler p ≠ .keyboard k) → chipSnapshot s = some s.matrix) ∧
    ((∃ p k, s.cfg.handler p = .keyboard k) → chipSnapshot s = none) := by
  refine ⟨fun h => if_neg fun hk => ?_, fun h => if_pos (mapsKeyboard_iff.2 h)⟩
  obtain ⟨p, k, hp⟩ := mapsKeyboard_iff.1 hk
  exact h p k hp

/-- A transaction that completes is some state answering: its state alone, less the response, and a byte and a count. -/
theorem exec_eq_next {i : Instr} {s t : State} (h : exec i s = .next t) :
    ∃ (u : State) (data : Byte) (wait : Nat), exec i s = respond u data wait := by
  cases i with
  | speed khz =>
    change execSpeed khz s = _ at h
    change ∃ u data wait, execSpeed khz s = _
    unfold execSpeed at h ⊢
    split at h
    · cases h
    · rename_i hk
      exact ⟨_, _, _, if_neg hk⟩
  | vidPix x y =>
    change execVidPix x y s = _ at h
    change ∃ u data wait, execVidPix x y s = _
    unfold execVidPix at h ⊢
    split at h
    · cases h
    · rename_i hk
      exact ⟨_, _, _, if_neg hk⟩
  | keySet row mask =>
    change execKeySet row mask s = _ at h
    change ∃ u data wait, execKeySet row mask s = _
    unfold execKeySet at h ⊢
    split at h
    · cases h
    · rename_i hk
      exact ⟨_, _, _, if_neg hk⟩
  | intAck =>
    change ∃ u data wait, execIntAck s = _
    unfold execIntAck
    split <;> exact ⟨_, _, _, rfl⟩
  | memRd => exact ⟨_, _, _, rfl⟩
  | memWr => exact ⟨_, _, _, rfl⟩
  | memPeek => exact ⟨_, _, _, rfl⟩
  | ioRd => exact ⟨_, _, _, rfl⟩
  | ioWr => exact ⟨_, _, _, rfl⟩
  | tick => exact ⟨_, _, _, rfl⟩
  | intQuery => exact ⟨_, _, _, rfl⟩
  | intFin => exact ⟨_, _, _, rfl⟩
  | resetPowerOn => exact ⟨_, _, _, rfl⟩
  | resetCold => exact ⟨_, _, _, rfl⟩
  | resetWarm => exact ⟨_, _, _, rfl⟩
  | vidBorder => exact ⟨_, _, _, rfl⟩
  | keyRelease => exact ⟨_, _, _, rfl⟩
  | joySet => exact ⟨_, _, _, rfl⟩

/-- R96: no wait count is above `P`. -/
theorem waitFor_le_period (s : State) (contended : Bool) (dt : Byte) : waitFor s contended dt ≤ s.cfg.period := by
  unfold waitFor waitCycles
  dsimp only
  split
  · split <;> omega
  · omega

/-- The request level is a function of the registration order, the latch and the chips. -/
theorem irqLevel_congr {s t : State} (hc : t.cfg = s.cfg) (hl : t.latch = s.latch) (hp : t.chips = s.chips) :
    irqLevel t = irqLevel s := by
  unfold irqLevel
  rw [hc]
  congr 1
  funext src
  cases src <;> simp [pending, hl, hp]

/-- R129: the selected source is the first pending one. -/
theorem select_eq_some {s : State} {before after : List Source} {src : Source}
    (h : s.cfg.sourceOrder = before ++ src :: after) (hb : ∀ q ∈ before, pending s q = false)
    (hp : pending s src = true) : select s = some src := by
  unfold select
  rw [h, List.find?_append, List.find?_eq_none.mpr (by simpa using hb)]
  simp [hp]

/-- R132: finishing any sources changes the chips only. -/
theorem foldl_finishSource (l : List Source) (s : State) :
    l.foldl finishSource s = { s with chips := (l.foldl finishSource s).chips } := by
  induction l generalizing s with
  | nil => rfl
  | cons a l ih =>
    rw [List.foldl_cons, ih]
    cases a <;> rfl

end Sys2Proof.Machine
end

