-- ==== Sys2Proof/Laws/PerInstr.lean ====
section
/-! SUPPORT. One statement per constructor of Instr: its encoding is an instance of its row of
spec/opcode_table.json (match and mask). -/

namespace Sys2Proof.Laws.TableRow

open Sys2Proof

/-- The masked bits of the encoding are the row's match. -/
def Statement (i : Instr) : Prop := encode i &&& tableMask i = tableMatch i

theorem zero_high (b : Byte) : b.setWidth 16 &&& (0xFF00 : BitVec 16) = 0 := by
  revert b
  decide

theorem fetch_sub (f : Bool) : fetchSub f &&& (0xE : BitVec 4) = 0 := by
  cases f <;> decide

theorem memRd (isFetch : Bool) (dt : Byte) (addr : Addr) : Statement (.memRd isFetch dt addr) := by
  refine (pack_and 0x1 _ 0xF 0xE dt 0 addr 0 0 0xFFFF).trans ?_
  rw [fetch_sub]
  simp
  rfl

theorem memWr (dt : Byte) (addr : Addr) (data : Byte) : Statement (.memWr dt addr data) := by
  refine (pack_and 0x2 0 0xF 0xF dt 0 addr _ 0 0xFF00).trans ?_
  rw [zero_high]
  simp
  rfl

theorem memPeek (isFetch : Bool) (addr : Addr) : Statement (.memPeek isFetch addr) := by
  refine (pack_and 0x3 _ 0xF 0xE 0 0xFF addr 0 0 0xFFFF).trans ?_
  rw [fetch_sub]
  simp
  rfl

theorem ioRd (dt : Byte) (portAddr : Addr) : Statement (.ioRd dt portAddr) := by
  refine (pack_and 0x4 0 0xF 0xF dt 0 portAddr 0 0 0xFFFF).trans ?_
  simp
  rfl

theorem ioWr (dt : Byte) (portAddr : Addr) (data : Byte) : Statement (.ioWr dt portAddr data) := by
  refine (pack_and 0x5 0 0xF 0xF dt 0 portAddr _ 0 0xFF00).trans ?_
  rw [zero_high]
  simp
  rfl

theorem tick (n : BitVec 32) : Statement (.tick n) := by
  refine (pack_and 0x6 0 0xF 0xF 0 0xFF _ _ 0 0).trans ?_
  simp
  rfl

theorem intQuery : Statement .intQuery := by
  unfold Statement
  decide

theorem intAck : Statement .intAck := by
  unfold Statement
  decide

theorem intFin : Statement .intFin := by
  unfold Statement
  decide

theorem resetPowerOn : Statement .resetPowerOn := by
  unfold Statement
  decide

theorem resetCold : Statement .resetCold := by
  unfold Statement
  decide

theorem resetWarm : Statement .resetWarm := by
  unfold Statement
  decide

theorem speed (khz : BitVec 32) : Statement (.speed khz) := by
  refine (pack_and 0xB 0 0xF 0xF 0 0xFF _ _ 0 0).trans ?_
  simp
  rfl

theorem vidPix (x y : BitVec 16) : Statement (.vidPix x y) := by
  refine (pack_and 0xC 0 0xF 0xF 0 0xFF _ _ 0 0).trans ?_
  simp
  rfl

theorem vidBorder (line : BitVec 32) : Statement (.vidBorder line) := by
  refine (pack_and 0xD 0 0xF 0xF 0 0xFF _ _ 0 0).trans ?_
  simp
  rfl

theorem keySet (row : BitVec 16) (mask : Byte) : Statement (.keySet row mask) := by
  refine (pack_and 0xE 0 0xF 0xF 0 0xFF row _ 0 0xFF00).trans ?_
  rw [zero_high]
  simp
  rfl

theorem keyRelease : Statement .keyRelease := by
  unfold Statement
  decide

theorem joySet (mask : Byte) : Statement (.joySet mask) := by
  refine (pack_and 0xE 2 0xF 0xF 0 0xFF 0 _ 0xFFFF 0xFF00).trans ?_
  rw [zero_high]
  simp
  rfl

end Sys2Proof.Laws.TableRow
end

