-- ==== Sys2Proof/Laws/Raster.lean ====
section
/-! SUPPORT. What one line boundary does to each part of the raster (R105, R106, R108), and what any number of them
does (R111). -/

namespace Sys2Proof.Machine

open Sys2Proof

/-! ### One boundary -/

theorem blinkStep_blinkCnt (s : State) :
    (blinkStep s).blinkCnt = if s.blinkCnt + 1 = s.cfg.blinkPeriod then 0 else s.blinkCnt + 1 := by
  unfold blinkStep
  split <;> rfl

theorem blinkStep_blinkFlag (s : State) :
    (blinkStep s).blinkFlag = if s.blinkCnt + 1 = s.cfg.blinkPeriod then !s.blinkFlag else s.blinkFlag := by
  unfold blinkStep
  split <;> rfl

theorem lineEnd_line (s : State) :
    (lineEnd s).line = if s.line + 1 = s.cfg.totalLines then 0 else s.line + 1 := by
  unfold lineEnd nextLine
  simp only [lineBlink_line, recordLine_line, lineBlink_cfg, recordLine_cfg]
  split
  · split <;> simp
  · rfl

theorem lineEnd_latch (s : State) :
    (lineEnd s).latch = (s.latch || decide (s.line + 1 = s.cfg.totalLines)) := by
  unfold lineEnd nextLine
  simp only [lineBlink_line, recordLine_line, lineBlink_cfg, recordLine_cfg]
  split
  · rename_i h
    split <;> simp [h]
  · rename_i h
    simp [h]

theorem lineEnd_borderTab (s : State) : (lineEnd s).borderTab = s.borderTab.set s.line s.border := by
  simp only [lineEnd, nextLine_borderTab, lineBlink_borderTab, recordLine]
  split <;> simp

theorem lineEnd_fb (s : State) :
    (lineEnd s).fb = if s.cfg.inBand s.line = true
      then s.fb.set (s.line - s.cfg.firstVisible)
        (some ((List.range s.cfg.fbW).map (decodePixel s (s.line - s.cfg.firstVisible))))
      else s.fb := by
  simp only [lineEnd, nextLine_fb, lineBlink_fb, recordLine]
  split <;> rfl

/-- How many blink boundaries `k` line boundaries are (R106): all of them, or the frame wraps. -/
def blinkBoundaries (s : State) (k : Nat) : Nat :=
  if s.cfg.blinkUnit = .line then k else (s.line + k) / s.cfg.totalLines

/-- The counter and the flag after `b` blink boundaries, by arithmetic and by one step. -/
theorem blink_one {P c : Nat} (h : c < P) (f : Bool) :
    (c + 1) % P = (if c + 1 = P then 0 else c + 1) ∧
    f.xor (decide ((c + 1) / P % 2 = 1)) = if c + 1 = P then !f else f := by
  by_cases e : c + 1 = P
  · simp [e, Nat.div_self (show 0 < P by omega)]
  · simp [e, Nat.mod_eq_of_lt (show c + 1 < P by omega), Nat.div_eq_of_lt (show c + 1 < P by omega)]

theorem lineEnd_blink (s : State) (hb : s.blinkCnt < s.cfg.blinkPeriod) (hl : s.line < s.cfg.totalLines) :
    (lineEnd s).blinkCnt = (s.blinkCnt + blinkBoundaries s 1) % s.cfg.blinkPeriod ∧
    (lineEnd s).blinkFlag =
      s.blinkFlag.xor (decide ((s.blinkCnt + blinkBoundaries s 1) / s.cfg.blinkPeriod % 2 = 1)) := by
  obtain ⟨one, oneF⟩ := blink_one hb s.blinkFlag
  have zero : s.blinkCnt % s.cfg.blinkPeriod = s.blinkCnt := Nat.mod_eq_of_lt hb
  have zeroF : s.blinkCnt / s.cfg.blinkPeriod = 0 := Nat.div_eq_of_lt hb
  unfold lineEnd nextLine lineBlink blinkBoundaries
  cases hu : s.cfg.blinkUnit with
  | line =>
    by_cases hw : s.line + 1 = s.cfg.totalLines <;>
      simp [hu, hw, blinkStep_blinkCnt, blinkStep_blinkFlag, one, oneF]
  | frame =>
    by_cases hw : s.line + 1 = s.cfg.totalLines
    · have wrap : s.cfg.totalLines / s.cfg.totalLines = 1 := Nat.div_self (by omega)
      simp [hu, hw, wrap, blinkStep_blinkCnt, blinkStep_blinkFlag, one, oneF]
    · have noWrap : (s.line + 1) / s.cfg.totalLines = 0 := Nat.div_eq_of_lt (by omega)
      simp [hu, hw, noWrap, zero, zeroF]

theorem lineEnd_with_acc (s : State) (x : Nat) : lineEnd { s with acc := x } = { lineEnd s with acc := x } := by
  unfold lineEnd nextLine lineBlink recordLine blinkStep
  dsimp only [decodeLine, decodePixel, videoByte, vramByte, ramByte]
  split <;> split <;> (try split) <;> (try split) <;> (try split) <;> (try split) <;> rfl

/-! ### Any number of boundaries -/

theorem lineEnd_line_lt (s : State) (h : s.line < s.cfg.totalLines) : (lineEnd s).line < s.cfg.totalLines := by
  rw [lineEnd_line]
  split <;> omega

theorem lineEnds_line (k : Nat) (s : State) (h : s.line < s.cfg.totalLines) :
    (lineEnds k s).line = (s.line + k) % s.cfg.totalLines := by
  induction k generalizing s with
  | zero => exact (Nat.mod_eq_of_lt h).symm
  | succ k ih =>
    rw [lineEnds, ih (lineEnd s) (by simpa using lineEnd_line_lt s h), lineEnd_cfg, lineEnd_line]
    split
    · rename_i e
      rw [show s.line + (k + 1) = s.cfg.totalLines + k by omega, Nat.add_mod_left, Nat.zero_add]
    · congr 1
      omega

/-- R111(b): boundaries set the latch exactly when one of them ends the last line. -/
theorem lineEnds_latch (k : Nat) (s : State) (h : s.line < s.cfg.totalLines) :
    (lineEnds k s).latch = (s.latch || decide (s.cfg.totalLines ≤ s.line + k)) := by
  induction k generalizing s with
  | zero =>
    have : ¬ s.cfg.totalLines ≤ s.line := by omega
    simp [lineEnds, this]
  | succ k ih =>
    rw [lineEnds, ih (lineEnd s) (by simpa using lineEnd_line_lt s h), lineEnd_cfg, lineEnd_latch, lineEnd_line,
      Bool.or_assoc]
    congr 1
    by_cases e : s.line + 1 = s.cfg.totalLines
    · simp [e]
      omega
    · simp only [e, decide_false, Bool.false_or, if_false]
      congr 1
      exact propext (by omega)

/-- R105: the border table after `k` boundaries: the entry of each line that ended holds the border. -/
theorem lineEnds_borderTab (k : Nat) (s : State) (h : s.line < s.cfg.totalLines)
    (hlen : s.borderTab.length = s.cfg.totalLines) (L : Nat) :
    (lineEnds k s).borderTab.getD L 0 =
      if ∃ j, j < k ∧ (s.line + j) % s.cfg.totalLines = L then s.border else s.borderTab.getD L 0 := by
  induction k generalizing s with
  | zero => simp [lineEnds]
  | succ k ih =>
    rw [lineEnds, ih (lineEnd s) (by simpa using lineEnd_line_lt s h) (by simpa [lineEnd_borderTab] using hlen),
      lineEnd_cfg, lineEnd_border, lineEnd_borderTab]
    have shift : ∀ j, ((lineEnd s).line + j) % s.cfg.totalLines = (s.line + (j + 1)) % s.cfg.totalLines := by
      intro j
      rw [lineEnd_line]
      split
      · rename_i e
        rw [show s.line + (j + 1) = s.cfg.totalLines + j by omega, Nat.add_mod_left, Nat.zero_add]
      · congr 1
        omega
    have split_first : (∃ j, j < k + 1 ∧ (s.line + j) % s.cfg.totalLines = L) ↔
        (∃ j, j < k ∧ ((lineEnd s).line + j) % s.cfg.totalLines = L) ∨ s.line = L := by
      constructor
      · rintro ⟨j, hj, e⟩
        cases j with
        | zero => exact .inr (by rwa [Nat.add_zero, Nat.mod_eq_of_lt h] at e)
        | succ j => exact .inl ⟨j, by omega, by rw [shift, e]⟩
      · rintro (⟨j, hj, e⟩ | e)
        · exact ⟨j + 1, by omega, by rw [← shift, e]⟩
        · exact ⟨0, by omega, by rw [Nat.add_zero, Nat.mod_eq_of_lt h, e]⟩
    by_cases h1 : ∃ j, j < k ∧ ((lineEnd s).line + j) % s.cfg.totalLines = L
    · rw [if_pos h1, if_pos (split_first.mpr (.inl h1))]
    · rw [if_neg h1, List.getD_eq_getElem?_getD, List.getElem?_set]
      by_cases h2 : s.line = L
      · rw [if_pos h2, if_pos (by omega), if_pos (split_first.mpr (.inr h2))]
        rfl
      · rw [if_neg h2, if_neg (by rw [split_first]; exact not_or.mpr ⟨h1, h2⟩), List.getD_eq_getElem?_getD]

/-- R106: the blink phase after `k` boundaries. -/
theorem lineEnds_blink (k : Nat) (s : State) (hb : s.blinkCnt < s.cfg.blinkPeriod)
    (hl : s.line < s.cfg.totalLines) :
    (lineEnds k s).blinkCnt = (s.blinkCnt + blinkBoundaries s k) % s.cfg.blinkPeriod ∧
    (lineEnds k s).blinkFlag =
      s.blinkFlag.xor (decide ((s.blinkCnt + blinkBoundaries s k) / s.cfg.blinkPeriod % 2 = 1)) := by
  induction k generalizing s with
  | zero =>
    have : blinkBoundaries s 0 = 0 := by
      unfold blinkBoundaries
      split
      · rfl
      · exact Nat.div_eq_of_lt hl
    simp [lineEnds, this, Nat.mod_eq_of_lt hb, Nat.div_eq_of_lt hb]
  | succ k ih =>
    obtain ⟨h1, h2⟩ := lineEnd_blink s hb hl
    have hP : 0 < s.cfg.blinkPeriod := by omega
    have hb' : (lineEnd s).blinkCnt < (lineEnd s).cfg.blinkPeriod := by
      rw [h1, lineEnd_cfg]
      exact Nat.mod_lt _ hP
    obtain ⟨i1, i2⟩ := ih (lineEnd s) hb' (by simpa using lineEnd_line_lt s hl)
    have add : blinkBoundaries s (k + 1) = blinkBoundaries s 1 + blinkBoundaries (lineEnd s) k := by
      unfold blinkBoundaries
      rw [lineEnd_cfg, lineEnd_line]
      split
      · omega
      · split
        · rename_i e
          rw [show s.line + (k + 1) = s.cfg.totalLines + k by omega, e, Nat.div_self (by omega), Nat.zero_add,
            Nat.add_div_left _ (by omega)]
          omega
        · rw [Nat.div_eq_of_lt (show s.line + 1 < s.cfg.totalLines by omega), Nat.zero_add]
          congr 1
          omega
    rw [lineEnds, i1, i2, lineEnd_cfg, h1, h2, add]
    refine ⟨?_, ?_⟩
    · rw [Nat.mod_add_mod, Nat.add_assoc]
    · rw [Bool.xor_assoc, ← Nat.add_assoc]
      congr 1
      generalize s.blinkCnt + blinkBoundaries s 1 = c
      generalize blinkBoundaries (lineEnd s) k = b
      have e : (c + b) / s.cfg.blinkPeriod = c / s.cfg.blinkPeriod + (c % s.cfg.blinkPeriod + b) / s.cfg.blinkPeriod := by
        conv_lhs => rw [← Nat.div_add_mod c s.cfg.blinkPeriod, Nat.add_assoc, Nat.mul_add_div hP]
      rw [e]
      generalize c / s.cfg.blinkPeriod = x
      generalize (c % s.cfg.blinkPeriod + b) / s.cfg.blinkPeriod = y
      rw [Nat.add_mod]
      rcases Nat.mod_two_eq_zero_or_one x with hx | hx <;> rcases Nat.mod_two_eq_zero_or_one y with hy | hy <;>
        simp [hx, hy]

theorem lineEnds_with_acc (k : Nat) (s : State) (x : Nat) :
    lineEnds k { s with acc := x } = { lineEnds k s with acc := x } := by
  induction k generalizing s with
  | zero => rfl
  | succ k ih => rw [lineEnds, lineEnd_with_acc, ih, lineEnds]

theorem lineEnds_fb_length (k : Nat) (s : State) : (lineEnds k s).fb.length = s.fb.length := by
  induction k generalizing s with
  | zero => rfl
  | succ k ih =>
    rw [lineEnds, ih, lineEnd_fb]
    split <;> simp

theorem lineEnds_borderTab_length (k : Nat) (s : State) : (lineEnds k s).borderTab.length = s.borderTab.length := by
  induction k generalizing s with
  | zero => rfl
  | succ k ih => rw [lineEnds, ih, lineEnd_borderTab, List.length_set]

/-- Decoded rows are `FB_W` long (R34). -/
theorem lineEnds_fb_rows (k : Nat) (s : State) (h : ∀ row, some row ∈ s.fb → row.length = s.cfg.fbW) :
    ∀ row, some row ∈ (lineEnds k s).fb → row.length = s.cfg.fbW := by
  induction k generalizing s with
  | zero => exact h
  | succ k ih =>
    have := ih (lineEnd s) (by
      rw [lineEnd_fb, lineEnd_cfg]
      split
      · intro row hr
        rcases List.mem_or_eq_of_mem_set hr with hr | hr
        · exact h row hr
        · simp [Option.some.inj hr]
      · exact h)
    simpa [lineEnds] using this

/-! ### What TICK does to the raster -/

/-- TICK's loop with the accumulator's last value written at the end. -/
theorem advanceRaster_eq (s : State) (n : Nat) :
    advanceRaster s n = { lineEnds ((s.acc + n) / s.cpl) s with acc := (s.acc + n) % s.cpl } :=
  lineEnds_with_acc _ s _

theorem advanceRaster_acc_eq (s : State) (n : Nat) : (advanceRaster s n).acc = (s.acc + n) % s.cpl := by
  rw [advanceRaster_eq]

theorem advanceRaster_line_eq (s : State) (n : Nat) (h : s.line < s.cfg.totalLines) :
    (advanceRaster s n).line = (s.line + (s.acc + n) / s.cpl) % s.cfg.totalLines := by
  rw [advanceRaster_eq]
  exact lineEnds_line _ s h

theorem advanceRaster_latch_eq (s : State) (n : Nat) (h : s.line < s.cfg.totalLines) :
    (advanceRaster s n).latch = (s.latch || decide (s.cfg.totalLines ≤ s.line + (s.acc + n) / s.cpl)) := by
  rw [advanceRaster_eq]
  exact lineEnds_latch _ s h

end Sys2Proof.Machine
end

