-- ==== Sys2Proof/Tests/Slice0.lean ====
section
/-! SUPPORT. The model's own tests: expected values are those of spec/95_test_vectors.md (the section is named at each
test) or worked by hand from the rule named; and, for every statement with hypotheses, a state and operands that meet
them (test_meets_…). -/

namespace Sys2Proof.Tests

open Sys2Proof Sys2Proof.Machine

/-! ### Helpers -/

/-- EX1 without its opaque chips: what 95 assumes with "no chip pending". -/
def quiet : Cfg :=
  { Config.ex1 with
    chips := []
    sourceOrder := [.video]
    portMap := [(0x80, .bankctl 0), (0x81, .border), (0x82, .joystick), (0x83, .keyboard 0)] }

/-- EX1 with one port, whose KEYBOARD entry an earlier entry hides. -/
def shadowed : Cfg := { Config.ex1 with portMap := [(4, .periph Config.pio 0), (4, .keyboard 0)] }

/-- 95: "after construction". -/
def start : State := State.construct quiet [Config.ex1Supply]

/-- `start` with the flags of a bank-control write. -/
def withBank (b : Bank) : State := { start with bank := b }

/-- `start` at a raster position. -/
def atLine (line acc : Nat) : State := { start with line := line, acc := acc }

/-- `start` with chip states and a latch: EX1's own registration order. -/
def withChips (latch ctcPending pioPending : Bool) : State :=
  { start with
    cfg := Config.ex1
    latch := latch
    chips := [(Config.ctc, { pending := ctcPending, inner := 0 }), (Config.pio, { pending := pioPending, inner := 0 })] }

/-- A small configuration: a frame of 4 lines of 4 cycles, two visible rows of 16 pixels. -/
def tiny : Cfg :=
  { quiet with
    totalLines := 4, firstVisible := 1, fbH := 2, fbW := 16, lwc := 4, blinkPeriod := 2
    lineRateNum := 1, lineRateDen := 1, clockKHzInit := 4 }

/-- An instance of `tiny`. -/
def tinyStart : State := State.construct tiny []

/-- What a request word answers: the response word of R73. -/
def answer (w : Request) (s : State) : Option (BitVec 32) :=
  match transact w s with
  | .next t => t.response.map responseWord
  | _ => none

/-- The wait count that a request word answers. -/
def waits (w : Request) (s : State) : Option Byte :=
  match transact w s with
  | .next t => t.response.map Response.wait
  | _ => none

/-- The reason why a request word is refused. -/
def reason (w : Request) (s : State) : Option Refusal :=
  match transact w s with
  | .refused r => some r
  | _ => none

/-- A field of the state after a request word. -/
def after {α : Type} (f : State → α) (w : Request) (s : State) : Option α :=
  match transact w s with
  | .next t => some (f t)
  | _ => none

/-- The state that a transaction which completes leaves; the state itself where it is refused. -/
def then' (i : Instr) (s : State) : State :=
  match exec i s with
  | .next t => t
  | _ => s

/-! ### Decoding: words written out from R70, R71 and R75 (95 section 2.1 and R80 among them) -/

theorem test_decode_memory :
    decode 0x110412340000 = .ok (.memRd true 4 0x1234) ∧ decode 0x1000FFFF0000 = .ok (.memRd false 0 0xFFFF) ∧
    decode 0x2004C0010081 = .ok (.memWr 4 0xC001 0x81) ∧ decode 0x300000010000 = .ok (.memPeek false 1) ∧
    decode 0x310080000000 = .ok (.memPeek true 0x8000) := by decide

theorem test_decode_ports :
    decode 0x4000FF820000 = .ok (.ioRd 0 0xFF82) ∧ decode 0x40FF00550000 = .ok (.ioRd 255 0x55) ∧
    decode 0x500000800034 = .ok (.ioWr 0 0x80 0x34) ∧ decode 0x500400810002 = .ok (.ioWr 4 0x81 2) := by decide

theorem test_decode_raster :
    decode 0x6000000000E0 = .ok (.tick 224) ∧ decode 0x6000000110FF = .ok (.tick 69887) ∧
    decode 0xB00000000DDB = .ok (.speed 3547) ∧ decode 0xC00000FF00BF = .ok (.vidPix 255 191) ∧
    decode 0xD000FFFFFFFF = .ok (.vidBorder (-1)) ∧ decode 0xD00080000000 = .ok (.vidBorder (-2147483648)) := by decide

theorem test_decode_interrupts :
    decode 0x700000000000 = .ok .intQuery ∧ decode 0x800000000000 = .ok .intAck ∧
    decode 0x900000000000 = .ok .intFin := by decide

theorem test_decode_resets :
    decode 0xA00000000000 = .ok .resetPowerOn ∧ decode 0xA10000000000 = .ok .resetCold ∧
    decode 0xA20000000000 = .ok .resetWarm := by decide

theorem test_decode_input :
    decode 0xE00000030010 = .ok (.keySet 3 0x10) ∧ decode 0xE10000000000 = .ok .keyRelease ∧
    decode 0xE20000000011 = .ok (.joySet 0x11) := by decide

theorem test_decode_reserved :
    decode 0x000000000000 = .error .reservedOp ∧ decode 0xF00000000000 = .error .reservedOp ∧
    decode 0x120000000000 = .error .reservedSub ∧ decode 0xE30000000000 = .error .reservedSub ∧
    decode 0x510000000000 = .error .reservedSub ∧ decode 0xA30000000000 = .error .invalidResetLevel := by decide

theorem test_decode_nonzero_field :
    decode 0x100000000001 = .error .nonZeroField ∧ decode 0x300400000000 = .error .nonZeroField ∧
    decode 0x200000000100 = .error .nonZeroField ∧ decode 0x700000000001 = .error .nonZeroField ∧
    decode 0xE20000010011 = .error .nonZeroField ∧ decode 0x600100000000 = .error .nonZeroField := by decide

theorem test_table_word :
    decodeTableWord 48 0xE00000030010 = some (.keySet 3 0x10) ∧ decodeTableWord 48 0xF00000000000 = none := by decide

/-- The word placed for the next step is the one that the step runs. -/
theorem test_fetch_word :
    Sys2Proof.Machine.step (start.withFetchWord 48 0xE20000000011) = exec (.joySet 0x11) start := by rfl

/-! ### Well-formedness (R9): EX1 passes, and each check refuses a configuration that breaks it -/

theorem test_wf_ex1 : Config.ex1.wf = true := by decide +kernel

theorem test_wf_tiny : tiny.wf = true := by decide

theorem test_wf_range : ({ tiny with extBase := 0xC001 } : Cfg).wf = false := by decide

theorem test_wf_disjoint : ({ tiny with ramLen := 0xC001 } : Cfg).wf = false := by decide

theorem test_wf_band : ({ tiny with firstVisible := 3 } : Cfg).wf = false := by decide

theorem test_wf_bytes : ({ tiny with fbW := 12 } : Cfg).wf = false := by decide

theorem test_wf_window :
    ({ tiny with period := 0 } : Cfg).wf = false ∧ ({ tiny with period := 256 } : Cfg).wf = false ∧
    ({ tiny with winStart := 129 } : Cfg).wf = false := by decide

theorem test_wf_video : ({ tiny with vramLen := 0x1821 } : Cfg).wf = false := by decide

theorem test_wf_sources :
    ({ tiny with sourceOrder := [.video, .video] } : Cfg).wf = false ∧
    ({ tiny with sourceOrder := [] } : Cfg).wf = false ∧
    ({ tiny with chips := [0] } : Cfg).wf = false ∧
    ({ tiny with sourceOrder := [.video, .chip 0] } : Cfg).wf = false := by decide

theorem test_wf_clock : ({ tiny with lineRateNum := 9 } : Cfg).wf = false := by decide

theorem test_wf_bounds :
    ({ tiny with blinkPeriod := 0 } : Cfg).wf = false ∧ ({ tiny with lwc := 0 } : Cfg).wf = false := by decide

theorem test_wf_chips : ({ tiny with portMap := [(0x00, .periph 0 0)] } : Cfg).wf = false := by decide

/-! ### The memory bus (95 section 2.2) -/

theorem test_memRd_rom :
    answer 0x100000010000 start = some 0x000000F1 ∧ answer 0x110000010000 start = some 0x000000F1 ∧
    answer 0x10001FFF0000 start = some 0x000000FF := by decide +kernel

/-- 95 section 2.4: the source's scenario (L1.6), the window's last phase and its end. -/
theorem test_memRd_wait :
    waits 0x1004C0000000 (atLine 64 0) = some 4 ∧ waits 0x107FC0000000 (atLine 64 0) = some 1 ∧
    waits 0x1080C0000000 (atLine 64 0) = some 0 ∧ waits 0x1000C0000000 (atLine 255 0) = some 8 ∧
    waits 0x1000C0000000 (atLine 256 0) = some 0 ∧ waits 0x100040000000 (atLine 64 0) = some 0 := by decide

theorem test_memWr_rom_and_vram :
    after (fun t => memRead t 0x0001) 0x200000010012 start = some 0xF1 ∧
    after (fun t => memRead t 0xC000) 0x2000C0000055 start = some 0x55 := by decide

/-- 95 program P4, line 6. -/
theorem test_memWr_wait : answer 0x2004C0010081 (atLine 64 11) = some 0x00000100 := by decide

theorem test_memPeek : answer 0x300000010000 start = some 0x000000F1 ∧
    waits 0x3000C0000000 (atLine 64 39) = some 0 := by decide

/-- 95 section 2.2: the overlay over RAM, the ROM above the overlay, an overlay that is not writable. -/
theorem test_overlay :
    (after (fun t => memRead t 0x0000) 0x500000800003 start = some 0xD0) ∧
    (after (fun t => memRead t 0x0800) 0x500000800002 start = some 0xF0) ∧
    (after (fun t => memRead t 0x0005) 0x200000050099 (then' (.ioWr 0 0x80 2) start) = some 0xD5) := by decide +kernel

/-- 95 program P2: the two pages' offsets, and the variants of section 2.2 with `A15_OP = or` and a short extended RAM. -/
theorem test_extended :
    resolve quiet { start.bank with extWin := true, negA15 := false, page := 3 } 0x8001 = (.ext, 0x38001) ∧
    resolve quiet { start.bank with extWin := true, negA15 := true, page := 3 } 0x8001 = (.ext, 0x30001) ∧
    resolve { quiet with a15Op := .or } { start.bank with extWin := true, negA15 := true, page := 3 } 0x8001 =
      (.ext, 0x38001) ∧
    resolve { quiet with extSize := 0x40000 } { start.bank with extWin := true, negA15 := false, page := 4 } 0x8000 =
      (.openBus, 0) := by decide

/-- 95 section 2.2: absent images and open bus. -/
theorem test_open_bus :
    answer 0x100080000000 { start with cfg := { quiet with ramLen := 0x8000 } } = some 0x000000FF ∧
    answer 0x100000000000 { start with romImg := [none] } = some 0x000000FF ∧
    after (fun t => memRead t 0x0000) 0x500000800002 { start with diskImg := none } = some 0xFF := by decide

/-! ### The I/O bus (95 section 2.3) -/

theorem test_ioRd :
    answer 0x400000550000 start = some 0x000000FF ∧ answer 0x400012820000 { start with joy := 0x11 } = some 0x00000011 ∧
    answer 0x400000830000 { start with matrix := [0x80, 0, 0, 0x11, 0, 0, 0, 0] } = some 0x00000091 := by decide

/-- R89: a read-back takes a draw and changes no register. -/
theorem test_ioRd_draw : after State.draws 0x400000800000 start = some 2 ∧
    after State.bank 0x400000800000 (withBank ⟨true, true, true, true, 15⟩) = some ⟨true, true, true, true, 15⟩ := by decide

theorem test_ioWr_bank :
    after State.bank 0x500000800001 start = some ⟨true, false, false, false, 0⟩ ∧
    after State.bank 0x5000008000FF start = some ⟨true, true, true, true, 15⟩ ∧
    after State.bank 0x500000800034 start = some ⟨false, false, true, false, 3⟩ := by decide

/-- 95 section 2.3 and program P4, line 8. -/
theorem test_ioWr_border :
    after State.border 0x500001810007 start = some 7 ∧ answer 0x500400810002 (atLine 64 23) = some 0x00000500 ∧
    waits 0x500400800000 (atLine 64 0) = some 0 := by decide

/-! ### The raster (95 section 2.5) -/

/-- Program P3: the boundary that ends the last line. -/
theorem test_tick_wrap :
    answer 0x600000000001 (atLine 311 223) = some 0x00010000 ∧ after State.line 0x600000000001 (atLine 311 223) = some 0 ∧
    after State.latch 0x600000000001 (atLine 310 223) = some false := by decide

theorem test_tick_lines :
    after (fun t => (t.line, t.acc, t.blinkCnt)) 0x6000000003E8 start = some (4, 104, 4) ∧
    after (fun t => (t.line, t.blinkCnt, t.blinkFlag)) 0x600000000E00 start = some (16, 0, true) ∧
    after State.acc 0x600000000000 { start with acc := 100, cpl := 64 } = some 36 := by decide +kernel

/-- The decode of row 0, for either blink flag. -/
theorem test_decode_row :
    (List.range 8).map (decodePixel { start with vram := [(0, 0x81), (0x1800, 0x0A)] } 0) = [2, 1, 1, 1, 1, 1, 1, 2] ∧
    (List.range 8).map (decodePixel { start with vram := [(0, 0x81), (0x1800, 0x8A)], blinkFlag := true } 0) =
      [1, 2, 2, 2, 2, 2, 2, 1] := by decide

theorem test_speed :
    after State.cpl 0xB00000000DDB start = some 227 ∧ after State.cpl 0xB000000003E8 start = some 64 ∧
    after State.cpl 0xB00000000008 start = some 1 ∧ reason 0xB00000000007 start = some .speedTooLow := by decide

/-- A TICK that ends line 64, then the pixels of row 0. -/
theorem test_vidPix :
    answer 0xC00000000000 (then' (.tick 224) { atLine 64 0 with vram := [(0, 0x81), (0x1800, 0x0A)] }) = some 0x00000002 ∧
    answer 0xC00000010000 (then' (.tick 224) { atLine 64 0 with vram := [(0, 0x81), (0x1800, 0x0A)] }) = some 0x00000001 ∧
    answer 0xC00000070000 (then' (.tick 224) { atLine 64 0 with vram := [(0, 0x81), (0x1800, 0x0A)] }) = some 0x00000002 := by
  decide

theorem test_vidPix_range :
    reason 0xC00001000000 start = some .pixelOutOfRange ∧ reason 0xC000000000C0 start = some .pixelOutOfRange := by decide

/-- L1.4, and the most negative line. -/
theorem test_vidBorder :
    answer 0xD000FFFFFFFF { start with borderTab := [5, 5, 3] ++ List.replicate 309 0 } = some 0x00000005 ∧
    answer 0xD000FFFFFFFE { start with borderTab := [5, 5, 3] ++ List.replicate 309 0 } = some 0x00000003 ∧
    answer 0xD00000000139 { start with borderTab := [5, 5, 3] ++ List.replicate 309 0 } = some 0x00000005 ∧
    answer 0xD00000000003 { start with borderTab := [5, 5, 3] ++ List.replicate 309 0 } = some 0x00000000 ∧
    borderIndex quiet (-2147483648) = 128 ∧ borderIndex quiet 2147483647 = 127 := by decide

/-! ### Interrupts (95 section 2.6) -/

theorem test_intQuery :
    answer 0x700000000000 start = some 0x00000000 ∧
    answer 0x700000000000 { start with latch := true } = some 0x00010001 := by decide

theorem test_intAck :
    answer 0x800000000000 start = some 0x000000FF ∧
    answer 0x800000000000 { start with latch := true } = some 0x00000020 ∧
    after State.latch 0x800000000000 { start with latch := true } = some false := by decide

/-- The latch before a pending chip, which stays pending. -/
theorem test_intAck_priority :
    answer 0x800000000000 (withChips true true false) = some 0x00010020 ∧
    after (fun t => pending t (.chip Config.pio)) 0x800000000000 (withChips false true true) = some true := by decide

theorem test_intFin :
    answer 0x900000000000 start = some 0x00000000 ∧
    answer 0x900000000000 { start with latch := true } = some 0x00010000 := by decide

/-! ### Input (95 section 2.7) -/

theorem test_keySet :
    after State.matrix 0xE00000030001 { start with matrix := [0, 0, 0, 0x10, 0, 0, 0, 0] } = some [0, 0, 0, 0x11, 0, 0, 0, 0] ∧
    after State.matrix 0xE00000050000 start = some [0, 0, 0, 0, 0, 0, 0, 0] ∧
    reason 0xE00000080001 start = some .rowOutOfRange := by decide

theorem test_keyRelease :
    after (fun t => (t.matrix, t.joy)) 0xE10000000000 { start with matrix := [0x80, 0, 0, 0x11, 0, 0, 0, 0], joy := 2 } =
      some ([0, 0, 0, 0, 0, 0, 0, 0], 2) := by decide

theorem test_joySet : after State.joy 0xE20000000002 { start with joy := 0x11 } = some 2 := by decide

/-! ### Reset (95 sections 2.6 and 2.8) -/

theorem test_resetPowerOn :
    after (fun t => (t.ram, t.vram)) 0xA00000000000 { start with ram := [(0, 0x5A)], vram := [(0, 0x55)] } = some ([], []) ∧
    after (fun t => (t.joy, t.cpl)) 0xA00000000000 { start with joy := 2, clockKHz := 1000, cpl := 64 } = some (2, 64) ∧
    after (fun t => memRead t 0x0800) 0xA00000000000 { start with romImg := [none] } = some 0xF0 := by decide +kernel

/-- R142: another image, and a missing one, at a later PowerOn; the last supply stands for every later one. -/
theorem test_resetPowerOn_supplies :
    after (fun t => (t.supplies.length, memRead t 0x0800)) 0xA00000000000
      { start with supplies := [{ roms := [none], disk := none }, Config.ex1Supply] } = some (1, 0xFF) ∧
    after (fun t => memRead t 0x0003) 0xA00000000000
      { start with supplies := [{ roms := [some [1, 2, 3, 4]], disk := none }, Config.ex1Supply] } = some 4 ∧
    after (fun t => (t.supplies.length, t.diskImg)) 0xA00000000000 { start with supplies := [] } = some (0, none) := by
  decide

/-- R39, 93 I23: a short image reads `0xFF` past its end, and a byte there can be written where the overlay is
writable. -/
theorem test_short_disk_image :
    fitImage 4 [0xD0, 0xD1] = [0xD0, 0xD1, 0xFF, 0xFF] ∧ fitImage 2 [0xD0, 0xD1, 0xD2] = [0xD0, 0xD1] ∧
    backRead (backWrite { start with cfg := { quiet with diskWritable := true }, diskImg := some (fitImage 4 [0xD0]) }
      .disk 3 0x99) .disk 3 = 0x99 := by decide

theorem test_resetCold :
    after (fun t => (t.line, t.acc, t.latch)) 0xA10000000000 { atLine 100 7 with latch := true } = some (0, 0, false) ∧
    after (fun t => memRead t 0xC000) 0xA10000000000 { start with vram := [(0, 0x55)] } = some 0x55 := by decide

theorem test_resetWarm :
    answer 0xA20000000000 { start with latch := true } = some 0x00010000 ∧
    after (fun t => (t.line, memRead t 0x0000)) 0xA20000000000 { withBank ⟨true, true, true, true, 9⟩ with line := 100 } =
      some (100, 0xF0) := by decide

/-! ### The textual form (R78) and the pseudo-transactions (R79) -/

theorem test_text :
    instrText (.memRd true 4 0x1234) = "MEM_RD 0x1234, fetch, dt=4" ∧ instrText (.vidBorder (-1)) = "VID_BORDER -1" ∧
    expandPseudo quiet (.bank 0x34 0) = some (.ioWr 0 0x80 0x34) ∧ expandPseudo quiet .nop = some (.tick 0) := by decide

/-- R80's texts, read; a number that does not fit its field is none. -/
theorem test_read_text :
    readInstr quiet "MEM_RD 0x1234, fetch, dt=4" = some (.memRd true 4 0x1234) ∧
    readInstr quiet "VID_BORDER -1" = some (.vidBorder (-1)) ∧ readInstr quiet "KEY_SET 3, 0x10" = some (.keySet 3 0x10) ∧
    readInstr quiet "BANK 0x34" = some (.ioWr 0 0x80 0x34) ∧ readInstr quiet "JOY_SET 256" = none := by decide

/-! ### A state and operands for every statement that has hypotheses -/

theorem test_meets_EncodeOfDecode : decode 0xE20000000011 = .ok (.joySet 0x11) := by decide

/-- A word of each format that has operands meets the field conditions of its encoding clause (R71). -/
theorem test_meets_encodings :
    (opOf 0x110412340000 = 0x1 ∧ (subOf 0x110412340000).toNat ≤ 1 ∧ dOf 0x110412340000 = 0) ∧
    (opOf 0x2004C00100FF = 0x2 ∧ subOf 0x2004C00100FF = 0 ∧ (dOf 0x2004C00100FF).toNat < 256) ∧
    (opOf 0x310080000000 = 0x3 ∧ (subOf 0x310080000000).toNat ≤ 1 ∧ dtOf 0x310080000000 = 0 ∧ dOf 0x310080000000 = 0) ∧
    (opOf 0x40FFFF820000 = 0x4 ∧ subOf 0x40FFFF820000 = 0 ∧ dOf 0x40FFFF820000 = 0) ∧
    (opOf 0x5000008000FF = 0x5 ∧ subOf 0x5000008000FF = 0 ∧ (dOf 0x5000008000FF).toNat < 256) ∧
    (opOf 0x6000FFFFFFFF = 0x6 ∧ subOf 0x6000FFFFFFFF = 0 ∧ dtOf 0x6000FFFFFFFF = 0) ∧
    (opOf 0xB00000000DDB = 0xB ∧ opOf 0xC00000FF00BF = 0xC ∧ opOf 0xD000FFFFFFFF = 0xD) ∧
    (opOf 0xE000000700FF = 0xE ∧ subOf 0xE000000700FF = 0 ∧ (dOf 0xE000000700FF).toNat < 256) ∧
    (opOf 0xE20000000011 = 0xE ∧ subOf 0xE20000000011 = 2 ∧ aOf 0xE20000000011 = 0) := by decide

theorem test_meets_ReservedWordsAreRefusedByName :
    opOf 0xF00000000000 = 0xF ∧ (opOf 0xA30000000000 = 0xA ∧ 3 ≤ (subOf 0xA30000000000).toNat) ∧
    (opOf 0x120000000000 = 0x1 ∧ 2 ≤ (subOf 0x120000000000).toNat) ∧
    (opOf 0x510000000000 = 0x5 ∧ subOf 0x510000000000 ≠ 0) ∧
    (opOf 0xE30000000000 = 0xE ∧ 3 ≤ (subOf 0xE30000000000).toNat) := by decide

theorem test_meets_StepRunsTheDecodedRequest : ∃ (s : State) (w : Request) (rest : List Request) (i : Instr),
    s.requests = w :: rest ∧ decode w = .ok i :=
  ⟨start.withFetchWord 48 0xE20000000011, 0xE20000000011, [], .joySet 0x11, rfl, by decide⟩

theorem test_meets_StepRefusesABadWordAndIdlesOnNone :
    start.requests = [] ∧ ∃ (s : State) (w : Request) (e : DecodeError), s.requests = [w] ∧ decode w = .error e :=
  ⟨rfl, start.withFetchWord 48 0xF00000000000, 0xF00000000000, .reservedOp, rfl, by decide⟩

/-- A sequence without a refusal and one with: both cases of the match are met. -/
theorem test_meets_RunAgreesWithObservation :
    (observe [0xE20000000011, 0x100000010000] start).mark = none ∧
    (observe [0xE20000000011, 0xF00000000000, 0xE20000000022] start).mark = some .reservedOp := by decide

theorem test_meets_RefusalHasNoEffectAndItsMarkStays :
    reason 0xB00000000007 start = some .speedTooLow ∧ (observe [0xB00000000007] start).bad = true := by decide

/-- A constructed instance of `tiny` before its PowerOn, and an ill-formed configuration. -/
theorem test_meets_ConstructionIsPowerOnOfAConstructedInstance :
    ({ tiny with blinkPeriod := 0 } : Cfg).wf = false ∧ tiny.wf = true ∧
    ∃ s : State, s.cfg = tiny ∧ s.clockKHz = tiny.clockKHzInit ∧ s.matrix = List.replicate tiny.kbdRows 0 ∧ s.joy = 0 ∧
      s.chips = tiny.chips.map (fun c => (c, Config.chipInit c)) ∧ s.supplies = [] ∧
      s.draws = 0 ∧ s.requests = [] ∧ s.response = none :=
  ⟨by decide, by decide, { tinyStart with draws := 0 }, rfl, rfl, rfl, rfl, rfl, rfl, rfl, rfl, rfl⟩

/-- Also the hypothesis of WellFormedMeetsEveryCondition. -/
theorem test_meets_ConstructionMeetsTheInvariant : tiny.wf = true := by decide

/-- An instance of `tiny` with a request waiting meets the invariant, and its step is a next state. -/
theorem test_meets_StepKeepsTheInvariant : ∃ s t : State, Inv s ∧ Sys2Proof.Machine.step s = .next t :=
  have noRows (row : List Byte) (h : some row ∈ [none, none]) : row.length = 16 := by simp at h
  ⟨tinyStart.withFetchWord 48 0xE20000000011, _,
    ⟨by decide, rfl, by decide, by decide, by decide, rfl, rfl, noRows, rfl, rfl, (fun _ h => nomatch h), rfl, rfl, rfl, by decide,
      by decide, by decide, rfl, fun r h => nomatch h⟩, rfl⟩

/-- Each region at the ends of its range: EXT, DISK, ROM, VRAM, RAM, open bus. -/
theorem test_meets_ResolveGivesAValidOffset :
    resolve quiet ⟨false, false, true, false, 15⟩ 0xBFFF = (.ext, 0xFBFFF) ∧
    resolve quiet ⟨false, true, false, false, 0⟩ 0x07FF = (.disk, 0x07FF) ∧
    resolve quiet ⟨false, false, false, false, 0⟩ 0x1FFF = (.rom 0, 0x1FFF) ∧
    resolve quiet ⟨false, false, false, false, 0⟩ 0xFFFF = (.vram, 0x3FFF) ∧
    resolve quiet ⟨true, false, false, false, 0⟩ 0x0000 = (.ram, 0x0000) ∧
    resolve { quiet with ramLen := 0x8000 } ⟨false, false, false, false, 0⟩ 0x8000 = (.openBus, 0) := by decide

/-- The clauses of the priority order at addresses where two regions meet, with both sides of `EXT_SIZE`. -/
theorem test_meets_ResolveFollowsThePriorityOrder :
    (quiet.extBase ≤ 0x8000 ∧ 0x8000 < quiet.extBase + quiet.extLen ∧
      extOffset quiet ⟨false, false, true, false, 15⟩ 0x8000 < quiet.extSize) ∧
    { quiet with extSize := 0x48000 }.extSize ≤ extOffset quiet ⟨false, false, true, false, 4⟩ 0x8000 ∧
    extOffset quiet ⟨false, false, true, false, 3⟩ 0xBFFF < { quiet with extSize := 0x48000 }.extSize ∧
    (quiet.diskBase ≤ 0x07FF ∧ 0x07FF < quiet.diskBase + quiet.diskLen) ∧
    (∃ r, quiet.roms[0]? = some r ∧ r.base ≤ 0x0800 ∧ 0x0800 < r.base + r.len ∧ ¬ (r.lowerGated = true ∧ false = true)) ∧
    (∀ r ∈ quiet.roms, ¬ (r.base ≤ 0xC000 ∧ 0xC000 < r.base + r.len)) ∧
    (quiet.vramBase ≤ 0xC000 ∧ 0xC000 < quiet.vramBase + quiet.vramLen) ∧
    ¬ (quiet.vramBase ≤ 0xBFFF ∧ 0xBFFF < quiet.vramBase + quiet.vramLen) ∧
    (quiet.ramBase ≤ 0xBFFF ∧ 0xBFFF < quiet.ramBase + quiet.ramLen) ∧
    ¬ ({ quiet with ramLen := 0x8000 }.ramBase ≤ 0x8000 ∧ 0x8000 < { quiet with ramLen := 0x8000 }.ramLen) := by
  refine ⟨by decide, by decide, by decide, by decide, ⟨_, rfl, by decide⟩, by decide, by decide, by decide, by decide,
    by decide⟩

theorem test_meets_ExtendedOffsetBits : (0x7FFF : Addr).toNat < 0x8000 ∧
    extOffset quiet ⟨false, false, true, true, 15⟩ 0x7FFF = 0xFFFFF ∧
    extOffset quiet ⟨false, false, true, true, 15⟩ 0x8000 = 0xF0000 := by decide

/-- MEM_WR to a mutable region and to one that is not, with a disk image of `DISK_LEN` bytes and with none. -/
theorem test_meets_MemWrStoresOnlyTheResolvedByte :
    DiskFits start ∧ DiskFits tinyStart ∧ (∃ t, exec (.memWr 0 0xC000 0x55) start = .next t) ∧
    mutableRegion start (resolve quiet start.bank 0xC000).1 = true ∧
    mutableRegion start (resolve quiet start.bank 0x0001).1 = false ∧
    mutableRegion { start with cfg := { quiet with diskWritable := true } } .disk = true ∧
    mutableRegion { tinyStart with cfg := { tiny with diskWritable := true } } .disk = false :=
  ⟨construct_diskFits _ _, construct_diskFits _ _, ⟨_, rfl⟩, by decide⟩

theorem test_meets_WriteThenReadAnyAddress :
    DiskFits tinyStart ∧ ∃ t, exec (.memWr 0 0xC000 0x55) tinyStart = .next t ∧ memRead t 0xC000 = 0x55 :=
  ⟨construct_diskFits _ _, _, rfl, by decide⟩

/-- Both sides of the band, of the window and of a period, and 95 section 2.4's fraction that rounds up (`LWC` 112). -/
theorem test_meets_WaitIsZeroOrWithinThePeriod : 1 ≤ quiet.period ∧ (1 : Nat) ≤ 224 ∧
    waitCycles quiet 64 0 224 true 0 = 8 ∧ waitCycles quiet 64 0 224 true 7 = 1 ∧ waitCycles quiet 64 0 224 true 8 = 8 ∧
    waitCycles quiet 64 0 224 true 128 = 0 ∧ waitCycles quiet 63 0 224 true 0 = 0 ∧ waitCycles quiet 255 0 224 true 0 = 8 ∧
    waitCycles quiet 256 0 224 true 0 = 0 ∧ waitCycles quiet 64 0 224 false 0 = 0 ∧
    waitCycles { quiet with lwc := 112 } 64 0 224 true 1 = 7 := by decide

theorem test_meets_ReportedWaitIsTheWaitFunction :
    quiet.period ≤ 255 ∧ ∃ t, exec (.memRd false 4 0xC000) (atLine 64 0) = .next t ∧
      memWait (atLine 64 0) 0xC000 false 4 = 4 := ⟨by decide, _, rfl, by decide⟩

/-- Every kind of handler is some port's in EX1. -/
theorem test_meets_IoRdAnswersByHandler :
    Config.ex1.handler 0x03 = .periph Config.ctc 3 ∧ Config.ex1.handler 0x07 = .periph Config.pio 3 ∧
    Config.ex1.handler 0x80 = .bankctl 0 ∧ Config.ex1.handler 0x81 = .border ∧ Config.ex1.handler 0x82 = .joystick ∧
    Config.ex1.handler 0x83 = .keyboard 0 ∧ Config.ex1.handler 0x84 = .unmapped ∧
    Config.ctc ∈ (withChips false false false).chips.map Prod.fst := by decide

/-- The same port map with and without an earlier entry that hides its one KEYBOARD entry, each well formed. -/
theorem test_meets_IoRdAnswersByHandler_snapshot :
    shadowed.wf = true ∧ shadowed.handler 4 = .periph Config.pio 0 ∧ shadowed.mapsKeyboard = false ∧
    chipSnapshot (State.construct shadowed []) = some (List.replicate 8 0) ∧ Config.ex1.mapsKeyboard = true ∧
    chipSnapshot (State.construct Config.ex1 []) = none := by decide +kernel

theorem test_shadowed_has_no_keyboard (p : Byte) (k : Nat) : shadowed.handler p ≠ .keyboard k := fun h =>
  absurd (mapsKeyboard_iff.2 ⟨p, k, h⟩) (by decide)

/-- A hidden entry is no port's handler for R8's chip names either. -/
theorem test_wf_hidden_chip : { quiet with portMap := [(4, .unmapped), (4, .periph 7 0)] }.chipsOk = true ∧
    { quiet with portMap := [(4, .periph 7 0), (4, .unmapped)] }.chipsOk = false := by decide

theorem test_meets_BankControlWriteIsSeenAtOnce : start.cfg.handler (portOf 0xFF80) = .bankctl 0 := by decide

theorem test_meets_BankControlWriteSetsTheBank :
    quiet.bankctl = [(0, Config.defaultLayout)] ∧ quiet.handler ((0xFF80 : Addr).setWidth 8) = .bankctl 0 ∧
    { quiet with portMap := [(0x90, .bankctl 1)] }.handler ((0x0090 : Addr).setWidth 8) = .bankctl 1 := by decide

theorem test_meets_Tick : 1 ≤ start.cpl ∧ start.line < start.cfg.totalLines ∧ start.acc < start.cpl ∧
    start.borderTab.length = start.cfg.totalLines ∧ start.blinkCnt < start.cfg.blinkPeriod ∧
    start.fb.length = start.cfg.fbH := by decide +kernel

/-- The frame's length and one less are numbers of cycles that TICK can be given. -/
theorem test_meets_OneFrameIsTotalLinesTimesCpl :
    (69888 : BitVec 32).toNat = start.cfg.totalLines * start.cpl ∧
    (69887 : BitVec 32).toNat < start.cfg.totalLines * start.cpl ∧ start.line = 0 ∧ start.acc = 0 := by decide

/-- Either blink unit. -/
theorem test_meets_BlinkPhaseCountsItsUnit :
    quiet.blinkUnit = .line ∧ { quiet with blinkUnit := .frame }.blinkUnit = .frame ∧
    after State.blinkCnt 0x600000000001 { atLine 311 223 with cfg := { quiet with blinkUnit := .frame } } = some 1 ∧
    after State.blinkCnt 0x600000000001 { atLine 310 223 with cfg := { quiet with blinkUnit := .frame } } = some 0 := by
  decide

/-- One line ends: the lines on either side of both ends of the visible band. -/
theorem test_meets_VisibleLineIsDecodedAtItsBoundary :
    ((atLine 64 223).acc + (1 : BitVec 32).toNat) / (atLine 64 223).cpl = 1 ∧ (atLine 64 223).fb.length = quiet.fbH ∧
    quiet.inBand 63 = false ∧ quiet.inBand 64 = true ∧ quiet.inBand 255 = true ∧ quiet.inBand 256 = false := by
  decide +kernel

/-- A TICK of two turns, and one of none. -/
theorem test_meets_TickIsTheRulesLoop :
    (start.acc + (448 : BitVec 32).toNat) / start.cpl = 2 ∧ (start.acc + (223 : BitVec 32).toNat) / start.cpl = 0 := by decide

theorem test_meets_RasterIgnoresTheBankFlags : (∃ t, exec (.tick 224) start = .next t) ∧
    quiet.videoSource = .vram ∧ { quiet with videoSource := .ram 0xFFFF }.videoSource = .ram 0xFFFF :=
  ⟨⟨_, rfl⟩, rfl, rfl⟩

/-- 95 program P4, lines 2 to 4: an opcode fetch and a contended read. -/
theorem test_meets_HostInstructionAddsItsWaits :
    (runBusCycles [(0, .memRd true 0x4000), (4, .memRd false 0xC000)] 0 (atLine 64 0)).map Prod.snd = some 4 ∧
    (runHostInstr [(0, .memRd true 0x4000), (4, .memRd false 0xC000)] 7 (atLine 64 0)).map State.acc = some 11 := by decide

/-- Assumption 17: a count past its field has no result; a `DT` at its field's greatest value has one. -/
theorem test_hostInstr_counts_fit : runHostInstr [] (2 ^ 32) start = none ∧
    runHostInstr [(256, .memRd true 0x4000)] 7 start = none ∧
    (runHostInstr [(255, .memRd true 0x0000)] 7 start).isSome = true := by decide

/-- The lowest clock that is taken and the one below it (95 section 2.5). -/
theorem test_meets_SpeedSetsTheClock :
    1 ≤ (2 * 8 * quiet.lineRateDen + quiet.lineRateNum) / (2 * quiet.lineRateNum) ∧
    (2 * 7 * quiet.lineRateDen + quiet.lineRateNum) / (2 * quiet.lineRateNum) < 1 := by decide

theorem test_meets_VidPixReadsItsEntry :
    (255 : BitVec 16).toNat < quiet.fbW ∧ (191 : BitVec 16).toNat < quiet.fbH ∧ quiet.fbW ≤ (256 : BitVec 16).toNat ∧
    quiet.fbH ≤ (192 : BitVec 16).toNat := by decide

theorem test_meets_BorderWrapLaw : 1 ≤ quiet.totalLines ∧ quiet.totalLines ≤ 2 ^ 31 := by decide

/-- VIDEO first, a chip with VIDEO not pending, and the last of the order. -/
theorem test_meets_IntAckServesTheFirstPendingSource :
    Config.ex1.sourceOrder = [] ++ .video :: [.chip Config.ctc, .chip Config.pio] ∧
    pending (withChips true true true) .video = true ∧
    Config.ex1.sourceOrder = [.video, .chip Config.ctc] ++ .chip Config.pio :: [] ∧
    pending (withChips false false true) .video = false ∧ pending (withChips false false true) (.chip Config.ctc) = false ∧
    pending (withChips false false true) (.chip Config.pio) = true := by decide

theorem test_meets_IntQueryAnswersTheRequestLevel :
    ((withChips false true false).chips.map Prod.fst).Nodup ∧
    (Config.ctc, { pending := true, inner := 0 }) ∈ (withChips false true false).chips ∧
    ∃ t, exec .intQuery (withChips false true false) = .next t := ⟨by decide, by decide, _, rfl⟩

theorem test_meets_IntAck_with_nothing_pending : ∀ q ∈ quiet.sourceOrder, pending start q = false := by decide

theorem test_meets_IntFinFinishesEveryChip :
    Config.ex1.sourceOrder.Nodup ∧ Config.pio ∈ (withChips true false true).chips.map Prod.fst := by decide

theorem test_meets_ResponseWordCarriesTheRequestLevel : ∃ t, exec .intQuery start = .next t := ⟨_, rfl⟩

theorem test_meets_KeySetOrsOneRow :
    (7 : BitVec 16).toNat < quiet.kbdRows ∧ quiet.kbdRows ≤ (8 : BitVec 16).toNat ∧
    start.matrix.length = start.cfg.kbdRows := by decide

theorem test_meets_JoySetIsReadVerbatim : quiet.handler (portOf 0x1282) = .joystick := by decide

/-- A region, a supply with a disk image, one without, one after which another follows, and none at all. -/
theorem test_meets_PowerOnResetsAllButClockAndInput :
    (∃ q, start.cfg.roms[0]? = some q) ∧ start.supplies = [Config.ex1Supply] ∧
    Config.ex1Supply.disk = some Config.ex1Disk ∧ tinyStart.supplies = [] ∧
    ∃ s : State, s.supplies = [{ roms := [none], disk := none }, Config.ex1Supply] :=
  ⟨⟨_, rfl⟩, rfl, rfl, rfl, { start with supplies := [{ roms := [none], disk := none }, Config.ex1Supply] }, rfl⟩

/-- A state for each clause: no image and an image's last byte and the offset past it, a listed byte and an unlisted
one. -/
theorem test_meets_BackReadGivesTheStoredByte :
    tinyStart.diskImg = none ∧ ({ tinyStart with diskImg := some [0xD0, 0xD1] } : State).diskImg = some [0xD0, 0xD1] ∧
    ([0xD0, 0xD1] : Image)[1]? = some 0xD1 ∧ ([0xD0, 0xD1] : Image).length ≤ 2 ∧
    tinyStart.romImg[0]? = some none ∧ start.romImg[0]? = some (some Config.ex1Rom0) ∧
    Memory.wf [(3, 0x5A)] = true ∧ (3, 0x5A) ∈ ([(3, 0x5A)] : Memory) ∧ (∀ c ∈ ([(3, 0x5A)] : Memory), c.1 ≠ 4) := by
  refine ⟨rfl, rfl, rfl, by decide, rfl, rfl, by decide, by decide, by decide⟩

/-- The whole-machine rules: transactions that do change what each rule is about. -/
theorem test_meets_bank_and_border :
    (then' (.ioWr 0 0x80 0x0F) start).bank.lowerRam = true ∧ (then' (.ioWr 0 0x81 3) (then' (.ioWr 0 0x81 2) start)).border = 3 := by
  decide

theorem test_meets_stores : (then' (.memWr 0 0xC000 2) (then' (.memWr 0 0xC000 1) start)).vram = [(0, 2)] ∧
    (then' .resetPowerOn { start with romImg := [none] }).romImg ≠ [none] := by decide

theorem test_meets_input : (then' (.keySet 0 1) start).matrix ≠ start.matrix ∧ (then' (.joySet 1) start).joy ≠ start.joy := by
  decide

theorem test_meets_raster : (then' (.tick 224) start).line ≠ start.line ∧ (then' (.speed 1000) start).cpl ≠ start.cpl := by
  decide

theorem test_meets_latch : start.latch = false ∧ (then' (.tick 1) (atLine 311 223)).latch = true ∧
    (then' .intAck { start with latch := true }).latch = false := by decide

end Sys2Proof.Tests
end

/-! Well-formed configurations and the first state built from one (R9, R11, R144): each test of `Cfg.wf` said once as a
proposition, the conditions of R9 from them, and the invariant of the first state. -/

namespace Sys2Proof.Cfg

/-! ### What each test of R9 says -/

theorem wf_iff {cfg : Cfg} : cfg.wf = true ↔
    cfg.rangesInside = true ∧ cfg.ramVramDisjoint = true ∧ cfg.bandInFrame = true ∧ cfg.wholeBytes = true ∧
    cfg.windowOk = true ∧ cfg.videoOffsetsOk = true ∧ cfg.sourcesOk = true ∧ cfg.clockOk = true ∧
    cfg.boundsOk = true ∧ cfg.chipsOk = true := by
  simp only [wf, Bool.and_eq_true, and_assoc]

theorem rangesInside_iff {cfg : Cfg} : cfg.rangesInside = true ↔
    cfg.ramBase + cfg.ramLen ≤ 65536 ∧ cfg.vramBase + cfg.vramLen ≤ 65536 ∧
    cfg.diskBase + cfg.diskLen ≤ 65536 ∧ cfg.extBase + cfg.extLen ≤ 65536 ∧
    ∀ r ∈ cfg.roms, r.base + r.len ≤ 65536 := by
  simp only [rangesInside, Bool.and_eq_true, List.all_eq_true, decide_eq_true_eq, and_assoc]

theorem ramVramDisjoint_iff {cfg : Cfg} : cfg.ramVramDisjoint = true ↔
    cfg.ramLen = 0 ∨ cfg.vramLen = 0 ∨ cfg.ramBase + cfg.ramLen ≤ cfg.vramBase ∨
    cfg.vramBase + cfg.vramLen ≤ cfg.ramBase := by
  simp only [ramVramDisjoint, Bool.or_eq_true, decide_eq_true_eq, or_assoc]

theorem bandInFrame_iff {cfg : Cfg} : cfg.bandInFrame = true ↔ cfg.firstVisible + cfg.fbH ≤ cfg.totalLines :=
  decide_eq_true_iff

theorem wholeBytes_iff {cfg : Cfg} : cfg.wholeBytes = true ↔ cfg.fbW % 8 = 0 := decide_eq_true_iff

theorem windowOk_iff {cfg : Cfg} : cfg.windowOk = true ↔
    1 ≤ cfg.period ∧ cfg.period ≤ 255 ∧ cfg.winStart ≤ cfg.winEnd := by
  simp only [windowOk, Bool.and_eq_true, decide_eq_true_eq, and_assoc]

theorem videoOffsetsOk_iff {cfg : Cfg} : cfg.videoOffsetsOk = true ↔
    ∀ y xb, y < cfg.fbH → xb < cfg.fbW / 8 →
      cfg.pixAddr.eval y xb < cfg.videoSize ∧ cfg.attrAddr.eval y xb < cfg.videoSize := by
  simp only [videoOffsetsOk, List.all_eq_true, List.mem_range, Bool.and_eq_true, decide_eq_true_eq]
  exact ⟨fun h y xb hy => h y hy xb, fun h y hy xb => h y xb hy⟩

/-- The part of `sourcesOk` that R9 states. -/
theorem sourceOrder_of_sourcesOk {cfg : Cfg} (h : cfg.sourcesOk = true) :
    cfg.sourceOrder.Nodup ∧ .video ∈ cfg.sourceOrder ∧ ∀ c ∈ cfg.chips, .chip c ∈ cfg.sourceOrder := by
  simp only [sourcesOk, Bool.and_eq_true, List.all_eq_true, decide_eq_true_eq] at h
  obtain ⟨⟨⟨hnodup, hvideo⟩, hchips⟩, -⟩ := h
  exact ⟨hnodup, hvideo, hchips⟩

theorem clockOk_iff {cfg : Cfg} : cfg.clockOk = true ↔ 1 ≤ cfg.cplOf cfg.clockKHzInit := decide_eq_true_iff

theorem boundsOk_iff {cfg : Cfg} : cfg.boundsOk = true ↔
    1 ≤ cfg.lwc ∧ 1 ≤ cfg.totalLines ∧ 1 ≤ cfg.blinkPeriod ∧
    1 ≤ cfg.lineRateNum ∧ 1 ≤ cfg.lineRateDen ∧ 1 ≤ cfg.clockKHzInit := by
  simp only [boundsOk, Bool.and_eq_true, decide_eq_true_eq, and_assoc]

/-! ### The conditions of R9 in terms of addresses and clocks -/

/-- No range of the memory map holds an address past 65535. -/
theorem address_le_of_rangesInside {cfg : Cfg} (h : cfg.rangesInside = true) {a : Nat}
    (ha : (cfg.ramBase ≤ a ∧ a < cfg.ramBase + cfg.ramLen) ∨ (cfg.vramBase ≤ a ∧ a < cfg.vramBase + cfg.vramLen) ∨
      (cfg.diskBase ≤ a ∧ a < cfg.diskBase + cfg.diskLen) ∨ (cfg.extBase ≤ a ∧ a < cfg.extBase + cfg.extLen) ∨
      (∃ r ∈ cfg.roms, r.base ≤ a ∧ a < r.base + r.len)) : a ≤ 65535 := by
  obtain ⟨hram, hvram, hdisk, hext, hroms⟩ := rangesInside_iff.1 h
  obtain ⟨-, ha⟩ | ⟨-, ha⟩ | ⟨-, ha⟩ | ⟨-, ha⟩ | ⟨r, hr, -, ha⟩ := ha
  · omega
  · omega
  · omega
  · omega
  · have := hroms r hr
    omega

/-- Disjoint ranges share no address; a range of length 0 holds none. -/
theorem not_ram_and_vram {cfg : Cfg} (h : cfg.ramVramDisjoint = true) (a : Nat) :
    ¬ ((cfg.ramBase ≤ a ∧ a < cfg.ramBase + cfg.ramLen) ∧
      cfg.vramBase ≤ a ∧ a < cfg.vramBase + cfg.vramLen) := by
  have := ramVramDisjoint_iff.1 h
  omega

/-- R102 with R14's rounding written out. -/
theorem cplOf_eq (cfg : Cfg) (k : Nat) :
    cfg.cplOf k = (2 * k * cfg.lineRateDen + cfg.lineRateNum) / (2 * cfg.lineRateNum) := by
  rw [cplOf, roundDiv, Nat.mul_assoc]

/-- Settles O11: each condition of R9 from its own test, with the clocks per line written out. -/
theorem wellFormedMeetsEveryCondition : Obligations.WellFormedMeetsEveryCondition := by
  intro cfg h
  obtain ⟨hranges, hdisjoint, hband, hbytes, hwindow, hvideo, hsources, hclock, -, -⟩ := wf_iff.1 h
  exact ⟨fun _ => address_le_of_rangesInside hranges, not_ram_and_vram hdisjoint, bandInFrame_iff.1 hband,
    wholeBytes_iff.1 hbytes, windowOk_iff.1 hwindow, videoOffsetsOk_iff.1 hvideo, sourceOrder_of_sourcesOk hsources,
    cplOf_eq cfg _ ▸ clockOk_iff.1 hclock⟩

/-! ### EX1 -/

/-- R11: the addresses of EX1 are linear in the row and the byte column, and the largest is `0x2FFF`. -/
theorem ex1_videoOffsetsOk : Config.ex1.videoOffsetsOk = true := by
  refine videoOffsetsOk_iff.2 fun y xb (hy : y < 192) (hxb : xb < 32) => ?_
  change 32 * y + xb < 0x4000 ∧ 0x1800 + (32 * y + xb) < 0x4000
  omega

theorem ex1_wf : Config.ex1.wf = true :=
  wf_iff.2 ⟨by decide, by decide, by decide, by decide, by decide, ex1_videoOffsetsOk, by decide, by decide, by decide,
    by decide⟩

end Sys2Proof.Cfg

namespace Sys2Proof.Machine

open Sys2Proof

/-! ### The invariant at the first state -/

/-- R38: loading gives one image slot per ROM region, however many images are supplied. -/
theorem loadRoms_length (roms : List RomCfg) (imgs : List (Option Image)) :
    (loadRoms roms imgs).length = roms.length := by
  induction roms, imgs using loadRoms.induct with
  | case1 => rfl
  | case2 r rs ih => exact congrArg (· + 1) ih
  | case3 r rs img ls ih => exact congrArg (· + 1) ih
  | case4 r rs ls ih => exact congrArg (· + 1) ih

/-- R144: the first state of a well-formed configuration has the invariant, whatever is supplied at PowerOn. The clock and
the bounds of R8 give the raster's part; the tables have their lengths and the stores are empty by construction. -/
theorem construct_inv {cfg : Cfg} (h : cfg.wf = true) (supplies : List Supply) : Inv (State.construct cfg supplies) := by
  obtain ⟨-, -, -, -, -, -, -, hclock, hbounds, -⟩ := Cfg.wf_iff.1 h
  obtain ⟨-, hlines, hblink, -⟩ := Cfg.boundsOk_iff.1 hbounds
  exact {
    cfgWf := h
    cplEq := rfl
    cplPos := Cfg.clockOk_iff.1 hclock
    lineLegal := hlines
    blinkLegal := hblink
    borderTabLen := List.length_replicate
    fbLen := List.length_replicate
    fbRows := fun _ hrow => nomatch List.eq_of_mem_replicate hrow
    matrixLen := List.length_replicate
    romLen := loadRoms_length _ _
    diskFits := construct_diskFits cfg supplies
    ramWf := rfl
    vramWf := rfl
    extWf := rfl
    ramBound := fun _ hc => nomatch hc
    vramBound := fun _ hc => nomatch hc
    extBound := fun _ hc => nomatch hc
    chipNames := by simp [State.construct, Function.comp_def]
    waitBound := fun _ hr => nomatch hr }

/-- Settles O14: State.reset is the first state of EX1, which is well formed. -/
theorem resetMeetsTheInvariant : Obligations.ResetMeetsTheInvariant := construct_inv Cfg.ex1_wf _

end Sys2Proof.Machine

/-! The state's legal values along every run (R8, R18 to R42): what a transaction that completes leaves, said once for each
transaction; the invariant kept by each operation and so by every step; and which transactions move which state. -/

namespace Sys2Proof.Machine

open Sys2Proof

/-! ### What a transaction leaves -/

/-- `Effect s i u`: where transaction `i` completes in state `s`, it leaves the state `u`, less the response. A transaction
that may be refused carries the condition under which it is not. -/
inductive Effect (s : State) : Instr → State → Prop
  | memRd (isFetch : Bool) (dt : Byte) (addr : Addr) : Effect s (.memRd isFetch dt addr) s
  | memWr (dt : Byte) (addr : Addr) (v : Byte) : Effect s (.memWr dt addr v) (memWrite s addr v)
  | memPeek (isFetch : Bool) (addr : Addr) : Effect s (.memPeek isFetch addr) s
  | ioRd (dt : Byte) (portAddr : Addr) : Effect s (.ioRd dt portAddr) (portRead s (portOf portAddr)).2
  | ioWr (dt : Byte) (portAddr : Addr) (v : Byte) : Effect s (.ioWr dt portAddr v) (portWrite s (portOf portAddr) v)
  | tick (n : BitVec 32) : Effect s (.tick n) (tickChips (advanceRaster s n.toNat) n.toNat)
  | intQuery : Effect s .intQuery s
  | intAckNone (h : select s = none) : Effect s .intAck s
  | intAck (src : Source) (h : select s = some src) : Effect s .intAck (acceptSource s src).2
  | intFin : Effect s .intFin { s with chips := (s.cfg.sourceOrder.foldl finishSource s).chips }
  | resetPowerOn : Effect s .resetPowerOn (powerOn s)
  | resetCold : Effect s .resetCold (resetRaster (resetPorts s .cold) s.draws)
  | resetWarm : Effect s .resetWarm (resetPorts s .warm)
  | speed (khz : BitVec 32) (h : 1 ≤ s.cfg.cplOf khz.toNat) :
      Effect s (.speed khz) { s with clockKHz := khz.toNat, cpl := s.cfg.cplOf khz.toNat }
  | vidPix (x y : BitVec 16) (hx : x.toNat < s.cfg.fbW) (hy : y.toNat < s.cfg.fbH) : Effect s (.vidPix x y) s
  | vidBorder (line : BitVec 32) : Effect s (.vidBorder line) s
  | keySet (row : BitVec 16) (mask : Byte) (h : row.toNat < s.cfg.kbdRows) :
      Effect s (.keySet row mask) { s with matrix := s.matrix.set row.toNat (s.matrix.getD row.toNat 0 ||| mask) }
  | keyRelease : Effect s .keyRelease { s with matrix := s.matrix.map fun _ => 0x00 }
  | joySet (mask : Byte) : Effect s (.joySet mask) { s with joy := mask }

/-- A transaction that completes is its effect answering, with a wait count of at most `P` (R73, R97). -/
theorem exec_next_effect {i : Instr} {s t : State} (h : exec i s = .next t) :
    ∃ u data wait, Effect s i u ∧ wait ≤ s.cfg.period ∧ respond u data wait = .next t := by
  cases i with
  | memRd isFetch dt addr => exact ⟨_, _, _, .memRd .., waitFor_le_period .., h⟩
  | memWr dt addr v => exact ⟨_, _, _, .memWr .., waitFor_le_period .., h⟩
  | memPeek isFetch addr => exact ⟨_, _, _, .memPeek .., Nat.zero_le _, h⟩
  | ioRd dt portAddr => exact ⟨_, _, _, .ioRd .., waitFor_le_period .., h⟩
  | ioWr dt portAddr v => exact ⟨_, _, _, .ioWr .., waitFor_le_period .., h⟩
  | tick n => exact ⟨_, _, _, .tick n, Nat.zero_le _, h⟩
  | intQuery => exact ⟨_, _, _, .intQuery, Nat.zero_le _, h⟩
  | intAck =>
    change execIntAck s = _ at h
    unfold execIntAck at h
    split at h
    next hs => exact ⟨_, _, _, .intAckNone hs, Nat.zero_le _, h⟩
    next src hs => exact ⟨_, _, _, .intAck src hs, Nat.zero_le _, h⟩
  | intFin =>
    change respond _ _ _ = _ at h
    rw [foldl_finishSource] at h
    exact ⟨_, _, _, .intFin, Nat.zero_le _, h⟩
  | resetPowerOn => exact ⟨_, _, _, .resetPowerOn, Nat.zero_le _, h⟩
  | resetCold => exact ⟨_, _, _, .resetCold, Nat.zero_le _, h⟩
  | resetWarm => exact ⟨_, _, _, .resetWarm, Nat.zero_le _, h⟩
  | speed khz =>
    change execSpeed khz s = _ at h
    unfold execSpeed at h
    split at h
    · cases h
    next hk => exact ⟨_, _, _, .speed khz (Nat.not_lt.1 hk), Nat.zero_le _, h⟩
  | vidPix x y =>
    change execVidPix x y s = _ at h
    unfold execVidPix at h
    split at h
    · cases h
    next hxy =>
      obtain ⟨hx, hy⟩ := not_or.1 hxy
      exact ⟨_, _, _, .vidPix x y (Nat.not_le.1 hx) (Nat.not_le.1 hy), Nat.zero_le _, h⟩
  | vidBorder line => exact ⟨_, _, _, .vidBorder line, Nat.zero_le _, h⟩
  | keySet row mask =>
    change execKeySet row mask s = _ at h
    unfold execKeySet at h
    split at h
    · cases h
    next hrow => exact ⟨_, _, _, .keySet row mask (Nat.not_le.1 hrow), Nat.zero_le _, h⟩
  | keyRelease => exact ⟨_, _, _, .keyRelease, Nat.zero_le _, h⟩
  | joySet mask => exact ⟨_, _, _, .joySet mask, Nat.zero_le _, h⟩

/-- R8: no transaction writes the configuration. -/
theorem Effect.cfg_eq {i : Instr} {s u : State} (hu : Effect s i u) : u.cfg = s.cfg := by
  cases hu <;> simp

/-! ### Resolved offsets -/

/-- R47: an offset lies inside the store that a region names. A ROM image may end before its region does, and open bus
names no store. -/
def offsetFits (cfg : Cfg) (off : Nat) : Region → Prop
  | .ext => off < cfg.extSize
  | .disk => off < cfg.diskLen
  | .rom _ => True
  | .vram => off < cfg.vramLen
  | .ram => off < 65536
  | .openBus => True

/-- R54: resolution names an offset inside the store. -/
theorem resolve_offsetFits (cfg : Cfg) (bank : Bank) (addr : Addr) :
    offsetFits cfg (resolve cfg bank addr).2 (resolve cfg bank addr).1 := by
  have offset_lt {base len : Nat} (h : inRange base len addr.toNat = true) : addr.toNat - base < len := by
    simp only [inRange, Bool.and_eq_true, decide_eq_true_eq] at h
    omega
  unfold resolve
  dsimp only
  split
  · split
    next hext => exact hext
    · trivial
  · split
    next hdisk => exact offset_lt (Bool.and_eq_true_iff.1 hdisk).2
    · split
      · trivial
      · split
        next hvram => exact offset_lt hvram
        · split
          · exact addr.isLt
          · trivial

/-! ### The invariant, operation by operation

Each operation keeps the whole of `Inv`; the response alone is `respond`'s. -/

section Invariant

variable {s : State} (h : Inv s)
include h

/-- R59: a write inside the store keeps its canonical form and its bound. -/
theorem Inv.backWrite {r : Region} {off : Nat} (hoff : offsetFits s.cfg off r) (v : Byte) :
    Inv (backWrite s r off v) := by
  cases r with
  | ext => exact { h with
      extWf := Memory.write_wf h.extWf off v, extBound := Memory.write_bound h.extBound hoff v }
  | disk =>
    have hdisk := backWrite_diskFits h.diskFits .disk off v
    unfold Machine.backWrite at hdisk ⊢
    dsimp only at hdisk ⊢
    split
    next hw => exact { h with diskFits := by rwa [if_pos hw] at hdisk }
    · exact h
  | vram => exact { h with
      vramWf := Memory.write_wf h.vramWf off v, vramBound := Memory.write_bound h.vramBound hoff v }
  | ram => exact { h with
      ramWf := Memory.write_wf h.ramWf off v, ramBound := Memory.write_bound h.ramBound hoff v }
  | rom i => exact h
  | openBus => exact h

theorem Inv.memWrite (addr : Addr) (v : Byte) : Inv (memWrite s addr v) :=
  h.backWrite (resolve_offsetFits s.cfg s.bank addr) v

/-- R42: any change of the chips' states keeps the invariant where every chip keeps its name. -/
theorem Inv.withChips {chips : List (ChipId × ChipState)} (hnames : chips.map Prod.fst = s.chips.map Prod.fst) :
    Inv { s with chips := chips } :=
  { h with chipNames := hnames.trans h.chipNames }

theorem Inv.withSetChip (c : ChipId) (st : ChipState) : Inv { s with chips := setChip s.chips c st } :=
  h.withChips (setChip_names ..)

theorem Inv.withMapChips (f : ChipId → ChipState → ChipState) :
    Inv { s with chips := s.chips.map fun e => (e.1, f e.1 e.2) } :=
  h.withChips (by simp [Function.comp_def])

theorem Inv.portRead (port : Byte) : Inv (portRead s port).2 := by
  unfold Machine.portRead
  split
  · exact h.withSetChip ..
  · exact { h with }
  · exact { h with }
  · exact h
  · exact h
  · exact h

theorem Inv.portWrite (port v : Byte) : Inv (portWrite s port v) := by
  unfold Machine.portWrite
  split
  · exact h.withSetChip ..
  · exact { h with }
  · exact { h with }
  · exact h
  · exact h
  · exact h

theorem Inv.acceptSource (src : Source) : Inv (acceptSource s src).2 := by
  cases src with
  | video => exact { h with }
  | chip c => exact h.withSetChip ..

theorem Inv.finishSource (src : Source) : Inv (finishSource s src) := by
  cases src with
  | video => exact h
  | chip c => exact h.withSetChip ..

/-- R25, R29, R31, R34: line boundaries keep the counters in range, the table and the frame buffer of their sizes. -/
theorem Inv.lineEnds (k : Nat) : Inv (lineEnds k s) where
  cfgWf := by simpa using h.cfgWf
  cplEq := by simpa using h.cplEq
  cplPos := by simpa using h.cplPos
  lineLegal := by
    rw [lineEnds_line k s h.lineLegal, lineEnds_cfg]
    exact Nat.mod_lt _ (Nat.zero_lt_of_lt h.lineLegal)
  blinkLegal := by
    rw [(lineEnds_blink k s h.blinkLegal h.lineLegal).1, lineEnds_cfg]
    exact Nat.mod_lt _ (Nat.zero_lt_of_lt h.blinkLegal)
  borderTabLen := by simpa [lineEnds_borderTab_length] using h.borderTabLen
  fbLen := by simpa [lineEnds_fb_length] using h.fbLen
  fbRows := by simpa using lineEnds_fb_rows k s h.fbRows
  matrixLen := by simpa using h.matrixLen
  romLen := by simpa using h.romLen
  diskFits := by simpa [DiskFits] using h.diskFits
  ramWf := by simpa using h.ramWf
  vramWf := by simpa using h.vramWf
  extWf := by simpa using h.extWf
  ramBound := by simpa using h.ramBound
  vramBound := by simpa using h.vramBound
  extBound := by simpa using h.extBound
  chipNames := by simpa using h.chipNames
  waitBound := by simpa using h.waitBound

theorem Inv.advanceRaster (n : Nat) : Inv (advanceRaster s n) := by
  rw [advanceRaster_eq]
  exact { h.lineEnds _ with }

theorem Inv.resetPorts (level : ResetLevel) : Inv (resetPorts s level) :=
  { h.withMapChips fun c => Config.chipReset c level with }

/-- R118, R119: the raster's first values are legal, since the bounds of R8 hold and `cpl` is that of the clock. -/
theorem Inv.resetRaster (n : Nat) : Inv (resetRaster s n) :=
  { h with
    cplEq := rfl
    cplPos := h.cplPos.trans_eq h.cplEq
    lineLegal := Nat.zero_lt_of_lt h.lineLegal
    blinkLegal := Nat.zero_lt_of_lt h.blinkLegal
    borderTabLen := List.length_replicate
    fbLen := List.length_replicate
    fbRows := fun _ hrow => nomatch List.eq_of_mem_replicate hrow }

/-- R118: the stores are empty and the loaded images have their sizes, whatever is supplied. -/
theorem Inv.resetStores (n : Nat) : Inv (resetStores s n) :=
  { h with
    romLen := loadRoms_length _ _
    diskFits := resetStores_diskFits s n
    ramWf := rfl
    vramWf := rfl
    extWf := rfl
    ramBound := fun _ hc => nomatch hc
    vramBound := fun _ hc => nomatch hc
    extBound := fun _ hc => nomatch hc }

/-! ### The invariant, transaction by transaction -/

theorem Inv.effect {i : Instr} {u : State} (hu : Effect s i u) : Inv u := by
  cases hu with
  | memRd | memPeek | intQuery | intAckNone | vidPix | vidBorder => exact h
  | memWr dt addr v => exact h.memWrite addr v
  | ioRd dt portAddr => exact h.portRead _
  | ioWr dt portAddr v => exact h.portWrite _ v
  | tick n => exact (h.advanceRaster n.toNat).withMapChips fun c => chipTick c n.toNat
  | intAck src => exact h.acceptSource src
  | intFin =>
    rw [← foldl_finishSource]
    exact List.foldlRecOn _ _ h fun _ hs src _ => hs.finishSource src
  | resetPowerOn => exact ((h.resetPorts .powerOn).resetRaster _).resetStores _
  | resetCold => exact (h.resetPorts .cold).resetRaster _
  | resetWarm => exact h.resetPorts .warm
  | speed khz hcpl => exact { h with cplEq := rfl, cplPos := hcpl }
  | keySet row mask => exact { h with matrixLen := List.length_set.trans h.matrixLen }
  | keyRelease => exact { h with matrixLen := (List.length_map _).trans h.matrixLen }
  | joySet mask => exact { h with }

/-- R73, R97: answering with a wait count of at most `P` keeps the invariant. -/
theorem Inv.respond {t : State} {data : Byte} {wait : Nat} (hwait : wait ≤ s.cfg.period)
    (ht : respond s data wait = .next t) : Inv t := by
  obtain rfl := respond_eq_next_iff.1 ht
  refine { h with waitBound := ?_ }
  rintro _ ⟨⟩
  exact (Nat.mod_le ..).trans hwait

theorem Inv.exec {i : Instr} {t : State} (ht : exec i s = .next t) : Inv t := by
  obtain ⟨u, data, wait, hu, hwait, hr⟩ := exec_next_effect ht
  exact (h.effect hu).respond (by rwa [hu.cfg_eq]) hr

end Invariant

/-- Settles O15: a step is idle, or performs the transaction of the first waiting word. -/
theorem stepKeepsTheInvariant : Obligations.StepKeepsTheInvariant := by
  intro s t h ht
  unfold step takeRequest at ht
  split at ht
  · cases ht
    exact h
  next w rest _ =>
    unfold transact at ht
    split at ht
    · exact Inv.exec (s := { s with requests := rest }) { h with } ht
    · cases ht

/-! ### Which transactions move which state -/

/-- R87, R88, R90: a port write changes the bank only through a bank-control port, to the decode of the byte. -/
theorem portWrite_bank_ne {s : State} {port v : Byte} (h : (portWrite s port v).bank ≠ s.bank) :
    ∃ j, s.cfg.handler port = .bankctl j ∧ (portWrite s port v).bank = s.cfg.bankctlDecode j v s.bank := by
  cases hp : s.cfg.handler port with
  | bankctl j => exact ⟨j, rfl, by simp [portWrite, hp]⟩
  | periph | border | joystick | keyboard | unmapped => exact absurd (by simp [portWrite, hp]) h

/-- R87, R90: a port write changes the border only through a border port, to the byte. -/
theorem portWrite_border_ne {s : State} {port v : Byte} (h : (portWrite s port v).border ≠ s.border) :
    s.cfg.handler port = .border ∧ (portWrite s port v).border = v := by
  cases hp : s.cfg.handler port with
  | border => exact ⟨rfl, by simp [portWrite, hp]⟩
  | periph | bankctl | joystick | keyboard | unmapped => exact absurd (by simp [portWrite, hp]) h

theorem Effect.bank_ne {i : Instr} {s u : State} (hu : Effect s i u) (h : u.bank ≠ s.bank) :
    (∃ dt portAddr v j, i = .ioWr dt portAddr v ∧ s.cfg.handler (portOf portAddr) = .bankctl j ∧
      u.bank = s.cfg.bankctlDecode j v s.bank) ∨ i = .resetPowerOn ∨ i = .resetCold ∨ i = .resetWarm := by
  cases hu with
  | ioWr dt portAddr v =>
    obtain ⟨j, hport, hbank⟩ := portWrite_bank_ne h
    exact .inl ⟨dt, portAddr, v, j, rfl, hport, hbank⟩
  | resetPowerOn | resetCold | resetWarm => simp
  | _ => simp at h

theorem Effect.border_ne {i : Instr} {s u : State} (hu : Effect s i u) (h : u.border ≠ s.border) :
    (∃ dt portAddr v, i = .ioWr dt portAddr v ∧ s.cfg.handler (portOf portAddr) = .border ∧ u.border = v) ∨
      i = .resetPowerOn ∨ i = .resetCold ∨ i = .resetWarm := by
  cases hu with
  | ioWr dt portAddr v =>
    obtain ⟨hport, hborder⟩ := portWrite_border_ne h
    exact .inl ⟨dt, portAddr, v, rfl, hport, hborder⟩
  | resetPowerOn | resetCold | resetWarm => simp
  | _ => simp at h

theorem Effect.matrix_ne {i : Instr} {s u : State} (hu : Effect s i u) (h : u.matrix ≠ s.matrix) :
    (∃ row mask, i = .keySet row mask) ∨ i = .keyRelease := by
  cases hu with
  | keySet row mask => exact .inl ⟨row, mask, rfl⟩
  | keyRelease => exact .inr rfl
  | _ => simp at h

theorem Effect.joy_ne {i : Instr} {s u : State} (hu : Effect s i u) (h : u.joy ≠ s.joy) : ∃ mask, i = .joySet mask := by
  cases hu with
  | joySet mask => exact ⟨mask, rfl⟩
  | _ => simp at h

theorem Effect.supplies_ne {i : Instr} {s u : State} (hu : Effect s i u) (h : u.supplies ≠ s.supplies) :
    i = .resetPowerOn := by
  cases hu with
  | resetPowerOn => rfl
  | _ => simp at h

theorem Effect.raster_ne {i : Instr} {s u : State} (hu : Effect s i u)
    (h : u.line ≠ s.line ∨ u.acc ≠ s.acc ∨ u.blinkCnt ≠ s.blinkCnt ∨ u.blinkFlag ≠ s.blinkFlag ∨
      u.borderTab ≠ s.borderTab ∨ u.fb ≠ s.fb) :
    (∃ n, i = .tick n) ∨ i = .resetPowerOn ∨ i = .resetCold := by
  cases hu with
  | tick n => exact .inl ⟨n, rfl⟩
  | resetPowerOn | resetCold => simp
  | _ => simp at h

theorem Effect.clockKHz_ne {i : Instr} {s u : State} (hu : Effect s i u) (h : u.clockKHz ≠ s.clockKHz) :
    ∃ khz, i = .speed khz := by
  cases hu with
  | speed khz => exact ⟨khz, rfl⟩
  | _ => simp at h

theorem Effect.cpl_ne {i : Instr} {s u : State} (hu : Effect s i u) (h : u.cpl ≠ s.cpl) :
    (∃ khz, i = .speed khz) ∨ i = .resetPowerOn ∨ i = .resetCold := by
  cases hu with
  | speed khz => exact .inl ⟨khz, rfl⟩
  | resetPowerOn | resetCold => simp
  | _ => simp at h

/-- Settles O54: the effect moves the bank and the border so, and answering moves neither. -/
theorem bankAndBorderChangeOnlyByPortsAndReset : Obligations.BankAndBorderChangeOnlyByPortsAndReset := by
  intro i s t ht
  obtain ⟨u, data, wait, hu, -, hr⟩ := exec_next_effect ht
  obtain rfl := respond_eq_next_iff.1 hr
  exact ⟨hu.bank_ne, hu.border_ne⟩

/-- Settles O56: the effect moves the input side and the supplies so and keeps the configuration, and answering moves
none of them. -/
theorem inputStateChangesOnlyByTheInputSide : Obligations.InputStateChangesOnlyByTheInputSide := by
  intro i s t ht
  obtain ⟨u, data, wait, hu, -, hr⟩ := exec_next_effect ht
  obtain rfl := respond_eq_next_iff.1 hr
  exact ⟨hu.matrix_ne, hu.joy_ne, hu.cfg_eq, hu.supplies_ne⟩

/-- Settles O57: the effect moves the raster and the clock so, and answering moves neither. -/
theorem rasterMovesOnlyByTickAndReset : Obligations.RasterMovesOnlyByTickAndReset := by
  intro i s t ht
  obtain ⟨u, data, wait, hu, -, hr⟩ := exec_next_effect ht
  obtain rfl := respond_eq_next_iff.1 hr
  exact ⟨hu.raster_ne, hu.clockKHz_ne, hu.cpl_ne⟩

end Sys2Proof.Machine

/-! Memory (R45 to R59): the extended-RAM offset and the resolution order, what a backing read gives, what a write or any
other transaction leaves of the stores, and the queue of requests (R65). -/

namespace Sys2Proof.Machine

open Sys2Proof

/-! ### The extended-RAM offset (R55) -/

/-- Bit 15 taken into a word by exclusive or flips its upper half and keeps its lower 15 bits. -/
theorem toNat_xor_bit15 (a : Addr) :
    (a ^^^ 0x8000).toNat = if a.toNat < 0x8000 then a.toNat + 0x8000 else a.toNat - 0x8000 := by
  have hlow : (a ^^^ 0x8000).toNat % 2 ^ 15 = a.toNat % 2 ^ 15 := by
    rw [BitVec.toNat_xor, Nat.xor_mod_two_pow]
    exact Nat.xor_zero _
  have hhigh : (a ^^^ 0x8000).toNat / 2 ^ 15 = a.toNat / 2 ^ 15 ^^^ 1 := by
    rw [BitVec.toNat_xor, Nat.xor_div_two_pow]
    rfl
  have ha := a.isLt
  split
  · rw [show a.toNat / 2 ^ 15 = 0 by omega, Nat.zero_xor] at hhigh
    omega
  · rw [show a.toNat / 2 ^ 15 = 1 by omega, Nat.xor_self] at hhigh
    omega

/-- Bit 15 taken into a word by or sets its upper half and keeps its lower 15 bits. -/
theorem toNat_or_bit15 (a : Addr) :
    (a ||| 0x8000).toNat = if a.toNat < 0x8000 then a.toNat + 0x8000 else a.toNat := by
  have hlow : (a ||| 0x8000).toNat % 2 ^ 15 = a.toNat % 2 ^ 15 := by
    rw [BitVec.toNat_or, Nat.or_mod_two_pow]
    exact Nat.or_zero _
  have hhigh : (a ||| 0x8000).toNat / 2 ^ 15 = a.toNat / 2 ^ 15 ||| 1 := by
    rw [BitVec.toNat_or, Nat.or_div_two_pow]
    rfl
  have ha := a.isLt
  split
  · rw [show a.toNat / 2 ^ 15 = 0 by omega, Nat.zero_or] at hhigh
    omega
  · rw [show a.toNat / 2 ^ 15 = 1 by omega, Nat.or_self] at hhigh
    omega

theorem toNat_extLow16 (op : A15Op) (negA15 : Bool) (addr : Addr) :
    (extLow16 op negA15 addr).toNat =
      if negA15 = false then addr.toNat
      else if addr.toNat < 0x8000 then addr.toNat + 0x8000
      else if op = .xor then addr.toNat - 0x8000 else addr.toNat := by
  cases negA15 with
  | false => cases op <;> simp [extLow16]
  | true =>
    cases op with
    | xor => simpa [extLow16] using toNat_xor_bit15 addr
    | or => simpa [extLow16] using toNat_or_bit15 addr

/-- Settles O18: the page above the low 16 bits, where `A15_OP` matters only for an address with bit 15 set. -/
theorem extendedOffsetBits : Obligations.ExtendedOffsetBits := by
  intro cfg bank addr
  refine ⟨by rw [extOffset, toNat_extLow16], ?_, fun h => ?_⟩
  · have hpage := bank.page.isLt
    have hlow := (extLow16 cfg.a15Op bank.negA15 addr).isLt
    rw [extOffset]
    omega
  · simp only [extOffset, toNat_extLow16, if_pos h]

/-! ### Resolution (R49 to R54) -/

theorem inRange_iff {base len a : Nat} : inRange base len a = true ↔ base ≤ a ∧ a < base + len := by
  simp only [inRange, Bool.and_eq_true, decide_eq_true_eq]

theorem romClaims_iff {r : RomCfg} {lowerRam : Bool} {a : Nat} : romClaims r lowerRam a = true ↔
    r.base ≤ a ∧ a < r.base + r.len ∧ ¬ (r.lowerGated = true ∧ lowerRam = true) := by
  simp only [romClaims, Bool.and_eq_true, inRange_iff, Bool.not_eq_true', ← Bool.not_eq_true, and_assoc]

/-- R54: the search finds the first ROM region that claims the address; `k` is the index of the list's head. -/
theorem findRom_eq_some_iff {lowerRam : Bool} {a k : Nat} {roms : List RomCfg} {p : Nat × Nat} :
    findRom lowerRam a roms k = some p ↔ ∃ i r, roms[i]? = some r ∧ romClaims r lowerRam a = true ∧
      (∀ j q, j < i → roms[j]? = some q → ¬ romClaims q lowerRam a = true) ∧ p = (k + i, a - r.base) := by
  induction roms generalizing k with
  | nil => simp [findRom]
  | cons r rs ih =>
    rw [findRom]
    split
    next hr =>
      constructor
      · rintro ⟨⟩
        exact ⟨0, r, rfl, hr, fun j q hj => absurd hj (Nat.not_lt_zero j), rfl⟩
      · rintro ⟨i, q, hq, -, hfirst, rfl⟩
        cases i with
        | zero =>
          cases hq
          rfl
        | succ i => exact absurd hr (hfirst 0 r i.succ_pos rfl)
    next hr =>
      rw [ih]
      constructor
      · rintro ⟨i, q, hq, hc, hfirst, rfl⟩
        refine ⟨i + 1, q, hq, hc, fun j p hj hp => ?_, by rw [Nat.add_right_comm, Nat.add_assoc]⟩
        cases j with
        | zero =>
          cases hp
          exact hr
        | succ j => exact hfirst j p (Nat.lt_of_succ_lt_succ hj) hp
      · rintro ⟨i, q, hq, hc, hfirst, rfl⟩
        cases i with
        | zero =>
          cases hq
          exact absurd hc hr
        | succ i =>
          exact ⟨i, q, hq, hc, fun j p hj => hfirst (j + 1) p (Nat.succ_lt_succ hj),
            by rw [Nat.add_right_comm, Nat.add_assoc]⟩

theorem findRom_eq_none {lowerRam : Bool} {a k : Nat} {roms : List RomCfg}
    (h : ∀ r ∈ roms, ¬ romClaims r lowerRam a = true) : findRom lowerRam a roms k = none := by
  refine Option.eq_none_iff_forall_ne_some.2 fun p hp => ?_
  obtain ⟨i, r, hr, hc, -, -⟩ := findRom_eq_some_iff.1 hp
  exact h r (List.mem_of_getElem? hr) hc

/-- R54 with each window's claim as the rules R49 to R51 write it. -/
theorem resolve_eq (cfg : Cfg) (bank : Bank) (addr : Addr) : resolve cfg bank addr =
    if bank.extWin = true ∧ cfg.extBase ≤ addr.toNat ∧ addr.toNat < cfg.extBase + cfg.extLen then
      if extOffset cfg bank addr < cfg.extSize then (.ext, extOffset cfg bank addr) else (.openBus, 0)
    else if bank.overlay = true ∧ cfg.diskBase ≤ addr.toNat ∧ addr.toNat < cfg.diskBase + cfg.diskLen then
      (.disk, addr.toNat - cfg.diskBase)
    else (findRom bank.lowerRam addr.toNat cfg.roms 0).elim
      (if cfg.vramBase ≤ addr.toNat ∧ addr.toNat < cfg.vramBase + cfg.vramLen then (.vram, addr.toNat - cfg.vramBase)
        else if cfg.ramBase ≤ addr.toNat ∧ addr.toNat < cfg.ramBase + cfg.ramLen then (.ram, addr.toNat)
        else (.openBus, 0))
      fun p => (.rom p.1, p.2) := by
  simp only [resolve, Bool.and_eq_true, inRange_iff]
  cases findRom bank.lowerRam addr.toNat cfg.roms 0 <;> rfl

/-- Settles O17: the first window of the order that claims the address decides. -/
theorem resolveFollowsThePriorityOrder : Obligations.ResolveFollowsThePriorityOrder := by
  intro cfg bank addr a extClaims diskClaims claims vramClaims ramClaims
  have hres := resolve_eq cfg bank addr
  refine ⟨fun hext hoff => ?_, fun hext hoff => ?_, fun hext hdisk => ?_, fun hext hdisk i r hr hc hfirst => ?_,
    fun hext hdisk hrom => ?_⟩
  · rw [hres, if_pos hext, if_pos hoff]
  · rw [hres, if_pos hext, if_neg (Nat.not_lt.2 hoff)]
  · rw [hres, if_neg hext, if_pos hdisk]
  · have hfind : findRom bank.lowerRam a cfg.roms 0 = some (0 + i, a - r.base) :=
      findRom_eq_some_iff.2
        ⟨i, r, hr, romClaims_iff.2 hc, fun j q hj hq => romClaims_iff.not.2 (hfirst j q hj hq), rfl⟩
    rw [hres, if_neg hext, if_neg hdisk, hfind, Nat.zero_add]
    rfl
  · have hfind : findRom bank.lowerRam a cfg.roms 0 = none :=
      findRom_eq_none fun r hr => romClaims_iff.not.2 (hrom r hr)
    rw [hres, if_neg hext, if_neg hdisk, hfind]
    exact ⟨fun hv => if_pos hv, fun hv hr => (if_neg hv).trans (if_pos hr),
      fun hv hr => (if_neg hv).trans (if_neg hr)⟩

/-- `Resolves cfg bank addr p`: the region that `p` names claims the address, with the offset that R54 gives it. -/
inductive Resolves (cfg : Cfg) (bank : Bank) (addr : Addr) : Region × Nat → Prop
  | ext (hwin : bank.extWin = true) (hbase : cfg.extBase ≤ addr.toNat) (hend : addr.toNat < cfg.extBase + cfg.extLen)
      (hoff : extOffset cfg bank addr < cfg.extSize) : Resolves cfg bank addr (.ext, extOffset cfg bank addr)
  | disk (hoverlay : bank.overlay = true) (hbase : cfg.diskBase ≤ addr.toNat)
      (hend : addr.toNat < cfg.diskBase + cfg.diskLen) : Resolves cfg bank addr (.disk, addr.toNat - cfg.diskBase)
  | rom (i : Nat) (r : RomCfg) (hr : cfg.roms[i]? = some r) (hbase : r.base ≤ addr.toNat)
      (hend : addr.toNat < r.base + r.len) (hgate : ¬ (r.lowerGated = true ∧ bank.lowerRam = true)) :
      Resolves cfg bank addr (.rom i, addr.toNat - r.base)
  | vram (hbase : cfg.vramBase ≤ addr.toNat) (hend : addr.toNat < cfg.vramBase + cfg.vramLen) :
      Resolves cfg bank addr (.vram, addr.toNat - cfg.vramBase)
  | ram (hbase : cfg.ramBase ≤ addr.toNat) (hend : addr.toNat < cfg.ramBase + cfg.ramLen) :
      Resolves cfg bank addr (.ram, addr.toNat)
  | openBus : Resolves cfg bank addr (.openBus, 0)

theorem resolve_resolves (cfg : Cfg) (bank : Bank) (addr : Addr) : Resolves cfg bank addr (resolve cfg bank addr) := by
  rw [resolve_eq]
  split
  next hext =>
    obtain ⟨hwin, hbase, hend⟩ := hext
    split
    next hoff => exact .ext hwin hbase hend hoff
    · exact .openBus
  · split
    next hdisk =>
      obtain ⟨hoverlay, hbase, hend⟩ := hdisk
      exact .disk hoverlay hbase hend
    · cases hfind : findRom bank.lowerRam addr.toNat cfg.roms 0 with
      | some p =>
        obtain ⟨i, r, hr, hc, -, rfl⟩ := findRom_eq_some_iff.1 hfind
        obtain ⟨hbase, hend, hgate⟩ := romClaims_iff.1 hc
        rw [Nat.zero_add]
        exact .rom i r hr hbase hend hgate
      | none =>
        dsimp only [Option.elim]
        split
        next hvram =>
          obtain ⟨hbase, hend⟩ := hvram
          exact .vram hbase hend
        · split
          next hram =>
            obtain ⟨hbase, hend⟩ := hram
            exact .ram hbase hend
          · exact .openBus

/-- Settles O16: the claim of the region named bounds its offset. -/
theorem resolveGivesAValidOffset : Obligations.ResolveGivesAValidOffset := by
  intro cfg bank addr off
  have hres := resolve_resolves cfg bank addr
  refine ⟨fun h => ?_, fun h => ?_, fun i h => ?_, fun h => ?_, fun h => ?_, fun h => ?_⟩ <;> rw [h] at hres
  · cases hres with
    | ext hwin hbase hend hoff => exact ⟨hoff, hwin, hbase, hend⟩
  · cases hres with
    | disk hoverlay hbase hend => exact ⟨by omega, by omega, hoverlay⟩
  · cases hres with
    | rom _ r hr hbase hend hgate => exact ⟨r, hr, by omega, by omega, hgate⟩
  · cases hres with
    | vram hbase hend => exact ⟨by omega, by omega⟩
  · cases hres with
    | ram hbase hend => exact ⟨rfl, hbase, hend⟩
  · cases hres with
    | openBus => rfl

/-! ### Backing reads (R58) -/

theorem Memory.read_eq_none {m : Memory} {a : Nat} (h : ∀ c ∈ m, c.1 ≠ a) : Memory.read m a = none := by
  induction m with
  | nil => rfl
  | cons c m ih =>
    obtain ⟨hc, hm⟩ := List.forall_mem_cons.1 h
    rw [Memory.read, if_neg hc, ih hm]

/-- A listed byte reads as itself. -/
theorem Memory.getD_read_of_mem {m : Memory} {a : Nat} {b : Byte} (h : Memory.wf m = true) (hb : (a, b) ∈ m)
    (d : Byte) : (Memory.read m a).getD d = b := by
  rw [(Memory.read_eq_some_iff h a b).2 hb, Option.getD_some]

/-- An unlisted byte reads as the draw. -/
theorem Memory.getD_read_of_unlisted {m : Memory} {a : Nat} (h : ∀ c ∈ m, c.1 ≠ a) (d : Byte) :
    (Memory.read m a).getD d = d := by
  rw [Memory.read_eq_none h, Option.getD_none]

theorem imageByte_past_end {img : Image} {off : Nat} (h : img.length ≤ off) : imageByte (some img) off = 0xFF := by
  rw [imageByte, List.getD_eq_default _ _ h]

theorem imageByte_of_getElem? {img : Image} {off : Nat} {b : Byte} (h : img[off]? = some b) :
    imageByte (some img) off = b := by
  rw [imageByte, List.getD_eq_getElem?_getD, h, Option.getD_some]

theorem backRead_disk (s : State) (off : Nat) : backRead s .disk off = imageByte s.diskImg off := rfl

theorem backRead_rom {s : State} {i : Nat} {img : Option Image} (h : s.romImg[i]? = some img) (off : Nat) :
    backRead s (.rom i) off = imageByte img off := by
  rw [backRead, List.getD_eq_getElem?_getD, h, Option.getD_some]

/-- Settles O59: images and memories read as they are listed. -/
theorem backReadGivesTheStoredByte : Obligations.BackReadGivesTheStoredByte := by
  intro s off
  refine ⟨rfl, fun h => ?_, fun img h hend => ?_, fun img b h hb => ?_, fun i h => ?_, fun i img h hend => ?_,
    fun i img b h hb => ?_, fun _ hwf hb => Memory.getD_read_of_mem hwf hb _,
    fun _ hwf hb => Memory.getD_read_of_mem hwf hb _, fun _ hwf hb => Memory.getD_read_of_mem hwf hb _,
    fun h => Memory.getD_read_of_unlisted h _, fun h => Memory.getD_read_of_unlisted h _,
    fun h => Memory.getD_read_of_unlisted h _⟩
  · rw [backRead_disk, h, imageByte]
  · rw [backRead_disk, h, imageByte_past_end hend]
  · rw [backRead_disk, h, imageByte_of_getElem? hb]
  · rw [backRead_rom h, imageByte]
  · rw [backRead_rom h, imageByte_past_end hend]
  · rw [backRead_rom h, imageByte_of_getElem? hb]

/-! ### Writes to the stores (R59) -/

/-- R58: a backing read sees the stores and the draws of the RAMs, and nothing else of the state. -/
theorem backRead_congr {s t : State} (hram : t.ram = s.ram) (hvram : t.vram = s.vram) (hext : t.ext = s.ext)
    (hrom : t.romImg = s.romImg) (hdisk : t.diskImg = s.diskImg) (hdraw : t.powerDraw = s.powerDraw)
    (q : Region) (o : Nat) : backRead t q o = backRead s q o := by
  cases q with
  | ext => simp only [backRead, extByte, hext, hdraw]
  | disk => simp only [backRead, hdisk]
  | rom i => simp only [backRead, hrom]
  | vram => simp only [backRead, vramByte, hvram, hdraw]
  | ram => simp only [backRead, ramByte, hram, hdraw]
  | openBus => rfl

@[simp] theorem backRead_withResponse (s : State) (r : Option Response) (q : Region) (o : Nat) :
    backRead { s with response := r } q o = backRead s q o :=
  backRead_congr rfl rfl rfl rfl rfl rfl q o

/-- R59: a backing write touches the three RAMs and the disk image only. -/
theorem backWrite_eq (s : State) (r : Region) (off : Nat) (v : Byte) :
    backWrite s r off v = { s with
      ram := (backWrite s r off v).ram, vram := (backWrite s r off v).vram, ext := (backWrite s r off v).ext,
      diskImg := (backWrite s r off v).diskImg } := by
  cases r with
  | disk =>
    unfold backWrite
    dsimp only
    split <;> rfl
  | ext | rom | vram | ram | openBus => rfl

/-- What any place reads as after MEM_WR's store. A disk image of its type's length holds every offset that an address
resolves to (R39). -/
theorem backRead_memWrite (s : State) (hd : DiskFits s) (addr : Addr) (v : Byte) (q : Region) (o : Nat) :
    backRead (memWrite s addr v) q o =
      if q = (resolve s.cfg s.bank addr).1 ∧ o = (resolve s.cfg s.bank addr).2 ∧
        mutableRegion s (resolve s.cfg s.bank addr).1 = true then v else backRead s q o :=
  backRead_backWrite s _ q _ o v fun hr img hi => hd img hi ▸ resolve_disk_lt hr

/-- Settles O22: MEM_WR is one backing write at the resolved place, then the response. -/
theorem memWrStoresOnlyTheResolvedByte : Obligations.MemWrStoresOnlyTheResolvedByte := by
  intro s t dt addr data hd ht
  have hread := backRead_memWrite s hd addr data
  obtain rfl := respond_eq_next_iff.1 ht
  simp only [backRead_withResponse]
  refine ⟨fun hm => ?_, fun hm q o => ?_, fun q o hne => ?_, ?_, rfl, rfl, rfl, rfl, fun _ => rfl, ?_⟩
  · rw [hread, if_pos ⟨rfl, rfl, hm⟩]
  · rw [hread, if_neg fun ⟨_, _, hm'⟩ => Bool.false_ne_true (hm.symm.trans hm')]
  · rw [hread, if_neg fun ⟨hq, ho, _⟩ => hne (Prod.ext hq ho)]
  · rw [memWrite, backWrite_eq]
  · simp only [mutableRegion, Bool.and_eq_true, Option.isSome_iff_exists]

/-- Settles O23: the response of MEM_WR is no part of what a read sees. -/
theorem writeThenReadAnyAddress : Obligations.WriteThenReadAnyAddress := by
  intro s t dt a b v hd ht
  obtain rfl := respond_eq_next_iff.1 ht
  exact (backRead_withResponse ..).trans (memRead_memWrite s hd a b v)

/-! ### Which transactions move the stores (R62, R67) -/

theorem Effect.backRead_ne {i : Instr} {s u : State} (hu : Effect s i u) {q : Region} {o : Nat}
    (h : backRead u q o ≠ backRead s q o) : (∃ dt addr v, i = .memWr dt addr v) ∨ i = .resetPowerOn := by
  cases hu with
  | memWr dt addr v => exact .inl ⟨dt, addr, v, rfl⟩
  | resetPowerOn => exact .inr rfl
  | _ => exact absurd (backRead_congr (by simp) (by simp) (by simp) (by simp) (by simp) (by simp) q o) h

theorem Effect.romImg_ne {i : Instr} {s u : State} (hu : Effect s i u) (h : u.romImg ≠ s.romImg) :
    i = .resetPowerOn := by
  cases hu with
  | resetPowerOn => rfl
  | _ => simp at h

/-- Settles O55: the effect moves the stores so, and answering moves none. -/
theorem storesChangeOnlyByMemWrAndPowerOn : Obligations.StoresChangeOnlyByMemWrAndPowerOn := by
  intro i s t ht
  obtain ⟨u, data, wait, hu, -, hr⟩ := exec_next_effect ht
  obtain rfl := respond_eq_next_iff.1 hr
  exact ⟨fun q o h => hu.backRead_ne (by rwa [backRead_withResponse] at h), hu.romImg_ne⟩

/-! ### Bank-control writes (R57) -/

theorem portWrite_of_bankctl {s : State} {port : Byte} {j : Nat} (h : s.cfg.handler port = .bankctl j) (v : Byte) :
    portWrite s port v = { s with bank := s.cfg.bankctlDecode j v s.bank } := by
  rw [portWrite, h]

/-- R57: where the stores and the configuration are those of `s`, a read of an address acts at the place that the bank
resolves it to. -/
theorem memRead_withBank (s : State) (bank : Bank) (resp : Option Response) (addr : Addr) :
    memRead { s with bank := bank, response := resp } addr =
      backRead s (resolve s.cfg bank addr).1 (resolve s.cfg bank addr).2 :=
  backRead_congr rfl rfl rfl rfl rfl rfl _ _

/-- Settles O28: the write leaves the new bank and the old stores, and resolution reads the bank. -/
theorem bankControlWriteIsSeenAtOnce : Obligations.BankControlWriteIsSeenAtOnce := by
  intro s dt portAddr v j hport
  refine ⟨_, rfl, fun isFetch dt' addr data => ?_⟩
  rw [portWrite_of_bankctl hport]
  exact ⟨⟨_, _, rfl, rfl, memRead_withBank ..⟩, ⟨_, _, rfl, rfl, memRead_withBank ..⟩, _, rfl, rfl⟩

/-! ### The queue of requests (R65) -/

theorem step_of_requests {s : State} {w : Request} {rest : List Request} (h : s.requests = w :: rest) :
    step s = transact w { s with requests := rest } := by
  rw [step, takeRequest, h]

theorem transact_of_decode {w : Request} {i : Instr} (h : decode w = .ok i) (s : State) : transact w s = exec i s := by
  rw [transact, h]

/-- Settles O6: a step takes the first word, and the word is the transaction it decodes to. -/
theorem stepRunsTheDecodedRequest : Obligations.StepRunsTheDecodedRequest := by
  intro s w rest i hq hi
  rw [step_of_requests hq, transact_of_decode hi]

/-- The outcome with the queue of the state, if there is one, replaced. -/
def withQueue (q : List Request) : Host.Outcome State Fault Refusal → Host.Outcome State Fault Refusal
  | .next t => .next { t with requests := q }
  | .fault f => .fault f
  | .refused r => .refused r

/-! #### No operation reads the queue, and each keeps the one it finds -/

theorem backWrite_withQueue (s : State) (q : List Request) (r : Region) (off : Nat) (v : Byte) :
    backWrite { s with requests := q } r off v = { backWrite s r off v with requests := q } := by
  cases r with
  | disk =>
    unfold backWrite
    dsimp only
    split <;> rfl
  | ext | rom | vram | ram | openBus => rfl

theorem memWrite_withQueue (s : State) (q : List Request) (addr : Addr) (v : Byte) :
    memWrite { s with requests := q } addr v = { memWrite s addr v with requests := q } :=
  backWrite_withQueue ..

theorem portRead_withQueue (s : State) (q : List Request) (port : Byte) :
    portRead { s with requests := q } port =
      ((portRead s port).1, { (portRead s port).2 with requests := q }) := by
  unfold portRead
  dsimp only
  split <;> rfl

theorem portWrite_withQueue (s : State) (q : List Request) (port v : Byte) :
    portWrite { s with requests := q } port v = { portWrite s port v with requests := q } := by
  unfold portWrite
  dsimp only
  split <;> rfl

theorem select_withQueue (s : State) (q : List Request) : select { s with requests := q } = select s := rfl

theorem acceptSource_withQueue (s : State) (q : List Request) (src : Source) :
    acceptSource { s with requests := q } src =
      ((acceptSource s src).1, { (acceptSource s src).2 with requests := q }) := by
  cases src <;> rfl

theorem finishSource_withQueue (s : State) (q : List Request) (src : Source) :
    finishSource { s with requests := q } src = { finishSource s src with requests := q } := by
  cases src <;> rfl

theorem foldl_finishSource_withQueue (l : List Source) (s : State) (q : List Request) :
    l.foldl finishSource { s with requests := q } = { l.foldl finishSource s with requests := q } := by
  induction l generalizing s with
  | nil => rfl
  | cons src l ih => rw [List.foldl_cons, finishSource_withQueue, ih, List.foldl_cons]

theorem recordLine_withQueue (s : State) (q : List Request) :
    recordLine { s with requests := q } = { recordLine s with requests := q } := by
  unfold recordLine
  dsimp only
  split <;> rfl

theorem blinkStep_withQueue (s : State) (q : List Request) :
    blinkStep { s with requests := q } = { blinkStep s with requests := q } := by
  unfold blinkStep
  dsimp only
  split <;> rfl

theorem lineBlink_withQueue (s : State) (q : List Request) :
    lineBlink { s with requests := q } = { lineBlink s with requests := q } := by
  unfold lineBlink
  dsimp only
  split
  · exact blinkStep_withQueue s q
  · rfl

theorem nextLine_withQueue (s : State) (q : List Request) :
    nextLine { s with requests := q } = { nextLine s with requests := q } := by
  unfold nextLine
  dsimp only
  split
  · split
    · exact blinkStep_withQueue { s with line := 0, latch := true } q
    · rfl
  · rfl

theorem lineEnds_withQueue (k : Nat) (s : State) (q : List Request) :
    lineEnds k { s with requests := q } = { lineEnds k s with requests := q } := by
  induction k generalizing s with
  | zero => rfl
  | succ k ih => simp only [lineEnds, lineEnd, recordLine_withQueue, lineBlink_withQueue, nextLine_withQueue, ih]

theorem advanceRaster_withQueue (s : State) (q : List Request) (n : Nat) :
    advanceRaster { s with requests := q } n = { advanceRaster s n with requests := q } :=
  lineEnds_withQueue _ { s with acc := (s.acc + n) % s.cpl } q

/-- R65: a transaction does with any queue behind it what it does with another. -/
theorem exec_withQueue (i : Instr) (s : State) (q : List Request) :
    exec i { s with requests := q } = withQueue q (exec i s) := by
  cases i with
  | memRd | memPeek | intQuery | vidBorder | keyRelease | joySet => rfl
  | resetPowerOn | resetCold | resetWarm => rfl
  | memWr dt addr v =>
    simp only [exec, execMemWr, memWrite_withQueue]
    rfl
  | ioRd dt portAddr =>
    simp only [exec, execIoRd, portRead_withQueue]
    rfl
  | ioWr dt portAddr v =>
    simp only [exec, execIoWr, portWrite_withQueue]
    rfl
  | tick n =>
    simp only [exec, execTick, advanceRaster_withQueue]
    rfl
  | intAck =>
    simp only [exec, execIntAck, select_withQueue, acceptSource_withQueue]
    cases select s <;> rfl
  | intFin =>
    simp only [exec, execIntFin, foldl_finishSource_withQueue]
    rfl
  | speed khz =>
    simp only [exec, execSpeed]
    split <;> rfl
  | vidPix x y =>
    simp only [exec, execVidPix]
    split <;> rfl
  | keySet row mask =>
    simp only [exec, execKeySet]
    split <;> rfl

theorem transact_withQueue (w : Request) (s : State) (q : List Request) :
    transact w { s with requests := q } = withQueue q (transact w s) := by
  unfold transact
  split
  · exact exec_withQueue ..
  · rfl

/-! #### The run and the observation (R143) -/

/-- A step from a queue performs its first word and leaves the rest waiting. -/
theorem core_step_cons (w : Request) (ws : List Request) (s : State) :
    core.step ({ s with requests := w :: ws } : State) = withQueue ws (transact w s) :=
  (step_of_requests (s := { s with requests := w :: ws }) rfl).trans (transact_withQueue w s ws)

theorem run_succ_of_next {M : Host.Core} {s t : M.State} (h : M.step s = .next t) (k : Nat) :
    M.run (k + 1) s = M.run k t := by
  rw [Host.Core.run, h]

theorem run_succ_of_refused {M : Host.Core} {s : M.State} {r : M.Refusal} (h : M.step s = .refused r) (k : Nat) :
    M.run (k + 1) s = .refused r := by
  rw [Host.Core.run, h]

theorem observeOne_of_next {o : Observation} {w : Request} {t : State} (h : transact w o.final = .next t) :
    observeOne o w = { responses := o.responses ++ t.response.toList, mark := o.mark, final := t } := by
  rw [observeOne, h]

theorem observeOne_of_refused {o : Observation} {w : Request} {r : Refusal} (h : transact w o.final = .refused r) :
    observeOne o w = { o with mark := some (o.mark.getD r) } := by
  rw [observeOne, h]

/-- R123: no later request clears the mark. -/
theorem foldl_observeOne_mark {o : Observation} {r : Refusal} (h : o.mark = some r) (ws : List Request) :
    (ws.foldl observeOne o).mark = some r := by
  induction ws generalizing o with
  | nil => exact h
  | cons w ws ih =>
    refine ih (o := observeOne o w) ?_
    cases hw : transact w o.final with
    | next t => rw [observeOne_of_next hw, h]
    | fault f => cases f
    | refused q => rw [observeOne_of_refused hw, h, Option.getD_some]

/-- The run agrees with an observation that goes on from an unmarked one. -/
theorem run_eq_of_foldl_observeOne {o : Observation} (ho : o.mark = none) (ws : List Request) :
    core.run ws.length ({ o.final with requests := ws } : State) =
      (ws.foldl observeOne o).mark.elim (.next { (ws.foldl observeOne o).final with requests := [] }) .refused := by
  induction ws generalizing o with
  | nil =>
    rw [List.foldl_nil, ho]
    rfl
  | cons w ws ih =>
    have hstep := core_step_cons w ws o.final
    rw [List.foldl_cons]
    cases hw : transact w o.final with
    | next t =>
      rw [hw, withQueue] at hstep
      rw [observeOne_of_next hw]
      exact (run_succ_of_next (M := core) hstep _).trans (ih (o := ⟨_, o.mark, t⟩) ho)
    | fault f => cases f
    | refused r =>
      rw [hw, withQueue] at hstep
      rw [foldl_observeOne_mark (r := r) (by rw [observeOne_of_refused hw, ho, Option.getD_none])]
      exact run_succ_of_refused (M := core) hstep _

/-- Settles O8: by induction on the requests, from the observation that has seen none. -/
theorem runAgreesWithObservation : Obligations.RunAgreesWithObservation := by
  intro ws s
  have hrun := run_eq_of_foldl_observeOne (o := ⟨[], none, s⟩) rfl ws
  change core.run _ _ = (observe ws s).mark.elim (.next { (observe ws s).final with requests := [] }) _ at hrun
  split
  next hm => rwa [hm] at hrun
  next r hm => rwa [hm] at hrun

end Sys2Proof.Machine

/-! The request and response words (R70 to R80): decoding and encoding undo each other, the words that decode are the rows
of the opcode table, the reserved words are named by `OP` and `SUB` alone, and what a response word holds. -/

namespace Sys2Proof

/-! ### The fields of a request word (R70, R71) -/

theorem decode_pack (op sub : BitVec 4) (dt : Byte) (a d : BitVec 16) :
    decode (pack op sub dt a d) = decodeFields op sub dt a d := by
  simp only [decode, opOf_pack, subOf_pack, dtOf_pack, aOf_pack, dOf_pack]

theorem fetchSub_decide {sub : BitVec 4} (h : sub = 0 ∨ sub = 1) : fetchSub (decide (sub = 1)) = sub := by
  rcases h with rfl | rfl <;> rfl

theorem checked_eq_ok_iff {subOk fieldsZero : Bool} {i j : Instr} :
    checked subOk fieldsZero i = .ok j ↔ subOk = true ∧ fieldsZero = true ∧ i = j := by
  cases subOk <;> cases fieldsZero <;> simp [checked]

/-! ### Decoding and encoding undo each other (R71, R74, R76) -/

/-- Settles O2: the decoder reads each field of the word as it was laid out, `D` as the byte and `N` as the 32-bit value
it was made from. -/
theorem decodeOfEncode : Obligations.DecodeOfEncode := by
  intro i
  cases i with
  | memRd isFetch | memPeek isFetch =>
    rw [encode, decode_pack]
    cases isFetch <;> simp [decodeFields, checked, fetchSub]
  | memWr | ioWr | keySet | joySet =>
    rw [encode, decode_pack]
    simp [decodeFields, checked, dataOf_setWidth, dataHigh_setWidth]
  | tick | speed | vidBorder =>
    rw [encode, decode_pack]
    simp [decodeFields, checked, nOf_high_low]
  | ioRd | vidPix | intQuery | intAck | intFin | resetPowerOn | resetCold | resetWarm | keyRelease =>
    rw [encode, decode_pack]
    simp [decodeFields, checked]

/-- The transaction that an answer of the decoder names, if any, is laid out in these fields. -/
def EncodesBack (op sub : BitVec 4) (dt : Byte) (a d : BitVec 16) (x : Except DecodeError Instr) : Prop :=
  ∀ i, x = .ok i → encode i = pack op sub dt a d

theorem encodesBack_checked {op sub : BitVec 4} {dt : Byte} {a d : BitVec 16} {subOk fieldsZero : Bool} {i : Instr}
    (h : subOk = true → fieldsZero = true → encode i = pack op sub dt a d) :
    EncodesBack op sub dt a d (checked subOk fieldsZero i) := by
  intro j hj
  obtain ⟨hsub, hzero, rfl⟩ := checked_eq_ok_iff.1 hj
  exact h hsub hzero

theorem encodesBack_error {op sub : BitVec 4} {dt : Byte} {a d : BitVec 16} {e : DecodeError} :
    EncodesBack op sub dt a d (.error e) := nofun

/-- Branch by branch of the decoder: the fields a format does not carry are zero, so the encoding restores them. -/
theorem decodeFields_encodesBack (op sub : BitVec 4) (dt : Byte) (a d : BitVec 16) :
    EncodesBack op sub dt a d (decodeFields op sub dt a d) := by
  unfold decodeFields
  refine
    iteInduction (fun hop => encodesBack_checked fun hsub hzero => ?memRd) fun _ =>
    iteInduction (fun hop => encodesBack_checked fun hsub hzero => ?memWr) fun _ =>
    iteInduction (fun hop => encodesBack_checked fun hsub hzero => ?memPeek) fun _ =>
    iteInduction (fun hop => encodesBack_checked fun hsub hzero => ?ioRd) fun _ =>
    iteInduction (fun hop => encodesBack_checked fun hsub hzero => ?ioWr) fun _ =>
    iteInduction (fun hop => encodesBack_checked fun hsub hzero => ?tick) fun _ =>
    iteInduction (fun hop => encodesBack_checked fun hsub hzero => ?intQuery) fun _ =>
    iteInduction (fun hop => encodesBack_checked fun hsub hzero => ?intAck) fun _ =>
    iteInduction (fun hop => encodesBack_checked fun hsub hzero => ?intFin) fun _ =>
    iteInduction (fun hop =>
      iteInduction (fun hsub => encodesBack_checked fun _ hzero => ?resetPowerOn) fun _ =>
      iteInduction (fun hsub => encodesBack_checked fun _ hzero => ?resetCold) fun _ =>
      iteInduction (fun hsub => encodesBack_checked fun _ hzero => ?resetWarm) fun _ => encodesBack_error) fun _ =>
    iteInduction (fun hop => encodesBack_checked fun hsub hzero => ?speed) fun _ =>
    iteInduction (fun hop => encodesBack_checked fun hsub hzero => ?vidPix) fun _ =>
    iteInduction (fun hop => encodesBack_checked fun hsub hzero => ?vidBorder) fun _ =>
    iteInduction (fun hop =>
      iteInduction (fun hsub => encodesBack_checked fun _ hzero => ?keySet) fun _ =>
      iteInduction (fun hsub => encodesBack_checked fun _ hzero => ?keyRelease) fun _ =>
      iteInduction (fun hsub => encodesBack_checked fun _ hzero => ?joySet) fun _ => encodesBack_error) fun _ =>
    encodesBack_error
  all_goals simp only [Bool.or_eq_true, Bool.and_eq_true, decide_eq_true_eq] at hsub hzero
  case memRd | memPeek => simp only [encode, fetchSub_decide hsub, hop, hzero]
  case memWr | ioWr => simp only [encode, setWidth_dataOf hzero, hop, hsub]
  case keySet | joySet => simp only [encode, setWidth_dataOf hzero.2, hop, hsub, hzero]
  case tick | speed | vidBorder => simp only [encode, nHigh_nOf, nLow_nOf, hop, hsub, hzero]
  case ioRd | vidPix | intQuery | intAck | intFin | resetPowerOn | resetCold | resetWarm | keyRelease =>
    simp only [encode, hop, hsub, hzero]

/-- Settles O3: the decoder's fields are the encoding's, and a word is its fields. -/
theorem encodeOfDecode : Obligations.EncodeOfDecode := fun w i h =>
  (decodeFields_encodesBack _ _ _ _ _ i h).trans (pack_fields w)

theorem decode_eq_ok_iff {w : Request} {i : Instr} : decode w = .ok i ↔ encode i = w :=
  ⟨encodeOfDecode w i, fun h => h ▸ decodeOfEncode i⟩

theorem encode_eq_and_decode {i : Instr} {w : Request} (h : encode i = w) : encode i = w ∧ decode w = .ok i :=
  ⟨h, decode_eq_ok_iff.2 h⟩

/-- Settles O1: the encodings computed, the decodes from them. -/
theorem workedEncodings : Obligations.WorkedEncodings :=
  ⟨encode_eq_and_decode (by decide), encode_eq_and_decode (by decide), encode_eq_and_decode (by decide),
    encode_eq_and_decode (by decide), encode_eq_and_decode (by decide), encode_eq_and_decode (by decide)⟩

/-! ### The opcode table (R75) -/

theorem inTable_iff {w : Request} : inTable w = true ↔ ∃ r ∈ tableRows, w &&& tableMask r = tableMatch r := by
  simp only [inTable, List.any_eq_true, decide_eq_true_eq]

theorem encode_and_tableMask (i : Instr) : encode i &&& tableMask i = tableMatch i := by
  cases i with
  | memRd => exact Laws.TableRow.memRd ..
  | memWr => exact Laws.TableRow.memWr ..
  | memPeek => exact Laws.TableRow.memPeek ..
  | ioRd => exact Laws.TableRow.ioRd ..
  | ioWr => exact Laws.TableRow.ioWr ..
  | tick => exact Laws.TableRow.tick ..
  | speed => exact Laws.TableRow.speed ..
  | vidPix => exact Laws.TableRow.vidPix ..
  | vidBorder => exact Laws.TableRow.vidBorder ..
  | keySet => exact Laws.TableRow.keySet ..
  | joySet => exact Laws.TableRow.joySet ..
  | intQuery | intAck | intFin | resetPowerOn | resetCold | resetWarm | keyRelease => decide

/-- The mask and the match do not read the operands, so each transaction has its row. -/
theorem exists_tableRow (i : Instr) : ∃ r ∈ tableRows, tableMask r = tableMask i ∧ tableMatch r = tableMatch i := by
  have h : (tableRows.any fun r => decide (tableMask r = tableMask i ∧ tableMatch r = tableMatch i)) = true := by
    cases i <;> rfl
  simpa only [List.any_eq_true, decide_eq_true_eq] using h

theorem inTable_encode (i : Instr) : inTable (encode i) = true := by
  obtain ⟨r, hr, hmask, hmatch⟩ := exists_tableRow i
  exact inTable_iff.2 ⟨r, hr, by rw [hmask, hmatch, encode_and_tableMask]⟩

/-- A match under a mask that holds the whole `OP` field, read field by field. -/
theorem fields_of_masked {op sub : BitVec 4} {dt : Byte} {a d : BitVec 16} (op' sub' subMask : BitVec 4)
    (dtMask : Byte) (aMask dMask : BitVec 16)
    (h : pack op sub dt a d &&& pack (.allOnes 4) subMask dtMask aMask dMask = pack op' sub' 0 0 0) :
    op = op' ∧ sub &&& subMask = sub' ∧ dt &&& dtMask = 0 ∧ a &&& aMask = 0 ∧ d &&& dMask = 0 := by
  rw [pack_and, BitVec.and_allOnes] at h
  refine ⟨?_, ?_, ?_, ?_, ?_⟩
  · simpa only [opOf_pack] using congrArg opOf h
  · simpa only [subOf_pack] using congrArg subOf h
  · simpa only [dtOf_pack] using congrArg dtOf h
  · simpa only [aOf_pack] using congrArg aOf h
  · simpa only [dOf_pack] using congrArg dOf h

theorem sub_of_masked {sub : BitVec 4} (h : sub &&& 0xE = 0) : sub = 0 ∨ sub = 1 := by
  revert sub
  decide

/-- A `D` field that is zero under `0xFF00` is its data byte. -/
theorem setWidth_dataOf_of_masked {d : BitVec 16} (h : d &&& 0xFF00 = 0) : (dataOf d).setWidth 16 = d := by
  refine setWidth_dataOf ?_
  calc dataHigh d = dataHigh d &&& dataHigh 0xFF00 := BitVec.and_allOnes.symm
    _ = dataHigh (d &&& 0xFF00) := BitVec.extractLsb'_and.symm
    _ = 0 := congrArg dataHigh h

/-- Format W (MEM_WR, IO_WR). -/
theorem exists_encode_of_masked_W {op op' sub : BitVec 4} {dt : Byte} {a d : BitVec 16}
    {mk : Byte → Addr → Byte → Instr}
    (hmk : ∀ dt a v, encode (mk dt a v) = pack op' 0 dt a (v.setWidth 16))
    (h : pack op sub dt a d &&& pack (.allOnes 4) (.allOnes 4) 0 0 0xFF00 = pack op' 0 0 0 0) :
    ∃ i, encode i = pack op sub dt a d := by
  obtain ⟨rfl, hsub, -, -, hd⟩ := fields_of_masked _ _ _ _ _ _ h
  rw [BitVec.and_allOnes] at hsub
  exact ⟨mk dt a (dataOf d), by rw [hmk, hsub, setWidth_dataOf_of_masked hd]⟩

/-- Formats N and B (TICK, SPEED, VID_BORDER). -/
theorem exists_encode_of_masked_N {op op' sub : BitVec 4} {dt : Byte} {a d : BitVec 16} {mk : BitVec 32 → Instr}
    (hmk : ∀ n, encode (mk n) = pack op' 0 0 (nHigh n) (nLow n))
    (h : pack op sub dt a d &&& pack (.allOnes 4) (.allOnes 4) (.allOnes 8) 0 0 = pack op' 0 0 0 0) :
    ∃ i, encode i = pack op sub dt a d := by
  obtain ⟨rfl, hsub, hdt, -, -⟩ := fields_of_masked _ _ _ _ _ _ h
  rw [BitVec.and_allOnes] at hsub hdt
  exact ⟨mk (nOf a d), by rw [hmk, nHigh_nOf, nLow_nOf, hsub, hdt]⟩

/-- A row whose mask holds every bit has one word. -/
theorem encode_of_full_mask {r : Instr} {w : Request} (hr : tableMask r = .allOnes 48)
    (h : w &&& tableMask r = tableMatch r) : encode r = w := by
  have henc := encode_and_tableMask r
  rw [hr, BitVec.and_allOnes] at henc h
  exact henc.trans h.symm

/-- A word of a row is the encoding of the transaction whose operands stand in the bits outside the mask. -/
theorem exists_encode_of_masked {r : Instr} {op sub : BitVec 4} {dt : Byte} {a d : BitVec 16}
    (h : pack op sub dt a d &&& tableMask r = tableMatch r) : ∃ i, encode i = pack op sub dt a d := by
  cases r with
  | memRd =>
    obtain ⟨rfl, hsub, -, -, hd⟩ := fields_of_masked 0x1 0 0xE 0 0 (.allOnes 16) h
    rw [BitVec.and_allOnes] at hd
    exact ⟨.memRd (decide (sub = 1)) dt a, by rw [encode, fetchSub_decide (sub_of_masked hsub), hd]⟩
  | memPeek =>
    obtain ⟨rfl, hsub, hdt, -, hd⟩ := fields_of_masked 0x3 0 0xE (.allOnes 8) 0 (.allOnes 16) h
    rw [BitVec.and_allOnes] at hdt hd
    exact ⟨.memPeek (decide (sub = 1)) a, by rw [encode, fetchSub_decide (sub_of_masked hsub), hdt, hd]⟩
  | memWr => exact exists_encode_of_masked_W (mk := .memWr) (fun _ _ _ => rfl) h
  | ioWr => exact exists_encode_of_masked_W (mk := .ioWr) (fun _ _ _ => rfl) h
  | tick => exact exists_encode_of_masked_N (mk := .tick) (fun _ => rfl) h
  | speed => exact exists_encode_of_masked_N (mk := .speed) (fun _ => rfl) h
  | vidBorder => exact exists_encode_of_masked_N (mk := .vidBorder) (fun _ => rfl) h
  | ioRd =>
    obtain ⟨rfl, hsub, -, -, hd⟩ := fields_of_masked 0x4 0 (.allOnes 4) 0 0 (.allOnes 16) h
    rw [BitVec.and_allOnes] at hsub hd
    exact ⟨.ioRd dt a, by rw [encode, hsub, hd]⟩
  | vidPix =>
    obtain ⟨rfl, hsub, hdt, -, -⟩ := fields_of_masked 0xC 0 (.allOnes 4) (.allOnes 8) 0 0 h
    rw [BitVec.and_allOnes] at hsub hdt
    exact ⟨.vidPix a d, by rw [encode, hsub, hdt]⟩
  | keySet =>
    obtain ⟨rfl, hsub, hdt, -, hd⟩ := fields_of_masked 0xE 0 (.allOnes 4) (.allOnes 8) 0 0xFF00 h
    rw [BitVec.and_allOnes] at hsub hdt
    exact ⟨.keySet a (dataOf d), by rw [encode, hsub, hdt, setWidth_dataOf_of_masked hd]⟩
  | joySet =>
    obtain ⟨rfl, hsub, hdt, ha, hd⟩ := fields_of_masked 0xE 2 (.allOnes 4) (.allOnes 8) (.allOnes 16) 0xFF00 h
    rw [BitVec.and_allOnes] at hsub hdt ha
    exact ⟨.joySet (dataOf d), by rw [encode, hsub, hdt, ha, setWidth_dataOf_of_masked hd]⟩
  | intQuery | intAck | intFin | resetPowerOn | resetCold | resetWarm | keyRelease =>
    exact ⟨_, encode_of_full_mask rfl h⟩

/-- Settles O4: the words that decode are the encodings, and the encodings are the rows' instances. -/
theorem decodesExactlyTheTable : Obligations.DecodesExactlyTheTable := by
  intro w
  simp only [decode_eq_ok_iff]
  constructor
  · rintro ⟨i, rfl⟩
    exact inTable_encode i
  · intro h
    obtain ⟨r, -, hr⟩ := inTable_iff.1 h
    rw [← pack_fields w] at hr ⊢
    exact exists_encode_of_masked hr

/-! ### The reserved words (R76, R123) -/

/-- The name a word is refused by for its `OP` or its `SUB`: that of any decode error but a nonzero field. -/
def reservedName : Except DecodeError Instr → Option DecodeError
  | .ok _ | .error .nonZeroField => none
  | .error e => some e

theorem reservedName_eq_some_iff {x : Except DecodeError Instr} {e : DecodeError} (he : e ≠ .nonZeroField) :
    reservedName x = some e ↔ x = .error e := by
  rcases x with (_ | _ | _ | _) | i <;> simp [reservedName, he.symm]

theorem reservedName_checked (subOk fieldsZero : Bool) (i : Instr) :
    reservedName (checked subOk fieldsZero i) = if subOk then none else some .reservedSub := by
  cases subOk <;> cases fieldsZero <;> rfl

/-- The other fields have no part in the name. -/
theorem reservedName_decodeFields (op sub : BitVec 4) (dt : Byte) (a d : BitVec 16) :
    reservedName (decodeFields op sub dt a d) = reservedName (decodeFields op sub 0 0 0) := by
  simp only [decodeFields, apply_ite reservedName, reservedName_checked]

theorem decode_eq_error_iff {w : Request} {e : DecodeError} (he : e ≠ .nonZeroField) :
    decode w = .error e ↔ reservedName (decodeFields (opOf w) (subOf w) 0 0 0) = some e := by
  rw [← reservedName_eq_some_iff he, decode, reservedName_decodeFields]

/-- Settles O5: the name is a function of `OP` and `SUB`, which are 256 pairs. -/
theorem reservedWordsAreRefusedByName : Obligations.ReservedWordsAreRefusedByName := by
  intro w
  rw [decode_eq_error_iff (e := .reservedOp) nofun, decode_eq_error_iff (e := .invalidResetLevel) nofun,
    decode_eq_error_iff (e := .reservedSub) nofun]
  generalize opOf w = op, subOf w = sub
  revert op sub
  decide

end Sys2Proof

namespace Sys2Proof.Machine

open Sys2Proof

/-! ### The response word (R72, R73) -/

theorem responseWord_data (r : Response) : (responseWord r).extractLsb' 0 8 = r.data :=
  BitVec.extractLsb'_append_eq_right

theorem responseWord_wait (r : Response) : (responseWord r).extractLsb' 8 8 = r.wait := by
  rw [responseWord, BitVec.extractLsb'_append_eq_of_le (by decide), BitVec.extractLsb'_append_eq_right]

theorem responseWord_irq (r : Response) : (responseWord r).getLsbD 16 = r.irq := by
  simp only [responseWord, BitVec.getLsbD_append]
  simp

theorem responseWord_zeros (r : Response) : (responseWord r).extractLsb' 17 15 = 0 := by
  rw [responseWord, BitVec.extractLsb'_append_eq_of_le (by decide), BitVec.extractLsb'_append_eq_of_le (by decide)]
  exact BitVec.extractLsb'_append_eq_left

/-- Settles O47: answering writes the request level of the state it answers from, which the response does not change. -/
theorem responseWordCarriesTheRequestLevel : Obligations.ResponseWordCarriesTheRequestLevel := by
  intro i s t ht
  obtain ⟨u, data, wait, -, -, hr⟩ := exec_next_effect ht
  obtain rfl := respond_eq_next_iff.1 hr
  exact ⟨_, rfl, responseWord_data _, responseWord_wait _, responseWord_irq _, responseWord_zeros _⟩

/-! ### Words that are no request, and no word at all (R76, R123) -/

theorem transact_of_decode_error {w : Request} {e : DecodeError} (h : decode w = .error e) (s : State) :
    transact w s = .refused (refusalOf e) := by
  rw [transact, h]

theorem step_of_no_request {s : State} (h : s.requests = []) : step s = .next s := by
  rw [step, takeRequest, h]

/-- Settles O7: a step performs the first word, and one that does not decode is refused. -/
theorem stepRefusesABadWordAndIdlesOnNone : Obligations.StepRefusesABadWordAndIdlesOnNone := fun _ =>
  ⟨fun _ _ _ hq hw => (step_of_requests hq).trans (transact_of_decode_error hw _), step_of_no_request⟩

end Sys2Proof.Machine

/-! The memory bus (R81 to R83): the words of MEM_RD, MEM_PEEK and MEM_WR, and what each transaction answers. -/

namespace Sys2Proof

/-! ### Decoding from the fields of a word (R70, R71) -/

/-- A word whose five fields are those a transaction is laid out in decodes to it. -/
theorem decode_eq_ok_of_fields {w : Request} {i : Instr}
    (h : encode i = pack (opOf w) (subOf w) (dtOf w) (aOf w) (dOf w)) : decode w = .ok i :=
  decode_eq_ok_iff.2 (h.trans (pack_fields w))

/-- A `SUB` of format M is its bit 0. -/
theorem fetchSub_getLsbD_zero {sub : BitVec 4} (h : sub.toNat ≤ 1) : fetchSub (sub.getLsbD 0) = sub := by
  revert sub
  decide

end Sys2Proof

namespace Sys2Proof.Machine

open Sys2Proof

/-! ### What the memory bus answers (R81 to R83) -/

/-- R128: the request level reads the latch and the chips, which no store holds. -/
@[simp] theorem irqLevel_memWrite (s : State) (addr : Addr) (v : Byte) : irqLevel (memWrite s addr v) = irqLevel s :=
  irqLevel_congr (memWrite_cfg ..) (memWrite_latch ..) (memWrite_chips ..)

theorem exec_memRd (isFetch : Bool) (dt : Byte) (addr : Addr) (s : State) :
    exec (.memRd isFetch dt addr) s = respond s (memRead s addr) (memWait s addr isFetch dt) := rfl

theorem exec_memPeek (isFetch : Bool) (addr : Addr) (s : State) :
    exec (.memPeek isFetch addr) s = respond s (memRead s addr) 0 := rfl

theorem exec_memWr (dt : Byte) (addr : Addr) (data : Byte) (s : State) :
    exec (.memWr dt addr data) s = respond (memWrite s addr data) 0x00 (memWait s addr false dt) := rfl

/-- Settles O19: the fields of the word are those of MEM_RD's encoding; the transaction answers from the state itself. -/
theorem memRdCompletes : Obligations.MemRdCompletes := by
  constructor
  · intro w hop hsub hd
    exact decode_eq_ok_of_fields (by rw [encode, fetchSub_getLsbD_zero hsub, hop, hd])
  · intro s isFetch dt addr
    exact (exec_memRd ..).trans (respond_eq_next_iff.2 rfl)

/-- Settles O20: MEM_RD and MEM_PEEK answer from the same state with the same byte, which no `isFetch` reaches. -/
theorem memPeekReadsWhatMemRdReads : Obligations.MemPeekReadsWhatMemRdReads := by
  constructor
  · intro w hop hsub hdt hd
    exact decode_eq_ok_of_fields (by rw [encode, fetchSub_getLsbD_zero hsub, hop, hdt, hd])
  · intro s isFetch fetchOfRead dt addr
    have hread := (exec_memRd fetchOfRead dt addr s).trans (respond_eq_next_iff.2 rfl)
    have hpeek := (exec_memPeek isFetch addr s).trans (respond_eq_next_iff.2 rfl)
    exact ⟨_, _, hread, rfl, rfl, hpeek⟩

/-- Settles O21: MEM_WR answers from the state with the byte stored, whose request level is that of the state before. -/
theorem memWrCompletes : Obligations.MemWrCompletes := by
  constructor
  · intro w hop hsub hd
    have hbyte : ((dOf w).setWidth 8).setWidth 16 = dOf w := BitVec.setWidth_setWidth_eq_self hd
    exact decode_eq_ok_of_fields (by rw [encode, hbyte, hop, hsub])
  · intro s dt addr data
    refine (exec_memWr ..).trans (respond_eq_next_iff.2 ?_)
    rw [irqLevel_memWrite]
    rfl

end Sys2Proof.Machine

/-! The I/O bus (R86 to R93): the words of IO_RD and IO_WR, what each handler answers and changes, and the bank-control
layout of R88. -/

namespace Sys2Proof

/-! ### The default bank-control layout (R88) -/

/-- Bit `i` of a number given by its bits is the value of expression `i`, and past the last expression `false`. -/
theorem testBit_evalBits {α : Type} (ρ : α → Bool) (es : List (BitExpr α)) (i : Nat) :
    (evalBits ρ es).testBit i = ((es[i]?).map (BitExpr.eval ρ)).getD false := by
  induction es generalizing i with
  | nil => simp [evalBits]
  | cons e es ih =>
    have hbit : evalBits ρ (e :: es) = Nat.bit (e.eval ρ) (evalBits ρ es) := by
      cases h : e.eval ρ <;> simp [evalBits, h, Nat.bit, Nat.add_comm]
    rw [hbit]
    cases i with
    | zero => exact Nat.testBit_bit_zero ..
    | succ i => exact (Nat.testBit_bit_succ ..).trans (ih i)

/-- The page of the default layout is the high half of the byte written. -/
theorem evalBits_defaultLayout_page (v : Byte) (b : Bank) :
    BitVec.ofNat 4 (evalBits (Cfg.bankAtom v b) Config.defaultLayout.page) = v.extractLsb' 4 4 := by
  refine BitVec.eq_of_getLsbD_eq fun i hi => ?_
  simp only [BitVec.getLsbD_ofNat, BitVec.getLsbD_extractLsb', testBit_evalBits, hi, decide_true, Bool.true_and]
  match i, hi with
  | 0, _ | 1, _ | 2, _ | 3, _ => rfl

theorem Cfg.bankctlDecode_defaultLayout {cfg : Cfg} (h : cfg.bankctl = [(0, Config.defaultLayout)]) (v : Byte)
    (b : Bank) : cfg.bankctlDecode 0 v b =
      { lowerRam := v.getLsbD 0, overlay := v.getLsbD 1, extWin := v.getLsbD 2, negA15 := v.getLsbD 3
        page := v.extractLsb' 4 4 } := by
  rw [← evalBits_defaultLayout_page v b, bankctlDecode, h]
  rfl

theorem Cfg.bankctlDecode_of_other {cfg : Cfg} {l : BankLayout} {j k : Nat} (h : cfg.bankctl = [(k, l)]) (hj : j ≠ k)
    (v : Byte) (b : Bank) : cfg.bankctlDecode j v b = b := by
  rw [bankctlDecode, h, findKey, if_neg hj.symm, findKey]

end Sys2Proof

namespace Sys2Proof.Machine

open Sys2Proof

/-! ### The operands and the two transactions (R74, R86, R87) -/

theorem portOf_eq_setWidth (portAddr : Addr) : portOf portAddr = portAddr.setWidth 8 :=
  (BitVec.setWidth_eq_extractLsb' (by decide)).symm

theorem exec_ioRd (dt : Byte) (portAddr : Addr) (s : State) :
    exec (.ioRd dt portAddr) s =
      respond (portRead s (portAddr.setWidth 8)).2 (portRead s (portAddr.setWidth 8)).1
        (portWait s (portAddr.setWidth 8) dt) := by
  rw [← portOf_eq_setWidth]
  rfl

theorem exec_ioWr (dt : Byte) (portAddr : Addr) (v : Byte) (s : State) :
    exec (.ioWr dt portAddr v) s =
      respond (portWrite s (portAddr.setWidth 8) v) 0x00 (portWait s (portAddr.setWidth 8) dt) := by
  rw [← portOf_eq_setWidth]
  rfl

/-! ### A port read and a port write, by the port's handler (R86 to R93) -/

section
variable {s : State} {port : Byte}

theorem portRead_of_periph {c : ChipId} {k : Nat} (h : s.cfg.handler port = .periph c k) :
    portRead s port = chipRead s c k := by
  rw [portRead, h]

/-- R89: a bank-control or border port answers with a draw, not with its register. -/
theorem portRead_eq_readBack (h : (∃ j, s.cfg.handler port = .bankctl j) ∨ s.cfg.handler port = .border) :
    portRead s port = readBack s port := by
  obtain ⟨j, h⟩ | h := h <;> rw [portRead, h]

theorem portRead_of_joystick (h : s.cfg.handler port = .joystick) : portRead s port = (s.joy, s) := by
  rw [portRead, h]

theorem portRead_of_keyboard {k : Nat} (h : s.cfg.handler port = .keyboard k) :
    portRead s port = (s.cfg.readKeyboard k s.matrix, s) := by
  rw [portRead, h]

theorem portRead_of_unmapped (h : s.cfg.handler port = .unmapped) : portRead s port = (0xFF, s) := by
  rw [portRead, h]

theorem portWrite_of_periph {c : ChipId} {k : Nat} (h : s.cfg.handler port = .periph c k) (v : Byte) :
    portWrite s port v = chipWrite s c k v := by
  rw [portWrite, h]

theorem portWrite_of_border (h : s.cfg.handler port = .border) (v : Byte) :
    portWrite s port v = { s with border := v } := by
  rw [portWrite, h]

/-- R87: writes to an unmapped, joystick or keyboard port are ignored. -/
theorem portWrite_eq_self
    (h : s.cfg.handler port = .unmapped ∨ s.cfg.handler port = .joystick ∨ ∃ k, s.cfg.handler port = .keyboard k)
    (v : Byte) : portWrite s port v = s := by
  obtain h | h | ⟨k, h⟩ := h <;> rw [portWrite, h]

end

/-! ### The chip that is replaced and every other (R93) -/

theorem chipState_setChip_same {chips : List (ChipId × ChipState)} {c : ChipId} (h : c ∈ chips.map Prod.fst)
    (st : ChipState) : chipState (setChip chips c st) c = st := by
  rw [chipState_setChip, if_pos ⟨rfl, h⟩]

theorem chipState_setChip_other {c d : ChipId} (h : d ≠ c) (chips : List (ChipId × ChipState)) (st : ChipState) :
    chipState (setChip chips c st) d = chipState chips d := by
  rw [chipState_setChip, if_neg fun hd => h hd.1]

/-! ### What the I/O bus answers (R86 to R88) -/

/-- Settles O26: IO_RD answers from the state and with the byte of the port read, which the handler gives. -/
theorem ioRdAnswersByHandler : Obligations.IoRdAnswersByHandler := by
  constructor
  · intro w hop hsub hd
    exact decode_eq_ok_of_fields (by rw [encode, hop, hsub, hd])
  · intro s dt portAddr
    refine ⟨_, _, (exec_ioRd ..).trans (respond_eq_next_iff.2 rfl), rfl, rfl, rfl, ?_⟩
    cases hp : s.cfg.handler (portAddr.setWidth 8) with
    | periph c k =>
      obtain ⟨hall, hnone⟩ := chipSnapshot_eq s
      rw [portRead_of_periph hp]
      exact ⟨fun h => by rw [← hall h]; rfl, fun h => by rw [← hnone h]; rfl, rfl,
        fun hc => chipState_setChip_same hc _, fun d hd => chipState_setChip_other hd _ _⟩
    | bankctl j =>
      rw [portRead_eq_readBack (.inl ⟨j, hp⟩)]
      exact ⟨rfl, rfl⟩
    | border =>
      rw [portRead_eq_readBack (.inr hp)]
      exact ⟨rfl, rfl⟩
    | joystick =>
      rw [portRead_of_joystick hp]
      exact ⟨rfl, rfl⟩
    | keyboard k =>
      rw [portRead_of_keyboard hp]
      exact ⟨rfl, rfl⟩
    | unmapped =>
      rw [portRead_of_unmapped hp]
      exact ⟨rfl, rfl⟩

/-- Settles O27: IO_WR answers `0x00` from the state after the port write, which the handler gives. -/
theorem ioWrActsByHandler : Obligations.IoWrActsByHandler := by
  constructor
  · intro w hop hsub hd
    have hbyte : ((dOf w).setWidth 8).setWidth 16 = dOf w := BitVec.setWidth_setWidth_eq_self hd
    exact decode_eq_ok_of_fields (by rw [encode, hbyte, hop, hsub])
  · intro s dt portAddr v
    refine ⟨_, _, (exec_ioWr ..).trans (respond_eq_next_iff.2 rfl), rfl, rfl, rfl, rfl, ?_⟩
    cases hp : s.cfg.handler (portAddr.setWidth 8) with
    | periph c k =>
      rw [portWrite_of_periph hp]
      exact ⟨rfl, fun hc => chipState_setChip_same hc _, fun d hd => chipState_setChip_other hd _ _⟩
    | bankctl j => rw [portWrite_of_bankctl hp]
    | border => rw [portWrite_of_border hp]
    | joystick => rw [portWrite_eq_self (.inr (.inl hp))]
    | keyboard k => rw [portWrite_eq_self (.inr (.inr ⟨k, hp⟩))]
    | unmapped => rw [portWrite_eq_self (.inl hp)]

/-- Settles O29: the write leaves the bank that the layout decodes, and the default layout lists register 0 alone. -/
theorem bankControlWriteSetsTheBank : Obligations.BankControlWriteSetsTheBank := by
  intro s dt portAddr v j hp
  have hbank : (portWrite s (portAddr.setWidth 8) v).bank = s.cfg.bankctlDecode j v s.bank := by
    rw [portWrite_of_bankctl hp]
  refine ⟨_, (exec_ioWr ..).trans (respond_eq_next_iff.2 rfl), hbank, fun hlayout => ⟨?_, fun hj => ?_⟩⟩
  · rintro rfl
    exact hbank.trans (Cfg.bankctlDecode_defaultLayout hlayout v s.bank)
  · exact hbank.trans (Cfg.bankctlDecode_of_other hlayout hj v s.bank)

end Sys2Proof.Machine

/-! Wait states (R94 to R100): the wait count in closed form, and the wait count that each transaction reports. -/

namespace Sys2Proof.Machine

open Sys2Proof

/-! ### The wait-state function (R94 to R97) -/

/-- R33: the visible band as a range of lines. -/
theorem inBand_iff {cfg : Cfg} {line : Nat} :
    cfg.inBand line = true ↔ cfg.firstVisible ≤ line ∧ line < cfg.firstVisible + cfg.fbH := by
  simp [Cfg.inBand, inRange]

/-- R94, R95 with R14's rounding written out. -/
theorem contentionPhase_eq (cfg : Cfg) (acc cpl : Nat) (dt : Byte) :
    contentionPhase cfg acc cpl dt = (2 * (acc + dt.toNat + cfg.contOffset) * cfg.lwc + cpl) / (2 * cpl) := by
  rw [contentionPhase, roundDiv, Nat.mul_assoc]

/-- R96: what a contended access on line `line` at phase `ph` needs to wait: the band and the window. -/
def InWindow (cfg : Cfg) (line ph : Nat) : Prop :=
  (cfg.firstVisible ≤ line ∧ line < cfg.firstVisible + cfg.fbH) ∧ cfg.winStart ≤ ph ∧ ph < cfg.winEnd

section
variable {cfg : Cfg} {line acc cpl : Nat} {contended : Bool} {dt : Byte}

theorem waitCycles_of_inWindow (hc : contended = true) (h : InWindow cfg line (contentionPhase cfg acc cpl dt)) :
    waitCycles cfg line acc cpl contended dt = cfg.period - contentionPhase cfg acc cpl dt % cfg.period := by
  obtain ⟨hband, hwin⟩ := h
  rw [waitCycles, hc, inBand_iff.2 hband]
  exact if_pos hwin

theorem waitCycles_of_not_inWindow
    (h : ¬ (contended = true ∧ InWindow cfg line (contentionPhase cfg acc cpl dt))) :
    waitCycles cfg line acc cpl contended dt = 0 := by
  unfold waitCycles
  dsimp only
  split
  next hcb =>
    obtain ⟨hc, hb⟩ := Bool.and_eq_true_iff.1 hcb
    exact if_neg fun hwin => h ⟨hc, inBand_iff.1 hb, hwin⟩
  · rfl

end

/-- R97: `P - (ph mod P)` is at least 1, and is `P` exactly at a multiple of `P`. -/
theorem period_sub_mod {p : Nat} (hp : 1 ≤ p) (ph : Nat) : 1 ≤ p - ph % p ∧ (p - ph % p = p ↔ ph % p = 0) := by
  have hlt : ph % p < p := Nat.mod_lt ph hp
  omega

/-- Settles O24: in the window the value is that of R97, and elsewhere 0. -/
theorem waitIsZeroOrWithinThePeriod : Obligations.WaitIsZeroOrWithinThePeriod := by
  intro cfg line acc cpl contended dt hp _ pos ph w inside
  have hph : contentionPhase cfg acc cpl dt = ph := contentionPhase_eq ..
  have hin (h : inside) : w = cfg.period - ph % cfg.period := hph ▸ waitCycles_of_inWindow h.1 (hph ▸ h.2)
  have hout (h : ¬ inside) : w = 0 := waitCycles_of_not_inWindow (hph ▸ h)
  refine ⟨?_, fun h => ⟨hin h, hin h ▸ period_sub_mod hp ph⟩, hout⟩
  by_cases h : inside
  · exact (hin h).trans_le (Nat.sub_le ..)
  · exact (hout h).trans_le (Nat.zero_le _)

/-! ### The wait count in a response (R73, R100) -/

/-- R100: the wait count that a transaction reports where it completes. -/
def reportedWait (s : State) : Instr → Nat
  | .memRd isFetch dt addr => memWait s addr isFetch dt
  | .memWr dt addr _ => memWait s addr false dt
  | .ioRd dt portAddr => portWait s (portOf portAddr) dt
  | .ioWr dt portAddr _ => portWait s (portOf portAddr) dt
  | _ => 0

theorem reportedWait_le_period (s : State) (i : Instr) : reportedWait s i ≤ s.cfg.period := by
  cases i with
  | memRd | memWr | ioRd | ioWr => exact waitFor_le_period ..
  | _ => exact Nat.zero_le _

/-- A transaction that is refused under a condition and completes gives what it gives elsewhere. -/
theorem eq_next_of_guarded {c : Prop} [Decidable c] {e : Refusal} {x : Host.Outcome State Fault Refusal} {t : State}
    (h : (if c then .refused e else x) = Host.Outcome.next t) : x = .next t := by
  split at h
  · cases h
  · exact h

/-- R73, R100: a transaction that completes is some state answering with the wait count that is reported for it. -/
theorem exec_next_reportedWait {i : Instr} {s t : State} (h : exec i s = .next t) :
    ∃ u data, respond u data (reportedWait s i) = .next t := by
  cases i with
  | speed | vidPix | keySet => exact ⟨_, _, eq_next_of_guarded h⟩
  | intAck =>
    change execIntAck s = _ at h
    unfold execIntAck at h
    split at h
    · exact ⟨_, _, h⟩
    · exact ⟨_, _, h⟩
  | _ => exact ⟨_, _, h⟩

/-- Settles O25: the response holds the reported wait count, and one of at most 255 fits the eight bits. -/
theorem reportedWaitIsTheWaitFunction : Obligations.ReportedWaitIsTheWaitFunction := by
  intro i s t hperiod ht
  obtain ⟨u, data, hr⟩ := exec_next_reportedWait ht
  obtain rfl := respond_eq_next_iff.1 hr
  have hfits : reportedWait s i < 2 ^ 8 := by
    have := reportedWait_le_period s i
    omega
  exact ⟨_, rfl, Nat.mod_eq_of_lt hfits⟩

end Sys2Proof.Machine

/-! The raster (R102 to R111): TICK's state in closed form, the rule's own loop, the decoded row, the bank flags that
the raster does not see, the latch, and the words and answers of SPEED, VID_PIX and VID_BORDER. -/

namespace Sys2Proof

/-- A word whose `SUB` and `DT` are zero decodes to the format N or B transaction of its `OP`, with its low 32 bits as
the operand (R71). -/
theorem decode_of_fields_N {w : Request} {op : BitVec 4} {mk : BitVec 32 → Instr}
    (hmk : ∀ n, encode (mk n) = pack op 0 0 (nHigh n) (nLow n))
    (hop : opOf w = op) (hsub : subOf w = 0) (hdt : dtOf w = 0) : decode w = .ok (mk (w.extractLsb' 0 32)) :=
  decode_eq_ok_of_fields (by rw [hmk, ← nOf_fields, nHigh_nOf, nLow_nOf, hop, hsub, hdt])

end Sys2Proof

namespace Sys2Proof.Machine

open Sys2Proof

/-! ### TICK's state (R104) -/

theorem exec_tick (n : BitVec 32) (s : State) :
    exec (.tick n) s = respond (tickChips (advanceRaster s n.toNat) n.toNat) 0x00 0 := rfl

/-- R104: fewer cycles than are left of the line end no line. -/
theorem advanceRaster_of_lt {s : State} {n : Nat} (h : s.acc + n < s.cpl) :
    advanceRaster s n = { s with acc := s.acc + n } := by
  rw [advanceRaster_eq, Nat.div_eq_of_lt h, Nat.mod_eq_of_lt h, lineEnds]

/-- R127, law (b): a tick of 0 cycles leaves every chip. -/
theorem tickChips_zero (s : State) : tickChips s 0 = s := by
  have hid : (fun e : ChipId × ChipState => (e.1, chipTick e.1 0 e.2)) = id := rfl
  rw [tickChips, hid, List.map_id]

theorem advanceRaster_borderTab_getD (s : State) (n : Nat) (hl : s.line < s.cfg.totalLines)
    (hlen : s.borderTab.length = s.cfg.totalLines) (L : Nat) :
    (advanceRaster s n).borderTab.getD L 0 =
      if ∃ j, j < (s.acc + n) / s.cpl ∧ (s.line + j) % s.cfg.totalLines = L then s.border
      else s.borderTab.getD L 0 := by
  rw [advanceRaster_eq]
  exact lineEnds_borderTab _ s hl hlen L

/-- Settles O30: answering and the chips leave the raster where its loop has brought it. -/
theorem tickMovesTheCountersAndTheLatch : Obligations.TickMovesTheCountersAndTheLatch := by
  intro s n hcpl hl
  have hacc := advanceRaster_acc_eq s n.toNat
  have hlt : (advanceRaster s n.toNat).acc < (advanceRaster s n.toNat).cpl := by
    rw [hacc, advanceRaster_cpl]
    exact Nat.mod_lt _ hcpl
  exact ⟨_, (exec_tick ..).trans (respond_eq_next_iff.2 rfl), hacc, hlt, advanceRaster_line_eq s _ hl,
    advanceRaster_latch_eq s _ hl⟩

/-- Settles O31: the raster's advance changes its own fields, the ticks the chips, the answer the response; the frame is the
model's own lemma for each other field. -/
theorem tickFrame : Obligations.TickFrame := by
  intro s n
  refine ⟨_, _, (exec_tick ..).trans (respond_eq_next_iff.2 rfl), rfl, rfl, rfl, rfl, ?_, ?_⟩
  · rw [tickChips_chips, advanceRaster_chips]
  · simp

/-- Settles O32: the raster ends no line, and the chips are ticked by 0. -/
theorem tickZeroChangesNothing : Obligations.TickZeroChangesNothing := by
  intro s h
  have hraster : advanceRaster s 0 = s := advanceRaster_of_lt (n := 0) h
  have hstate : tickChips (advanceRaster s 0) 0 = s := (tickChips_zero _).trans hraster
  calc exec (.tick 0) s = respond (tickChips (advanceRaster s 0) 0) 0x00 0 := exec_tick 0 s
    _ = respond s 0x00 0 := by rw [hstate]

/-- Settles O35: TICK's table is that of its line boundaries. -/
theorem borderIsRecordedForEveryEndedLine : Obligations.BorderIsRecordedForEveryEndedLine := fun s n _ hl hlen =>
  ⟨_, (exec_tick ..).trans (respond_eq_next_iff.2 rfl), advanceRaster_borderTab_getD s n.toNat hl hlen⟩

/-! ### The rule's own loop (R104) -/

theorem lineEnds_succ (k : Nat) (s : State) : lineEnds (k + 1) s = lineEnd (lineEnds k s) := by
  induction k generalizing s with
  | zero => rfl
  | succ k ih => exact ih (lineEnd s)

theorem tickLoop_succ_of_le {k a : Nat} {s : State} (h : s.cpl ≤ a) :
    tickLoop (k + 1) { s with acc := a } = tickLoop k { lineEnd s with acc := a - s.cpl } :=
  (if_pos h).trans (congrArg (tickLoop k) (lineEnd_with_acc s _))

/-- As long as the accumulator holds `cpl` for each of `k` turns, they take it off `k` times and end `k` lines. -/
theorem tickLoop_eq_lineEnds {k a : Nat} {s : State} (h : k * s.cpl ≤ a) :
    tickLoop k { s with acc := a } = { lineEnds k s with acc := a - k * s.cpl } := by
  induction k generalizing s a with
  | zero => rw [tickLoop, lineEnds, Nat.zero_mul, Nat.sub_zero]
  | succ k ih =>
    rw [Nat.succ_mul] at h
    have hturn : s.cpl ≤ a := by omega
    have hrest : k * (lineEnd s).cpl ≤ a - s.cpl := by
      rw [lineEnd_cpl]
      omega
    have hleft : a - s.cpl - k * s.cpl = a - (k + 1) * s.cpl := by
      rw [Nat.succ_mul]
      omega
    rw [tickLoop_succ_of_le hturn, ih hrest, lineEnd_cpl, hleft, lineEnds]

/-- Settles O33: before turn `k` the loop has taken `k * cpl` off, so its turns are those of the division. -/
theorem tickIsTheRulesLoop : Obligations.TickIsTheRulesLoop := by
  refine ⟨fun w => decode_of_fields_N fun _ => rfl, ?_⟩
  intro s n hcpl entered turns
  have hturns : turns * s.cpl ≤ s.acc + n.toNat := Nat.div_mul_le_self ..
  have hend : tickLoop turns entered = advanceRaster s n.toNat := by
    rw [tickLoop_eq_lineEnds hturns, advanceRaster_eq, Nat.mod_eq_sub_div_mul]
  refine ⟨fun k hk => ?_, ?_, ?_⟩
  · have hnext : (k + 1) * s.cpl ≤ s.acc + n.toNat := (Nat.mul_le_mul_right _ hk).trans hturns
    have hthis : k * s.cpl + s.cpl ≤ s.acc + n.toNat := Nat.succ_mul k s.cpl ▸ hnext
    rw [tickLoop_eq_lineEnds (Nat.le_of_add_right_le hthis), tickLoop_eq_lineEnds hnext]
    have hcplk : (lineEnds k s).cpl = s.cpl := lineEnds_cpl k s
    have hacc : s.acc + n.toNat - (k + 1) * s.cpl = s.acc + n.toNat - k * s.cpl - (lineEnds k s).cpl := by
      rw [hcplk, Nat.succ_mul, Nat.sub_sub]
    have hleft : s.cpl ≤ s.acc + n.toNat - k * s.cpl := by omega
    refine ⟨hcplk.trans_le hleft, ?_⟩
    rw [hacc, lineEnds_succ]
    exact (lineEnd_with_acc (lineEnds k s) _).symm
  · rw [hend, advanceRaster_acc_eq, advanceRaster_cpl]
    exact Nat.mod_lt _ hcpl
  · rw [hend, exec_tick]

/-! ### A frame (R111(d)) -/

/-- In a whole frame of boundaries every line ends. -/
theorem exists_ended_line {T line L : Nat} (hline : line < T) (hL : L < T) : ∃ j, j < T ∧ (line + j) % T = L := by
  refine ⟨(L + (T - line)) % T, Nat.mod_lt _ (Nat.zero_lt_of_lt hL), ?_⟩
  rw [Nat.add_mod_mod, show line + (L + (T - line)) = L + T by omega, Nat.add_mod_right, Nat.mod_eq_of_lt hL]

/-- Settles O34: the frame's cycles are `TOTAL_LINES` boundaries, and fewer from its start are fewer boundaries. -/
theorem oneFrameIsTotalLinesTimesCpl : Obligations.OneFrameIsTotalLinesTimesCpl := by
  intro s n hcpl hl hacc hlen
  have hline := advanceRaster_line_eq s n.toNat hl
  have hlatch := advanceRaster_latch_eq s n.toNat hl
  refine ⟨_, (exec_tick ..).trans (respond_eq_next_iff.2 rfl), fun hn => ?_, fun hn hline0 hacc0 => ?_⟩
  · have hends : (s.acc + n.toNat) / s.cpl = s.cfg.totalLines := by
      rw [hn, Nat.add_mul_div_right _ _ hcpl, Nat.div_eq_of_lt hacc, Nat.zero_add]
    have hrest : (s.acc + n.toNat) % s.cpl = s.acc := by
      rw [hn, Nat.add_mul_mod_self_right, Nat.mod_eq_of_lt hacc]
    rw [hends] at hline hlatch
    refine ⟨hline.trans ?_, (advanceRaster_acc_eq ..).trans hrest, hlatch.trans ?_, fun L hL => ?_⟩
    · rw [Nat.add_mod_right, Nat.mod_eq_of_lt hl]
    · rw [decide_eq_true (Nat.le_add_left ..), Bool.or_true]
    · refine (advanceRaster_borderTab_getD s _ hl hlen L).trans (if_pos ?_)
      rw [hends]
      exact exists_ended_line hl hL
  · have hends : (s.acc + n.toNat) / s.cpl < s.cfg.totalLines := by
      rw [hacc0, Nat.zero_add]
      exact Nat.div_lt_of_lt_mul (Nat.mul_comm .. ▸ hn)
    refine hlatch.trans ?_
    rw [decide_eq_false (by omega), Bool.or_false]

/-! ### The blink phase (R106) -/

theorem advanceRaster_blink (s : State) (n : Nat) (hb : s.blinkCnt < s.cfg.blinkPeriod)
    (hl : s.line < s.cfg.totalLines) :
    (advanceRaster s n).blinkCnt =
      (s.blinkCnt + blinkBoundaries s ((s.acc + n) / s.cpl)) % s.cfg.blinkPeriod ∧
    (advanceRaster s n).blinkFlag = s.blinkFlag.xor
      (decide ((s.blinkCnt + blinkBoundaries s ((s.acc + n) / s.cpl)) / s.cfg.blinkPeriod % 2 = 1)) := by
  rw [advanceRaster_eq]
  exact lineEnds_blink _ s hb hl

/-- Settles O36: TICK's blink boundaries are those of its lines, in the configured unit. -/
theorem blinkPhaseCountsItsUnit : Obligations.BlinkPhaseCountsItsUnit := by
  intro s n _ hl hb lines boundaries
  have hunit : blinkBoundaries s lines = boundaries := by
    unfold blinkBoundaries boundaries
    cases s.cfg.blinkUnit <;> rfl
  rw [← hunit]
  exact ⟨_, (exec_tick ..).trans (respond_eq_next_iff.2 rfl), advanceRaster_blink s n.toNat hb hl⟩

/-! ### The decoded row (R105, R107, R108) -/

/-- A TICK that ends one line leaves the frame buffer that this boundary leaves. -/
theorem advanceRaster_fb_of_one {s : State} {n : Nat} (h : (s.acc + n) / s.cpl = 1) :
    (advanceRaster s n).fb = (lineEnd s).fb := by
  rw [advanceRaster_eq, h]
  rfl

theorem fbPixel_of_getD {s : State} {y : Nat} {row : List Byte} (h : s.fb.getD y none = some row) (x : Nat) :
    fbPixel s y x = row.getD x 0 := by
  rw [fbPixel, h]

/-- An entry reads the row it lies in and the draw of the frame buffer, and nothing else. -/
theorem fbPixel_congr {s t : State} {y : Nat} (hfb : t.fb.getD y none = s.fb.getD y none) (hdraw : t.fbDraw = s.fbDraw)
    (x : Nat) : fbPixel t y x = fbPixel s y x := by
  rw [fbPixel, fbPixel, hfb, hdraw]

theorem decodePixel_of_column (s : State) (y xb : Nat) {i : Nat} (hi : i < 8) :
    decodePixel s y (8 * xb + i) =
      if ((videoByte s (s.cfg.pixAddr.eval y xb)).getLsbD (7 - i)).xor
          (s.blinkFlag && s.cfg.blinkAttr (videoByte s (s.cfg.attrAddr.eval y xb))) = true
      then s.cfg.fgColour (videoByte s (s.cfg.attrAddr.eval y xb))
      else s.cfg.bgColour (videoByte s (s.cfg.attrAddr.eval y xb)) := by
  have hdiv : (8 * xb + i) / 8 = xb := by omega
  have hmod : (8 * xb + i) % 8 = i := by omega
  rw [decodePixel, hdiv, hmod]

/-- Settles O37: the one boundary writes the decoded row of a visible line, whole, and no other row. -/
theorem visibleLineIsDecodedAtItsBoundary : Obligations.VisibleLineIsDecodedAtItsBoundary := by
  intro s n _ hone hlen
  have hfb : (advanceRaster s n.toNat).fb = (lineEnd s).fb := advanceRaster_fb_of_one hone
  rw [lineEnd_fb] at hfb
  refine ⟨_, (exec_tick ..).trans (respond_eq_next_iff.2 rfl), fun hout => ?_, fun hfirst hlast => ?_⟩
  · exact hfb.trans (if_neg fun hband => hout (inBand_iff.1 hband))
  · rw [if_pos (inBand_iff.2 ⟨hfirst, hlast⟩)] at hfb
    refine ⟨fun xb i hxb hi => ?_, fun y x hy => ?_⟩
    · have hy : s.line - s.cfg.firstVisible < s.fb.length := by omega
      have hx : 8 * xb + i < s.cfg.fbW := by omega
      have hrow : (advanceRaster s n.toNat).fb.getD (s.line - s.cfg.firstVisible) none =
          some ((List.range s.cfg.fbW).map (decodePixel s (s.line - s.cfg.firstVisible))) := by
        simp [hfb, hy]
      refine (fbPixel_of_getD hrow _).trans ?_
      simp [hx, decodePixel_of_column s _ xb hi]
    · have hrow : (advanceRaster s n.toNat).fb.getD y none = s.fb.getD y none := by
        simp [hfb, List.getElem?_set_ne hy.symm]
      exact fbPixel_congr hrow (advanceRaster_fbDraw ..) x

/-! ### The bank flags (R107) -/

theorem recordLine_withBank (s : State) (b : Bank) :
    recordLine { s with bank := b } = { recordLine s with bank := b } := by
  unfold recordLine
  dsimp only
  split <;> rfl

theorem blinkStep_withBank (s : State) (b : Bank) :
    blinkStep { s with bank := b } = { blinkStep s with bank := b } := by
  unfold blinkStep
  dsimp only
  split <;> rfl

theorem lineBlink_withBank (s : State) (b : Bank) :
    lineBlink { s with bank := b } = { lineBlink s with bank := b } := by
  unfold lineBlink
  dsimp only
  split
  · exact blinkStep_withBank s b
  · rfl

theorem nextLine_withBank (s : State) (b : Bank) :
    nextLine { s with bank := b } = { nextLine s with bank := b } := by
  unfold nextLine
  dsimp only
  split
  · split
    · exact blinkStep_withBank { s with line := 0, latch := true } b
    · rfl
  · rfl

theorem lineEnds_withBank (k : Nat) (s : State) (b : Bank) :
    lineEnds k { s with bank := b } = { lineEnds k s with bank := b } := by
  induction k generalizing s with
  | zero => rfl
  | succ k ih => simp only [lineEnds, lineEnd, recordLine_withBank, lineBlink_withBank, nextLine_withBank, ih]

theorem advanceRaster_withBank (s : State) (b : Bank) (n : Nat) :
    advanceRaster { s with bank := b } n = { advanceRaster s n with bank := b } :=
  lineEnds_withBank _ { s with acc := (s.acc + n) % s.cpl } b

/-- Settles O38: the video store is read at its own offset, and no part of a boundary reads the bank. -/
theorem rasterIgnoresTheBankFlags : Obligations.RasterIgnoresTheBankFlags := by
  intro s t b n
  refine ⟨fun k hv => ?_, fun k base hv => ?_, fun ht => ?_⟩
  · rw [videoByte, hv, backRead]
  · rw [videoByte, hv, backRead]
  · obtain rfl := respond_eq_next_iff.1 ht
    rw [exec_tick, advanceRaster_withBank]
    rfl

/-! ### The latch (R111(b), R126) -/

theorem Effect.latch_rises {i : Instr} {s u : State} (hu : Effect s i u) (hl : s.line < s.cfg.totalLines)
    (hs : s.latch = false) (h : u.latch = true) :
    ∃ n, i = .tick n ∧ s.cfg.totalLines ≤ s.line + (s.acc + n.toNat) / s.cpl := by
  cases hu with
  | tick n =>
    rw [tickChips_latch, advanceRaster_latch_eq s _ hl, hs, Bool.false_or] at h
    exact ⟨n, rfl, of_decide_eq_true h⟩
  | intAck src => cases src <;> simp [acceptSource, hs] at h
  | _ => simp [hs] at h

theorem Effect.latch_falls {i : Instr} {s u : State} (hu : Effect s i u) (hl : s.line < s.cfg.totalLines)
    (hs : s.latch = true) (h : u.latch = false) :
    (i = .intAck ∧ select s = some .video) ∨ i = .resetPowerOn ∨ i = .resetCold := by
  cases hu with
  | intAck src hsel =>
    cases src with
    | video => exact .inl ⟨rfl, hsel⟩
    | chip c => simp [acceptSource, hs] at h
  | resetPowerOn | resetCold => simp
  | tick n => simp [advanceRaster_latch_eq s _ hl, hs] at h
  | _ => simp [hs] at h

/-- Settles O58: the effect moves the latch so, and answering does not move it. -/
theorem latchRisesAtTheWrapAndFallsAtAcceptance : Obligations.LatchRisesAtTheWrapAndFallsAtAcceptance := by
  intro i s t hl ht
  obtain ⟨u, data, wait, hu, -, hr⟩ := exec_next_effect ht
  obtain rfl := respond_eq_next_iff.1 hr
  exact ⟨hu.latch_rises hl, hu.latch_falls hl⟩

/-! ### SPEED, VID_PIX and VID_BORDER (R103, R109, R110) -/

/-- Settles O40: the test and the value are the clocks-per-line of R102. -/
theorem speedSetsTheClock : Obligations.SpeedSetsTheClock := by
  refine ⟨fun w => decode_of_fields_N fun _ => rfl, fun s khz => ?_⟩
  rw [← Cfg.cplOf_eq]
  exact ⟨fun hlow => if_pos hlow, fun hcpl => if_neg (Nat.not_lt.2 hcpl)⟩

/-- Settles O41: the coordinates are `A` and `D`, and the test is that of the frame buffer's size. -/
theorem vidPixReadsItsEntry : Obligations.VidPixReadsItsEntry := by
  refine ⟨fun w hop hsub hdt => decode_eq_ok_of_fields (by rw [encode, hop, hsub, hdt]), fun s x y => ?_⟩
  exact ⟨fun hout => if_pos hout, fun hx hy => if_neg (not_or.2 ⟨Nat.not_le.2 hx, Nat.not_le.2 hy⟩)⟩

theorem exec_vidBorder (line : BitVec 32) (s : State) :
    exec (.vidBorder line) s = respond s (s.borderTab.getD (borderIndex s.cfg line) 0) 0 := rfl

/-- Settles O42: VID_BORDER answers from the state itself, with the entry that the wrapped line names. -/
theorem vidBorderReadsTheWrappedEntry : Obligations.VidBorderReadsTheWrappedEntry :=
  ⟨fun _ => decode_of_fields_N fun _ => rfl, fun _ _ => (exec_vidBorder ..).trans (respond_eq_next_iff.2 rfl)⟩

/-- R111(c): a line inside a frame of at most `2^31` lines is not negative, so wrapping it again changes nothing. -/
theorem borderIndex_wrapped {cfg : Cfg} (hpos : 1 ≤ cfg.totalLines) (hmax : cfg.totalLines ≤ 2 ^ 31)
    (line : BitVec 32) :
    borderIndex cfg (BitVec.ofNat 32 (line.toInt.natAbs % cfg.totalLines)) = borderIndex cfg line := by
  have hlt : line.toInt.natAbs % cfg.totalLines < cfg.totalLines := Nat.mod_lt _ hpos
  have hint : (BitVec.ofNat 32 (line.toInt.natAbs % cfg.totalLines)).toInt =
      (line.toInt.natAbs % cfg.totalLines : Nat) :=
    (BitVec.toInt_ofNat' _).trans (Int.bmod_eq_of_le (by omega) (by omega))
  rw [borderIndex, hint, Int.natAbs_natCast, Nat.mod_mod, borderIndex]

/-- Settles O43: both queries answer from the same state with the same entry. -/
theorem borderWrapLaw : Obligations.BorderWrapLaw := by
  intro s line hpos hmax
  rw [exec_vidBorder, exec_vidBorder, borderIndex_wrapped hpos hmax]

end Sys2Proof.Machine

/-! The interrupt aggregator (R112 to R114, R124 to R134): what is pending, and what INT_QUERY, INT_ACK and INT_FIN answer
and change. -/

namespace Sys2Proof

/-- A key of a list without repeated keys has the value it is listed with. -/
theorem findKey_eq_some_of_mem {α β : Type} [DecidableEq α] {l : List (α × β)} (h : (l.map Prod.fst).Nodup) {a : α}
    {v : β} (hv : (a, v) ∈ l) : findKey l a = some v := by
  induction l with
  | nil => cases hv
  | cons e rest ih =>
    obtain ⟨hnew, hrest⟩ := List.nodup_cons.1 h
    obtain rfl | hv := List.mem_cons.1 hv
    · exact if_pos rfl
    · have hne : e.1 ≠ a := by
        rintro rfl
        exact hnew (List.mem_map.2 ⟨_, hv, rfl⟩)
      exact (if_neg hne).trans (ih hrest hv)

end Sys2Proof

namespace Sys2Proof.Machine

open Sys2Proof

/-! ### Pending sources and the request level (R124 to R129) -/

theorem chipState_of_mem {chips : List (ChipId × ChipState)} (h : (chips.map Prod.fst).Nodup) {c : ChipId}
    {st : ChipState} (hst : (c, st) ∈ chips) : chipState chips c = st := by
  rw [chipState, findKey_eq_some_of_mem h hst, Option.getD_some]

theorem irqLevel_eq_true_iff {s : State} : irqLevel s = true ↔ ∃ src ∈ s.cfg.sourceOrder, pending s src = true :=
  List.any_eq_true

theorem irqLevel_eq_false {s : State} (h : ∀ q ∈ s.cfg.sourceOrder, pending s q = false) : irqLevel s = false :=
  List.any_eq_false.2 fun q hq => ne_true_of_eq_false (h q hq)

theorem select_eq_none {s : State} (h : ∀ q ∈ s.cfg.sourceOrder, pending s q = false) : select s = none :=
  List.find?_eq_none.2 fun q hq => ne_true_of_eq_false (h q hq)

/-- R73, R128: every response holds the request level of the state after its transaction. -/
theorem exec_next_response_irq {i : Instr} {s t : State} (h : exec i s = .next t) :
    ∃ r, t.response = some r ∧ r.irq = irqLevel t := by
  obtain ⟨r, hr, -, -, hirq, -⟩ := responseWordCarriesTheRequestLevel i s t h
  exact ⟨r, hr, (responseWord_irq r).symm.trans hirq⟩

/-! ### Accepting a source (R125, R126) -/

/-- A source that is accepted leaves every other one pending or not, as it was. -/
theorem pending_acceptSource_other {q src : Source} (h : q ≠ src) (s : State) :
    pending (acceptSource s src).2 q = pending s q := by
  cases src with
  | video =>
    cases q with
    | video => exact absurd rfl h
    | chip d => rfl
  | chip c =>
    cases q with
    | video => rfl
    | chip d =>
      have hd : d ≠ c := fun hd => h (congrArg Source.chip hd)
      exact congrArg ChipState.pending (chipState_setChip_other hd _ _)

/-! ### Finishing the sources (R125, R132) -/

theorem finishSource_chip_names (s : State) (src : Source) :
    (finishSource s src).chips.map Prod.fst = s.chips.map Prod.fst := by
  cases src with
  | video => rfl
  | chip c => exact setChip_names ..

/-- A source's finish is that of its own chip. -/
theorem chipState_finishSource {s : State} {c : ChipId} (hc : c ∈ s.chips.map Prod.fst) (src : Source) :
    chipState (finishSource s src).chips c =
      if Source.chip c = src then Config.chipFinish c (chipState s.chips c) else chipState s.chips c := by
  cases src with
  | video => rfl
  | chip d =>
    by_cases hd : c = d
    · subst hd
      exact (chipState_setChip_same hc _).trans (if_pos rfl).symm
    · exact (chipState_setChip_other hd _ _).trans (if_neg fun h => hd (Source.chip.inj h)).symm

/-- Sources without repeats finish each of their chips once: the finish of the first is not met again. -/
theorem chipState_foldl_finishSource {l : List Source} (hl : l.Nodup) {s : State} {c : ChipId}
    (hc : c ∈ s.chips.map Prod.fst) :
    chipState (l.foldl finishSource s).chips c =
      if Source.chip c ∈ l then Config.chipFinish c (chipState s.chips c) else chipState s.chips c := by
  induction l generalizing s with
  | nil => rfl
  | cons src l ih =>
    obtain ⟨hnew, hrest⟩ := List.nodup_cons.1 hl
    rw [List.foldl_cons, ih hrest (finishSource_chip_names s src ▸ hc), chipState_finishSource hc]
    by_cases hsrc : Source.chip c = src
    · rw [if_neg (hsrc ▸ hnew), if_pos hsrc, if_pos (hsrc ▸ List.mem_cons_self)]
    · simp only [List.mem_cons, hsrc, false_or, if_false]

/-! ### The transactions (R112 to R114) -/

theorem exec_intQuery (s : State) : exec .intQuery s = respond s (if irqLevel s then 0x01 else 0x00) 0 := rfl

theorem exec_intAck_of_none {s : State} (h : select s = none) : exec .intAck s = respond s 0xFF 0 := by
  rw [exec, execIntAck, h]

theorem exec_intAck_of_some {s : State} {src : Source} (h : select s = some src) :
    exec .intAck s = respond (acceptSource s src).2 (acceptSource s src).1 0 := by
  rw [exec, execIntAck, h]

theorem exec_intFin (s : State) :
    exec .intFin s = respond { s with chips := (s.cfg.sourceOrder.foldl finishSource s).chips } 0x00 0 := by
  rw [← foldl_finishSource]
  rfl

/-- Settles O44: INT_QUERY answers from the state itself, and a chip's pending bit is that of its one listed state. -/
theorem intQueryAnswersTheRequestLevel : Obligations.IntQueryAnswersTheRequestLevel := by
  refine ⟨by decide, fun s => ⟨?_, irqLevel_eq_true_iff, rfl, fun hnodup c st hst => ?_,
    fun _ _ => exec_next_response_irq⟩⟩
  · exact (exec_intQuery s).trans (respond_eq_next_iff.2 rfl)
  · rw [pending, chipState_of_mem hnodup hst]

/-- Settles O45: INT_ACK answers from the state itself where no source is selected, and else from the state that accepting
the selected source leaves. -/
theorem intAckServesTheFirstPendingSource : Obligations.IntAckServesTheFirstPendingSource := by
  refine ⟨by decide, fun s => ⟨fun hnone => ?_, fun before after src horder hbefore hpending => ?_⟩⟩
  · have hsel := select_eq_none hnone
    refine ⟨hsel, (exec_intAck_of_none hsel).trans (respond_eq_next_iff.2 ?_)⟩
    rw [irqLevel_eq_false hnone]
    rfl
  · have hsel := select_eq_some horder hbefore hpending
    refine ⟨hsel, _, _, (exec_intAck_of_some hsel).trans (respond_eq_next_iff.2 rfl), rfl, rfl, rfl,
      fun q hq => pending_acceptSource_other hq s, ?_⟩
    cases src with
    | video => exact ⟨rfl, rfl⟩
    | chip c =>
      exact ⟨rfl, rfl, fun hc => chipState_setChip_same hc _, fun d hd => chipState_setChip_other hd _ _⟩

/-- Settles O46: INT_FIN answers from the state whose chips all the sources of the registration order have finished. -/
theorem intFinFinishesEveryChip : Obligations.IntFinFinishesEveryChip :=
  ⟨by decide, fun s => ⟨_, _, (exec_intFin s).trans (respond_eq_next_iff.2 rfl), rfl, rfl, rfl, rfl, rfl,
    fun hnodup _ hc => chipState_foldl_finishSource hnodup hc⟩⟩

end Sys2Proof.Machine

/-! The input side (R91, R115 to R117): the words of KEY_SET, KEY_RELEASE and JOY_SET, and what each transaction answers
and changes. -/

namespace Sys2Proof.Machine

open Sys2Proof

/-! ### What the input side answers (R115 to R117) -/

theorem exec_keySet_of_lt {row : BitVec 16} {s : State} (h : row.toNat < s.cfg.kbdRows) (mask : Byte) :
    exec (.keySet row mask) s =
      respond { s with matrix := s.matrix.set row.toNat (s.matrix.getD row.toNat 0 ||| mask) } 0x00 0 :=
  if_neg (Nat.not_le.2 h)

theorem exec_keyRelease (s : State) :
    exec .keyRelease s = respond { s with matrix := List.replicate s.matrix.length 0x00 } 0x00 0 := by
  rw [← List.map_const']
  rfl

theorem exec_joySet (mask : Byte) (s : State) : exec (.joySet mask) s = respond { s with joy := mask } 0x00 0 := rfl

/-- R91: IO_RD of a joystick port answers with the mask, from the state itself. -/
theorem exec_ioRd_of_joystick {s : State} {portAddr : Addr} (h : s.cfg.handler (portOf portAddr) = .joystick)
    (dt : Byte) : exec (.ioRd dt portAddr) s = respond s s.joy (portWait s (portOf portAddr) dt) := by
  rw [exec_ioRd, ← portOf_eq_setWidth, portRead_of_joystick h]

/-- A row of a matrix in which one row was replaced. -/
theorem getD_set_of_lt {rows : List Byte} {row : Nat} (h : row < rows.length) (v : Byte) (k : Nat) :
    (rows.set row v).getD k 0 = if k = row then v else rows.getD k 0 := by
  rw [List.getD_eq_getElem?_getD, List.getElem?_set]
  by_cases hk : k = row
  · rw [if_pos hk.symm, if_pos h, if_pos hk, Option.getD_some]
  · rw [if_neg (Ne.symm hk), if_neg hk, List.getD_eq_getElem?_getD]

/-- Settles O48: the test is that of the matrix's size, and an accepted row is one the matrix has, so the replaced row
is read back. -/
theorem keySetOrsOneRow : Obligations.KeySetOrsOneRow := by
  constructor
  · intro w hop hsub hdt hd
    have hbyte : ((dOf w).setWidth 8).setWidth 16 = dOf w := BitVec.setWidth_setWidth_eq_self hd
    exact decode_eq_ok_of_fields (by rw [encode, hbyte, hop, hsub, hdt])
  · intro s row mask
    refine ⟨fun hout => if_pos hout, fun hrow hlen => ?_⟩
    refine ⟨_, (exec_keySet_of_lt hrow mask).trans (respond_eq_next_iff.2 rfl), rfl, List.length_set, fun k => ?_⟩
    refine (getD_set_of_lt (hlen ▸ hrow) _ k).trans ?_
    by_cases hk : k = row.toNat
    · rw [if_pos hk, if_pos hk, hk]
    · rw [if_neg hk, if_neg hk]

/-- Settles O49: KEY_RELEASE answers from the state whose matrix is as many empty rows as it had. -/
theorem keyReleaseClearsTheMatrix : Obligations.KeyReleaseClearsTheMatrix :=
  ⟨by decide, fun s => ⟨_, (exec_keyRelease s).trans (respond_eq_next_iff.2 rfl), rfl, rfl⟩⟩

/-- Settles O50: JOY_SET answers from the state with the new mask, and that mask is what a joystick port of it reads. -/
theorem joySetIsReadVerbatim : Obligations.JoySetIsReadVerbatim := by
  constructor
  · intro w hop hsub hdt ha hd
    have hbyte : ((dOf w).setWidth 8).setWidth 16 = dOf w := BitVec.setWidth_setWidth_eq_self hd
    exact decode_eq_ok_of_fields (by rw [encode, hbyte, hop, hsub, hdt, ha])
  · intro s mask
    refine ⟨_, (exec_joySet mask s).trans (respond_eq_next_iff.2 rfl), rfl, fun dt portAddr hport => ?_⟩
    refine ⟨_, _, (exec_ioRd_of_joystick ?_ dt).trans (respond_eq_next_iff.2 rfl), rfl, rfl⟩
    exact hport

end Sys2Proof.Machine

/-! The resets (R118 to R120): what a reset draws, what PowerOn loads, and what each of the three transactions sets and
keeps. -/

namespace Sys2Proof.Machine

open Sys2Proof

/-! ### What a reset draws and loads (R38, R39, R118) -/

/-- A frame buffer without a decoded row reads as its draw at every place. -/
theorem fbPixel_of_fb_replicate {s : State} {rows : Nat} (h : s.fb = List.replicate rows none) (y x : Nat) :
    fbPixel s y x = Config.draw (.fb y x) s.fbDraw := by
  have hrow : s.fb.getD y none = none := by
    rw [h, List.getD_eq_getElem?_getD, List.getElem?_getD_replicate_default_eq]
  rw [fbPixel, hrow]

/-- R38: the image of a region is the loader's, else the region's own default, else none. -/
theorem loadRoms_getElem? (roms : List RomCfg) (imgs : List (Option Image)) (i : Nat) :
    (loadRoms roms imgs)[i]? = roms[i]?.map fun q => (imgs[i]?.join).or q.defaultImg := by
  induction roms, imgs using loadRoms.induct generalizing i with
  | case1 => rfl
  | case2 r rs ih | case3 r rs img ls ih | case4 r rs ls ih =>
    cases i with
    | zero => rfl
    | succ i => exact ih i

theorem powerOn_romImg_getElem? {s : State} {u : Supply} (hu : nextSupply s.supplies = u) {i : Nat} {q : RomCfg}
    (hq : s.cfg.roms[i]? = some q) : (powerOn s).romImg[i]? = some ((u.roms[i]?.join).or q.defaultImg) := by
  rw [powerOn_romImg, hu, loadRoms_getElem?, hq, Option.map_some]

theorem powerOn_diskImg_of_none {s : State} {u : Supply} (hu : nextSupply s.supplies = u) (hdisk : u.disk = none) :
    (powerOn s).diskImg = none := by
  rw [powerOn_diskImg, hu, hdisk, loadDisk, Option.map_none]

theorem powerOn_diskImg_of_some {s : State} {u : Supply} (hu : nextSupply s.supplies = u) {img : Image}
    (hdisk : u.disk = some img) : (powerOn s).diskImg = some (fitImage s.cfg.diskLen img) := by
  rw [powerOn_diskImg, hu, hdisk, loadDisk, Option.map_some]

theorem laterSupplies_cons (u : Supply) (rest : List Supply) :
    laterSupplies (u :: rest) = if rest = [] then [u] else rest := by
  cases rest with
  | nil => rfl
  | cons v rest => rfl

/-! ### The transactions (R118 to R120) -/

theorem exec_resetPowerOn (s : State) : exec .resetPowerOn s = respond (powerOn s) 0x00 0 := rfl

theorem exec_resetCold (s : State) :
    exec .resetCold s = respond (resetRaster (resetPorts s .cold) s.draws) 0x00 0 := rfl

theorem exec_resetWarm (s : State) : exec .resetWarm s = respond (resetPorts s .warm) 0x00 0 := rfl

/-- Settles O51: RESET.POWERON answers from `powerOn s`, whose frame buffer and RAMs hold nothing but draws, and whose
images are those of the next supply. -/
theorem powerOnResetsAllButClockAndInput : Obligations.PowerOnResetsAllButClockAndInput := by
  refine ⟨by decide, fun s => ⟨_, _, (exec_resetPowerOn s).trans (respond_eq_next_iff.2 rfl), rfl, rfl, rfl, rfl,
    -- The chips, the bank and the border register.
    rfl, rfl, rfl, rfl, rfl, rfl, rfl,
    -- The raster and the frame buffer.
    rfl, rfl, rfl, rfl, rfl, rfl, rfl, fbPixel_of_fb_replicate rfl,
    -- The three RAMs and what is supplied.
    fun _ => rfl, fun _ => rfl, fun _ => rfl, fun u rest hsupply => ?_, fun hsupply => ?_,
    -- The clock and the input side.
    rfl, rfl, rfl⟩⟩
  · have hnext : nextSupply s.supplies = u := congrArg nextSupply hsupply
    refine ⟨(congrArg laterSupplies hsupply).trans (laterSupplies_cons u rest),
      fun _ _ => powerOn_romImg_getElem? hnext, powerOn_diskImg_of_none hnext, fun img himg => ?_⟩
    exact ⟨_, powerOn_diskImg_of_some hnext himg, fitImage_length .., fun _ hk => fitImage_getD img hk⟩
  · have hnext := congrArg nextSupply hsupply
    exact ⟨congrArg laterSupplies hsupply, powerOn_diskImg_of_none hnext rfl,
      fun _ _ => powerOn_romImg_getElem? hnext⟩

/-- Settles O52: RESET.COLD answers from a state whose raster and ports alone are new, so a backing read sees the old
stores. -/
theorem coldResetKeepsTheStores : Obligations.ColdResetKeepsTheStores :=
  ⟨by decide, fun s => ⟨_, _, (exec_resetCold s).trans (respond_eq_next_iff.2 rfl), rfl, rfl, rfl, rfl,
    -- The chips, the bank and the border register.
    rfl, rfl, rfl, rfl, rfl, rfl, rfl,
    -- The raster and the frame buffer.
    rfl, rfl, rfl, rfl, rfl, rfl, rfl, fbPixel_of_fb_replicate rfl,
    -- The stores and the images, the clock and the input side.
    backRead_congr rfl rfl rfl rfl rfl rfl, rfl, rfl, rfl, rfl, rfl⟩⟩

/-- Settles O53: RESET.WARM answers from the state whose ports alone are new. -/
theorem warmResetKeepsTheRaster : Obligations.WarmResetKeepsTheRaster :=
  ⟨by decide, fun s => ⟨_, _, (exec_resetWarm s).trans (respond_eq_next_iff.2 rfl), rfl, rfl, rfl, rfl, rfl,
    rfl, rfl, rfl, rfl, rfl, rfl, rfl⟩⟩

end Sys2Proof.Machine

/-! Refusals, construction and the host's tick duty (R9, R123, R142, R144, R145, R148): what a refused request leaves, the
first state as the PowerOn of a constructed block, the reset values of EX1, and the raster under the bus cycles and the
TICK of one CPU instruction. -/

namespace Sys2Proof.Machine

open Sys2Proof

/-! ### Refusals (R123) -/

/-- Settles O9: a refused request sets the mark alone, and a mark that is set stays through every later request. -/
theorem refusalHasNoEffectAndItsMarkStays : Obligations.RefusalHasNoEffectAndItsMarkStays := by
  intro o w
  refine ⟨fun r hr => ?_, fun hbad ws => ?_⟩
  · rw [observeOne_of_refused hr]
    exact ⟨rfl, rfl, rfl⟩
  · obtain ⟨r, hr⟩ := Option.isSome_iff_exists.1 hbad
    rw [foldl_observeOne_mark hr ws, hr]

/-! ### Construction (R144) -/

theorem build_of_not_wf {cfg : Cfg} (h : cfg.wf = false) (supplies : List Supply) :
    build cfg supplies = .refused .configIllFormed := by
  rw [build, h]
  rfl

theorem build_of_wf {cfg : Cfg} (h : cfg.wf = true) (supplies : List Supply) :
    build cfg supplies = .next (State.construct cfg supplies) := if_pos h

/-- R144: what a block holds before its first PowerOn. PowerOn sets every field that is not listed. -/
structure Constructed (s : State) : Prop where
  clock : s.clockKHz = s.cfg.clockKHzInit
  matrix : s.matrix = List.replicate s.cfg.kbdRows 0
  joy : s.joy = 0
  chips : s.chips = s.cfg.chips.map fun c => (c, Config.chipInit c)
  draws : s.draws = 0
  requests : s.requests = []
  response : s.response = none

/-- R118, R144: the first state of a block is PowerOn of the constructed one. -/
theorem Constructed.powerOn_eq {s : State} (h : Constructed s) : powerOn s = State.construct s.cfg s.supplies := by
  obtain ⟨hclock, hmatrix, hjoy, hchips, hdraws, hrequests, hresponse⟩ := h
  simp only [powerOn, resetStores, resetRaster, resetPorts, resetChips, State.construct, hclock, hmatrix, hjoy, hchips,
    hdraws, hrequests, hresponse, List.map_map, Function.comp_def]

/-- Settles O10: the test of R9 decides, and PowerOn leaves no trace of the fields that a constructed block leaves
open. -/
theorem constructionIsPowerOnOfAConstructedInstance : Obligations.ConstructionIsPowerOnOfAConstructedInstance := by
  intro cfg supplies s
  refine ⟨fun h => build_of_not_wf h supplies, ?_⟩
  rintro rfl hclock hmatrix hjoy hchips rfl hdraws hrequests hresponse hwf
  have hs : Constructed s := ⟨hclock, hmatrix, hjoy, hchips, hdraws, hrequests, hresponse⟩
  rw [build_of_wf hwf, hs.powerOn_eq]

/-- Settles O13: the invariant of the first state, for every well-formed configuration and every supply. -/
theorem constructionMeetsTheInvariant : Obligations.ConstructionMeetsTheInvariant :=
  fun _ supplies hwf => construct_inv hwf supplies

/-- R54: with the lower RAM off, EX1's address 0 is the first byte of its ROM, whatever the drawn bank fields are. -/
theorem resolve_reset_zero : resolve State.reset.cfg State.reset.bank 0x0000 = (.rom 0, 0) := rfl

/-- R38: the ROM image that EX1's loader supplies is loaded. -/
theorem reset_romImg_zero : State.reset.romImg[0]? = some (some Config.ex1Rom0) := rfl

/-- R11: address 0 of EX1 holds the first byte of the loader's ROM image. -/
theorem memRead_reset_zero : memRead State.reset 0x0000 = 0xF0 :=
  calc memRead State.reset 0x0000 = backRead State.reset (.rom 0) 0 := by rw [memRead, resolve_reset_zero]
    _ = imageByte (some Config.ex1Rom0) 0 := backRead_rom reset_romImg_zero 0
    _ = 0xF0 := rfl

/-- Settles O12: each field is the one that construction gives EX1, and the byte at address 0 is the ROM's. -/
theorem resetStateHoldsTheResetValues : Obligations.ResetStateHoldsTheResetValues :=
  ⟨rfl,
    -- The mapping flags.
    rfl, rfl, rfl,
    -- The raster and the clock.
    rfl, rfl, rfl, rfl, rfl, rfl, rfl, rfl,
    -- The input side.
    rfl, rfl, memRead_reset_zero⟩

/-! ### The host's tick duty (R142, R148) -/

/-- Two states whose rasters stand at the same place of the same frame. -/
structure SameRaster (s t : State) : Prop where
  cfg : t.cfg = s.cfg
  cpl : t.cpl = s.cpl
  acc : t.acc = s.acc
  line : t.line = s.line

theorem SameRaster.refl (s : State) : SameRaster s s := ⟨rfl, rfl, rfl, rfl⟩

theorem SameRaster.trans {s t u : State} (h : SameRaster s t) (h' : SameRaster t u) : SameRaster s u :=
  ⟨h'.cfg.trans h.cfg, h'.cpl.trans h.cpl, h'.acc.trans h.acc, h'.line.trans h.line⟩

/-- R99: a bus cycle does not move the raster, whatever its diffTicks. -/
theorem sameRaster_of_busCycle {b : BusCycle} {dt : Byte} {s t : State} (h : exec (b.instr dt) s = .next t) :
    SameRaster s t := by
  obtain ⟨u, data, wait, hu, -, hr⟩ := exec_next_effect h
  obtain rfl := respond_eq_next_iff.1 hr
  cases b with
  | memRd isFetch addr =>
    cases hu
    exact ⟨rfl, rfl, rfl, rfl⟩
  | memWr addr v =>
    cases hu
    exact ⟨memWrite_cfg .., memWrite_cpl .., memWrite_acc .., memWrite_line ..⟩
  | ioRd portAddr =>
    cases hu
    exact ⟨portRead_cfg .., portRead_cpl .., portRead_acc .., portRead_line ..⟩
  | ioWr portAddr v =>
    cases hu
    exact ⟨portWrite_cfg .., portWrite_cpl .., portWrite_acc .., portWrite_line ..⟩

/-- R142: the bus cycles of an instruction leave the raster to its TICK. -/
theorem sameRaster_of_runBusCycles {cycles : List (Nat × BusCycle)} {w waits : Nat} {s t : State}
    (h : runBusCycles cycles w s = some (t, waits)) : SameRaster s t := by
  induction cycles generalizing w s with
  | nil =>
    cases h
    exact .refl _
  | cons cycle rest ih =>
    obtain ⟨before, b⟩ := cycle
    unfold runBusCycles at h
    split at h
    · split at h
      next u hu => exact (sameRaster_of_busCycle hu).trans (ih h)
      · cases h
    · cases h

/-- R142: an instruction whose counts fit is its bus cycles and then its TICK. -/
theorem runHostInstr_of_tick {cycles : List (Nat × BusCycle)} {base waits : Nat} {s t u : State}
    (hbus : runBusCycles cycles 0 s = some (t, waits)) (hfits : base + waits < 2 ^ 32)
    (htick : exec (.tick (BitVec.ofNat 32 (base + waits))) t = .next u) : runHostInstr cycles base s = some u := by
  simp only [runHostInstr, hbus, if_pos hfits, htick]

/-- Settles O39: the bus cycles leave the raster where it stood, and TICK's law (R104) moves it by the base cycles and the
waits. -/
theorem hostInstructionAddsItsWaits : Obligations.HostInstructionAddsItsWaits := by
  intro s t cycles base waits hcpl hline hfits hbus
  obtain ⟨hcfgT, hcplT, haccT, hlineT⟩ := sameRaster_of_runBusCycles hbus
  obtain ⟨u, hu, hacc, -, hlineU, -⟩ := tickMovesTheCountersAndTheLatch t (BitVec.ofNat 32 (base + waits))
    (by rwa [hcplT]) (by rwa [hcfgT, hlineT])
  rw [BitVec.toNat_ofNat, Nat.mod_eq_of_lt hfits, haccT, hcplT, ← Nat.add_assoc] at hacc hlineU
  rw [hlineT, hcfgT] at hlineU
  exact ⟨u, runHostInstr_of_tick hbus hfits hu, hacc, hlineU⟩

end Sys2Proof.Machine
